-- ==== Sys2Proof/Word.lean ====
section
/-! DEFINITION. The word types of the spec: a 16-bit line-list word (R5 WORD_BITS), a 32-bit pixel
(R5 PIXEL_BITS, R38) and a 32-bit register (R21). -/

namespace Sys2Proof

/-- A line-list word: 16 bits (R5, R65). -/
abbrev Word16 := BitVec 16

/-- A pixel: a 32-bit two's-complement integer (R38). -/
abbrev Pixel := BitVec 32

/-- A host-visible register: 32 bits (R21). -/
abbrev Reg32 := BitVec 32

end Sys2Proof
end

