-- ==== Sys2Proof/Config.lean ====
section
/-! DEFINITION. What an implementation fixes and the spec leaves OPEN (92_eei_decisions.md), and the
values the spec leaves free (93_implementation_defined.md), each a constant without a body: no proof
can learn its value, so every statement holds whatever it is. -/

namespace Sys2Proof

/-- The three agents of R12. -/
inductive Agent where
  | host
  | enc
  | dec
  deriving DecidableEq, Repr, Inhabited

/-- The last word address of PM: PM_WORDS - 1, so that PM_WORDS is 1 .. 2^32 (R5, R37; D2 OPEN).
Log entry 3. -/
opaque Config.pmLast : BitVec 32

/-- The last word address of LM: LM_WORDS - 1, so that LM_WORDS is 1 .. 2^32 (R5, R37; D2 OPEN).
Log entry 3. -/
opaque Config.lmLast : BitVec 32

/-- What each word of PM holds after power-on (R55, U12: any value, one draw per word). Log entry 4. -/
opaque Config.pmPowerOn : Nat → Pixel

/-- What each word of LM holds after power-on (R55, U12: any value, one draw per word). Log entry 4. -/
opaque Config.lmPowerOn : Nat → Word16

/-- Which agents move, where State's schedule does not say (R49, U9, U10: any interleaving): the agents
before ENC's next turn, and those between it and DEC's next turn (R133: weak fairness). Log entries 1, 12. -/
opaque Config.pick : Nat → List Agent × List Agent

/-- HOST_BYTE_ORDER: whether the host's byte-addressed view lays a word out big-endian (R44; D25 OPEN).
It changes no rule. Log entry 14. -/
opaque Config.hostBigEndian : Bool

/-- CORE_BASE: where the register space sits in the host's address map (R120; D18 OPEN).
It changes no rule. Log entry 14. -/
opaque Config.coreBase : Nat

end Sys2Proof
end

