-- ==== Sys2Proof/Machine/State.lean ====
section
/-! DEFINITION. Everything the spec gives the machine to hold (10_state.md, 20_memory.md), the model's
own inputs (the host's actions and the schedule), the outcomes' reasons, and the state after reset. -/

namespace Sys2Proof.Machine

/-- The two units of R12. -/
inductive UnitId where
  | enc
  | dec
  deriving DecidableEq, Repr

/-- The fault codes 1 to 9 of R110; 10 to 15 are never reported (U21), so they have no constructor. -/
inductive FaultCode where
  | map
  | srcBounds
  | dstBounds
  | valueRange
  | lengthRange
  | highOverflow
  | badHeader
  | badOpcode
  | truncated
  deriving DecidableEq, Repr

/-- A memory's written bytes (R37), each word in its own bytes (log entry 5), by rising address.
An address that is not listed holds its power-on draw (R55; log entry 4). -/
structure Memory where
  cells : List Host.Cell
  deriving DecidableEq, Repr

/-- The argument registers START .. DST_LEN (R26), and their latched copies (R31). -/
structure Args where
  start : Reg32
  count : Reg32
  srcBase : Reg32
  srcLen : Reg32
  dstBase : Reg32
  dstLen : Reg32
  deriving DecidableEq, Repr

/-- ENC's working registers, but for the latched arguments (R15). -/
structure EncWork where
  ip : BitVec 33
  xe : BitVec 33
  x1 : BitVec 33
  iz : BitVec 33
  pv : Pixel
  nv : Pixel
  hi : Pixel
  op : BitVec 32
  deriving DecidableEq, Repr

/-- What DEC latches at GO: the arguments and CONFIG.STRICT (R31). -/
structure DecLatch where
  args : Args
  strict : Bool
  deriving DecidableEq, Repr

/-- DEC's working registers, but for the latched ones (R16). `xe` and `x1` have POS_BITS bits, which
the model takes as unbounded naturals (R5, D17). -/
structure DecWork where
  ip : BitVec 32
  L : BitVec 32
  xe : Nat
  x1 : Nat
  op : BitVec 32
  high : Pixel
  deriving DecidableEq, Repr

/-- Where a unit stands. The legal states of STATUS (R24), RUNNING split in two: a GO was accepted and
the start step comes next (R30), or the start step is past. `κ` is what GO latches, `ω` the other
working registers, which have no value outside a command (R17, R34, U11; log entry 2). -/
inductive Phase (κ ω : Type) where
  | idle
  | done
  | faulted (c : FaultCode)
  | accepted (k : κ)
  | running (k : κ) (w : ω)
  deriving DecidableEq, Repr

/-- One unit: its read/write argument registers, RESULT, FINFO (R21, R26 to R28) and its phase.
STATUS is a view of the phase, CONTROL holds nothing and ID is a constant (R23, R24, R29). -/
structure CodecUnit (κ ω : Type) where
  args : Args
  result : Reg32
  finfo : Reg32
  phase : Phase κ ω
  deriving DecidableEq, Repr

/-- ENC (R12, R15). -/
abbrev EncUnit := CodecUnit Args EncWork

/-- DEC (R12, R16); its CONFIG.STRICT register is State's `decStrict`. -/
abbrev DecUnit := CodecUnit DecLatch DecWork

/-- One action of the host (R12, R22, R37, R124, R126). Log entry 6. -/
inductive HostOp where
  /-- A 32-bit read of the register at a byte offset (R22). -/
  | readReg (off : Nat)
  /-- A 32-bit write of the register at a byte offset (R22). -/
  | writeReg (off : Nat) (v : Reg32)
  /-- A read of a PM word (R37). -/
  | readPm (a : Nat)
  /-- A write of a PM word (R37). -/
  | writePm (a : Nat) (v : Pixel)
  /-- A read of an LM word (R37). -/
  | readLm (a : Nat)
  /-- A write of an LM word (R37). -/
  | writeLm (a : Nat) (v : Word16)
  /-- Reads of a unit's STATUS, one each host step, until BUSY = 0 (R112, R126 step 5). -/
  | pollStatus (u : UnitId)
  /-- Asserting the reset input (R124). -/
  | assertReset
  /-- Releasing the reset input (R124). -/
  | releaseReset
  deriving DecidableEq, Repr

/-- The machine's state. -/
structure State where
  /-- PM_WORDS - 1, a parameter no step changes (R5, R37). -/
  pmLast : BitVec 32
  /-- LM_WORDS - 1, a parameter no step changes (R5, R37). -/
  lmLast : BitVec 32
  /-- The pixel memory PM (R37). -/
  pm : Memory
  /-- The line-list memory LM (R37). -/
  lm : Memory
  /-- The encoder unit. -/
  enc : EncUnit
  /-- The decoder unit. -/
  dec : DecUnit
  /-- DEC's CONFIG.STRICT (R25). -/
  decStrict : Bool
  /-- Whether the reset input is asserted (R124). -/
  inReset : Bool
  /-- The model's own: the host's actions still to come, oldest first (log entry 6). -/
  hostOps : List HostOp
  /-- The model's own: what the host's reads returned, newest first (log entry 6). -/
  hostSaw : List Reg32
  /-- The model's own: which agents move in the next steps (log entry 1). -/
  sched : List Agent
  /-- The model's own: how many stretches of the schedule `Config.pick` has drawn (log entry 1). -/
  draws : Nat
  deriving DecidableEq, Repr

/-- Why the machine stops. The spec's own faults are NOT here: they are next states (R114). -/
inductive Fault where
  /-- The host accessed a PM address at or above PM_WORDS, which is no address of PM (R37). Raised by
  the host's `readPm` and `writePm` alone. SAFE: the model stops where the platform decides (log entry 7). -/
  | absentPmWord
  /-- The host accessed an LM address at or above LM_WORDS, which is no address of LM (R37). Raised by
  the host's `readLm` and `writeLm` alone. SAFE: the model stops where the platform decides (log entry 7). -/
  | absentLmWord
  deriving DecidableEq, Repr

/-- Why an instruction has no meaning. -/
inductive Refusal where
  /-- The instruction has no meaning in the model yet. Raised by no arm of `exec`. SAFE. -/
  | notModelled (mnemonic : String)
  /-- An instruction executed where no decode command runs: DEC's working registers have no value there
  (R17; U11's treatment is 'refuse'). Raised by every meaning, reached by no step. SAFE (log entry 2). -/
  | noDecodeCommand
  deriving DecidableEq, Repr

/-- Every argument register 0 (R26, R36). -/
def Args.zero : Args := ⟨0, 0, 0, 0, 0, 0⟩

/-- A unit with every register at its reset value (R36). -/
def CodecUnit.reset {κ ω : Type} : CodecUnit κ ω :=
  { args := Args.zero, result := 0, finfo := 0, phase := .idle }

/-- The machine right after the reset that follows power-on (R36, R55, R124, R125): both units IDLE,
every register at its reset value, PM and LM as power-on left them, the reset input released, and of
the model's own fields nothing to come (log entry 16). -/
def State.reset : State where
  pmLast := Config.pmLast
  lmLast := Config.lmLast
  pm := ⟨[]⟩
  lm := ⟨[]⟩
  enc := CodecUnit.reset
  dec := CodecUnit.reset
  decStrict := false
  inReset := false
  hostOps := []
  hostSaw := []
  sched := []
  draws := 0

end Sys2Proof.Machine
end

