-- ==== Sys2Proof/Machine/Flags.lean ====
section
/-! DEFINITION. The only flags of the core: BUSY, DONE, FAULT and FCODE of STATUS (R20, R24). -/

namespace Sys2Proof.Machine

/-- FCODE (R110). -/
def FaultCode.code : FaultCode → BitVec 4
  | .map => 1
  | .srcBounds => 2
  | .dstBounds => 3
  | .valueRange => 4
  | .lengthRange => 5
  | .highOverflow => 6
  | .badHeader => 7
  | .badOpcode => 8
  | .truncated => 9

/-- STATUS.BUSY: a command runs (R24, R30). -/
def Phase.busy {κ ω : Type} : Phase κ ω → Bool
  | .idle => false
  | .done => false
  | .faulted _ => false
  | .accepted _ => true
  | .running _ _ => true

/-- The STATUS register: BUSY in bit 0, DONE in bit 1, FAULT in bit 2, FCODE in bits 11:8 (R24). -/
def Phase.status {κ ω : Type} : Phase κ ω → Reg32
  | .idle => 0
  | .done => 2
  | .faulted c => (c.code.setWidth 32 <<< 8) ||| 4
  | .accepted _ => 1
  | .running _ _ => 1

end Sys2Proof.Machine
end

