-- ==== Sys2Proof/Syntax.lean ====
section
/-! DEFINITION. The line-list instructions: one constructor per row of spec/opcode_table.json (R71). -/

namespace Sys2Proof

/-- A line-list instruction. `d` is the 12-bit data field (R65), `w` the second word of a set-high
pair (R69). -/
inductive Instr where
  /-- ZN, zero-run, opcode 0 (R95). -/
  | zn (d : BitVec 12)
  /-- SH, set-high, opcode 1, two words (R96). -/
  | sh (d : BitVec 12) (w : Word16)
  /-- IH, inc-high, opcode 2 (R97). -/
  | ih (d : BitVec 12)
  /-- DH, dec-high, opcode 3 (R98). -/
  | dh (d : BitVec 12)
  /-- HN, high-run, opcode 4 (R99). -/
  | hn (d : BitVec 12)
  /-- PN, zero-run+1, opcode 5 (R100). -/
  | pn (d : BitVec 12)
  /-- IS, inc-high+store, opcode 6 (R101). -/
  | is (d : BitVec 12)
  /-- DS, dec-high+store, opcode 7 (R102). -/
  | ds (d : BitVec 12)
  /-- RESERVED, opcodes 8..15 (R103): the opcode field and the ignored field. -/
  | reserved (op : BitVec 4) (x : BitVec 12)
  deriving DecidableEq, Repr

end Sys2Proof
end

