-- ==== Sys2Proof/WellFormed.lean ====
section
/-! DEFINITION. Which instruction terms some line-list words encode. Every data value is legal with
every opcode (R72), so the one check is on the opcode of a reserved word. -/

namespace Sys2Proof

/-- A term is well formed when words encode it: a RESERVED term carries an opcode 8..15 (R72, R103). -/
def Instr.wellFormed : Instr → Bool
  | .zn _ => true
  | .sh _ _ => true
  | .ih _ => true
  | .dh _ => true
  | .hn _ => true
  | .pn _ => true
  | .is _ => true
  | .ds _ => true
  | .reserved op _ => decide (8 ≤ op.toNat)

end Sys2Proof
end

