-- ==== Sys2Proof/Decode.lean ====
section
/-! DEFINITION. The instruction parser and formatter of 30_encoding.md (R65 to R72), and the decoding
of the opcode table's numbers. -/

namespace Sys2Proof

/-- `opcode(w) = w[15:12]`, unsigned (R66). -/
def opcodeOf (w : Word16) : BitVec 4 := w.extractLsb' 12 4

/-- `data(w) = w[11:0]`, unsigned (R66). -/
def dataOf (w : Word16) : BitVec 12 := w.extractLsb' 0 12

/-- `bits16(v)`: the word whose unsigned value is `v mod 65536` (R7). -/
def bits16 (v : Int) : Word16 := BitVec.ofInt 16 v

/-- `Pack(opc, d) = bits16(opc * 4096 + d)` (R67). -/
def pack (opc : Nat) (d : Nat) : Word16 := bits16 (opc * 4096 + d)

/-- How many words an instruction has, from the opcode of its first word alone (R70). -/
def lengthOf (w : Word16) : Nat := if opcodeOf w = 1 then 2 else 1

/-- Which instruction a word starts (R66, R71, R92); `w1` is the word after it, used by set-high alone. -/
def decodeWords (w0 w1 : Word16) : Instr :=
  match (opcodeOf w0).toNat with
  | 0 => .zn (dataOf w0)
  | 1 => .sh (dataOf w0) w1
  | 2 => .ih (dataOf w0)
  | 3 => .dh (dataOf w0)
  | 4 => .hn (dataOf w0)
  | 5 => .pn (dataOf w0)
  | 6 => .is (dataOf w0)
  | 7 => .ds (dataOf w0)
  | _ => .reserved (opcodeOf w0) (dataOf w0)

/-- Why a list of words starts no instruction. -/
inductive DecodeError where
  /-- There is no word. -/
  | noWord
  /-- A set-high's second word is missing (R69, R70). -/
  | noSecondWord
  deriving DecidableEq, Repr

/-- The instruction a list of words starts with, and the words after it (R65 to R72). Total; a list
that is too short is rejected by name. -/
def decode : List Word16 → Except DecodeError (Instr × List Word16)
  | [] => .error .noWord
  | [w0] => if lengthOf w0 = 2 then .error .noSecondWord else .ok (decodeWords w0 0, [])
  | w0 :: w1 :: rest =>
    .ok (decodeWords w0 w1, if lengthOf w0 = 2 then rest else w1 :: rest)

/-- The words of an instruction (R67, R69, R71). -/
def encode : Instr → List Word16
  | .zn d => [pack 0 d.toNat]
  | .sh d w => [pack 1 d.toNat, w]
  | .ih d => [pack 2 d.toNat]
  | .dh d => [pack 3 d.toNat]
  | .hn d => [pack 4 d.toNat]
  | .pn d => [pack 5 d.toNat]
  | .is d => [pack 6 d.toNat]
  | .ds d => [pack 7 d.toNat]
  | .reserved op x => [pack op.toNat x.toNat]

/-- The two words of an instruction numbered as spec/opcode_table.json numbers it: bit 0 is the least
significant bit of the first word, the second word follows in bits 31:16, bits from `nbits` on are 0. -/
def tableWords (nbits w : Nat) : Word16 × Word16 :=
  (BitVec.ofNat 16 (w % 2 ^ nbits), BitVec.ofNat 16 (w % 2 ^ nbits / 65536))

/-- The instruction the decoder reads from an opcode-table number. -/
def decodeTableWord (nbits w : Nat) : Option Instr :=
  match decode [(tableWords nbits w).1, (tableWords nbits w).2] with
  | .ok r => some r.1
  | .error _ => none

end Sys2Proof
end

