-- ==== Sys2Proof/Machine/Params.lean ====
section
/-! DEFINITION. The fixed parameters of R5. -/

namespace Sys2Proof.Machine

/-- HEADER_LEN (R5, R57). -/
def headerLen : Nat := 7

/-- LEGACY_HEADER_LEN (R5, R58). -/
def legacyHeaderLen : Nat := 3

/-- The weight of the length-hi word, 2^LEN_SPLIT (R5, R62). -/
def lenSplit : Nat := 32768

/-- ZN_CAP (R5, R83). -/
def znCap : Nat := 4094

/-- HN_CAP (R5, R84). -/
def hnCap : Nat := 4095

/-- DELTA_MAX (R5, R82). -/
def deltaMax : Nat := 4095

/-- INITIAL_HIGH (R5, D5; the spec's I1, log entry 17). -/
def initialHigh : Pixel := 1

/-- VERSION_TAG (R5, D6; the spec's I2, log entry 17). -/
def versionTag : Int := -100

/-- MAX_SH_VALUE = 2^27 - 1 (R5, R69). -/
def maxShValue : Nat := 134217727

/-- MAX_LEN = 2^30 - 1 (R5, R62). -/
def maxLen : Nat := 1073741823

/-- The weight of a set-high's second word (R69). -/
def shWeight : Nat := 4096

end Sys2Proof.Machine
end

