-- ==== Sys2Proof/Machine/Operands.lean ====
section
/-! DEFINITION. The values an instruction or a header word denotes: signed readings (R7, R59), the
set-high value (R69), the span of a run (R93), a clamped pixel (R77), the header's fields (R57 to R63). -/

namespace Sys2Proof.Machine

/-- `sext16(w)`: the two's-complement value of a word (R7). -/
def sext16 (w : Word16) : Int := w.toInt

/-- `int32(v)`: a 32-bit two's-complement register holding `v` (R7). -/
def int32 (v : Int) : BitVec 32 := BitVec.ofInt 32 v

/-- Whether an integer is one a 32-bit signed register holds (R7, R94). -/
def fitsInt32 (v : Int) : Bool := decide (-2147483648 ≤ v) && decide (v ≤ 2147483647)

/-- The high value a set-high pair gives: `sext16(w1) * 4096 + d` (R69, R96). -/
def shValue (d : BitVec 12) (w1 : Word16) : Int := sext16 w1 * shWeight + d.toNat

/-- `clamp(p) = max(0, p)` for the 32-bit signed pixel `p` (R77). -/
def clamp (p : Pixel) : Pixel := int32 (max 0 p.toInt)

/-- The part of a run that lies in the window (R93). -/
structure RunSpan where
  /-- The last position of the run. -/
  x2 : Int
  /-- The first in-window position. -/
  i1 : Int
  /-- The last in-window position. -/
  i2 : Int
  /-- The in-window count; no pixel is written when it is not positive. -/
  n : Int
  deriving DecidableEq, Repr

/-- `Span(d)` (R93), for a run of `d` positions from D.x1. -/
def spanOf (start : Reg32) (w : DecWork) (d : BitVec 12) : RunSpan :=
  let x2 : Int := (w.x1 : Int) + d.toNat - 1
  let i1 : Int := max (w.x1 : Int) start.toNat
  let i2 : Int := min x2 (w.xe : Int)
  { x2 := x2, i1 := i1, i2 := i2, n := i2 - i1 + 1 }

/-- Whether D.x1 lies in the window: `D.start <= D.x1 <= D.xe` (R101, R102). -/
def inWindow (start : Reg32) (w : DecWork) : Bool := decide (start.toNat ≤ w.x1) && decide (w.x1 ≤ w.xe)

/-- The two header formats (R57, R58, R60). -/
inductive HeaderFormat where
  | current
  | legacy
  deriving DecidableEq, Repr

/-- What the start step reads from a header (R60 to R62): the version word's value, the encoded length,
the data start, and for a current header its length-field values (0 for a legacy one, which has none). -/
structure Header where
  fmt : HeaderFormat
  version : Int
  hl : Int
  lo : Int
  hi : Int
  deriving DecidableEq, Repr

/-- The encoded length L (R62, R63). -/
def Header.length (h : Header) : Int :=
  match h.fmt with
  | .legacy => h.version
  | .current => h.lo + h.hi * lenSplit

/-- The data start (R61). -/
def Header.dataStart (h : Header) : Int :=
  match h.fmt with
  | .legacy => legacyHeaderLen
  | .current => h.hl

/-- StrictHeader: checks S1 to S3 (R105), in that order; the header element it reports. -/
def Header.strictHeader (h : Header) : Option Int :=
  if h.version = 0 then some 2
  else if h.fmt = .current ∧ h.hl ≠ headerLen then some 1
  else if h.fmt = .current ∧ h.lo < 0 then some 3
  else if h.fmt = .current ∧ h.hi < 0 then some 4
  else none

/-- The header element that holds the length, which S4 and S5 report (R105). -/
def Header.lengthElement (h : Header) : Int :=
  match h.fmt with
  | .legacy => 2
  | .current => 3

/-- StrictLength: checks S4 and S5 (R105); the header element it reports. -/
def Header.strictLength (h : Header) (srcLen : Reg32) : Option Int :=
  if h.length > srcLen.toNat then some h.lengthElement
  else if h.dataStart > h.length then some h.lengthElement
  else none

/-- The current header of a line list of `len` words, as the encoder writes it (R57, R62). -/
def currentHeader (len : Nat) : List Word16 :=
  [bits16 0, bits16 headerLen, bits16 versionTag, bits16 (len % lenSplit), bits16 (len / lenSplit),
    bits16 0, bits16 0]

end Sys2Proof.Machine
end

