-- ==== Sys2Proof/Machine/Ops.lean ====
section
/-! DEFINITION. The named operations over memory, buffers, units and registers (20_memory.md;
10_state.md R21 to R33; 60_exceptions.md R114, R115). -/

namespace Sys2Proof.Machine

/-! ### Bytes of a memory -/

/-- The byte a list of cells gives an address, if it lists one. -/
def findCell : List Host.Cell → Nat → Option (BitVec 8)
  | [], _ => none
  | (a, b) :: rest, k => if a = k then some b else findCell rest k

/-- The cells with the byte at `k` set to `v`, addresses still rising. -/
def setCell : List Host.Cell → Nat → BitVec 8 → List Host.Cell
  | [], k, v => [(k, v)]
  | (a, b) :: rest, k, v =>
    if k < a then (k, v) :: (a, b) :: rest
    else if k = a then (k, v) :: rest
    else (a, b) :: setCell rest k v

/-- Whether every listed address is at or above `lo` and addresses strictly rise. -/
def risingFrom : Nat → List Host.Cell → Bool
  | _, [] => true
  | lo, (a, _) :: rest => decide (lo ≤ a) && risingFrom (a + 1) rest

/-- The canonical form: addresses strictly rising. An entry never equals what an unlisted address holds,
since that has no listed value at all but its power-on draw (R55; log entry 4). -/
def Memory.wf (m : Memory) : Bool := risingFrom 0 m.cells

/-- The byte a memory holds at a byte address, where `draw` gives the power-on byte (R55). -/
def Memory.byte (draw : Nat → BitVec 8) (m : Memory) (k : Nat) : BitVec 8 :=
  (findCell m.cells k).getD (draw k)

/-- The memory with one byte written. -/
def Memory.setByte (m : Memory) (k : Nat) (v : BitVec 8) : Memory := ⟨setCell m.cells k v⟩

/-! ### Words of PM and LM: each word stands in its own bytes (log entry 5) -/

/-- Byte `k` of LM at power-on: byte `k mod 2` of the draw of word `k div 2` (R55). -/
def lmDraw (k : Nat) : BitVec 8 := (Config.lmPowerOn (k / 2)).extractLsb' (8 * (k % 2)) 8

/-- Byte `k` of PM at power-on: byte `k mod 4` of the draw of word `k div 4` (R55). -/
def pmDraw (k : Nat) : BitVec 8 := (Config.pmPowerOn (k / 4)).extractLsb' (8 * (k % 4)) 8

/-- `MemRead(LM, a)` (R8, R37, R46). -/
def lmRead (m : Memory) (a : Nat) : Word16 := m.byte lmDraw (2 * a + 1) ++ m.byte lmDraw (2 * a)

/-- `MemWrite(LM, a, v)` (R8, R37, R46). -/
def lmWrite (m : Memory) (a : Nat) (v : Word16) : Memory :=
  (m.setByte (2 * a) (v.extractLsb' 0 8)).setByte (2 * a + 1) (v.extractLsb' 8 8)

/-- `MemRead(PM, a)` (R8, R37, R46). -/
def pmRead (m : Memory) (a : Nat) : Pixel :=
  (m.byte pmDraw (4 * a + 3) ++ m.byte pmDraw (4 * a + 2)) ++
    (m.byte pmDraw (4 * a + 1) ++ m.byte pmDraw (4 * a))

/-- `MemWrite(PM, a, v)` (R8, R37, R46). -/
def pmWrite (m : Memory) (a : Nat) (v : Pixel) : Memory :=
  (((m.setByte (4 * a) (v.extractLsb' 0 8)).setByte (4 * a + 1) (v.extractLsb' 8 8)).setByte
    (4 * a + 2) (v.extractLsb' 16 8)).setByte (4 * a + 3) (v.extractLsb' 24 8)

/-- PM_WORDS (R5, R37). -/
def State.pmWords (s : State) : Nat := s.pmLast.toNat + 1

/-- LM_WORDS (R5, R37). -/
def State.lmWords (s : State) : Nat := s.lmLast.toNat + 1

/-! ### Buffers (R40 to R43). R48: these are the only checks a unit's access meets (log entry 8). -/

/-- The map check of R41: both buffers lie inside their memories, sums without wrap. -/
def Args.mapped (a : Args) (srcWords dstWords : Nat) : Bool :=
  decide (a.srcBase.toNat + a.srcLen.toNat ≤ srcWords) &&
    decide (a.dstBase.toNat + a.dstLen.toNat ≤ dstWords)

/-- Whether `i` is an element of a buffer of `len` elements (R40, R42, R43). -/
def inBuffer (len : Reg32) (i : Int) : Bool := decide (0 ≤ i) && decide (i < len.toNat)

/-- ENC's `SrcRead(i)` (R42): none where it raises Fault(SRC_BOUNDS, i). -/
def encSrcRead (a : Args) (pm : Memory) (i : Int) : Option Pixel :=
  if inBuffer a.srcLen i then some (pmRead pm (a.srcBase.toNat + i.toNat)) else none

/-- DEC's `SrcRead(i)` (R42): none where it raises Fault(SRC_BOUNDS, i). -/
def decSrcRead (a : Args) (lm : Memory) (i : Int) : Option Word16 :=
  if inBuffer a.srcLen i then some (lmRead lm (a.srcBase.toNat + i.toNat)) else none

/-- ENC's `DstWrite(i, v)` (R43): none where it raises Fault(DST_BOUNDS, i). -/
def encDstWrite (a : Args) (lm : Memory) (i : Int) (v : Word16) : Option Memory :=
  if inBuffer a.dstLen i then some (lmWrite lm (a.dstBase.toNat + i.toNat) v) else none

/-- DEC's `DstWrite(i, v)` (R43): none where it raises Fault(DST_BOUNDS, i). -/
def decDstWrite (a : Args) (pm : Memory) (i : Int) (v : Pixel) : Option Memory :=
  if inBuffer a.dstLen i then some (pmWrite pm (a.dstBase.toNat + i.toNat) v) else none

/-- What a run of DEC's destination writes answers: the memory, or the memory as the writes before a
failing one left it and the failing element index (R114). -/
inductive Stored where
  | ok (pm : Memory)
  | bounds (i : Int) (pm : Memory)
  deriving DecidableEq, Repr

/-- `for k in 0 .. n - 1: DstWrite(i + k, v)` (R95, R99, R100, R104). -/
def storeRun (a : Args) (v : Pixel) : Nat → Int → Memory → Stored
  | 0, _, pm => .ok pm
  | n + 1, i, pm =>
    match decDstWrite a pm i v with
    | none => .bounds i pm
    | some pm' => storeRun a v n (i + 1) pm'

/-! ### Fault entry and the ends of a command -/

/-- `raise Fault(code, info)` for the unit that runs (R114): STATUS FAULTED with its FCODE, FINFO the
32-bit form of `info` (R110), RESULT stays as it is, the working registers gone (R17). -/
def CodecUnit.raise {κ ω : Type} (u : CodecUnit κ ω) (c : FaultCode) (info : Int) : CodecUnit κ ω :=
  { u with phase := .faulted c, finfo := int32 info }

/-- Completion without fault (R33): RESULT, STATUS DONE. -/
def CodecUnit.complete {κ ω : Type} (u : CodecUnit κ ω) (res : Reg32) : CodecUnit κ ω :=
  { u with phase := .done, result := res }

/-- An accepted GO (R30, R31): STATUS RUNNING, RESULT and FINFO 0, `k` latched. -/
def CodecUnit.go {κ ω : Type} (u : CodecUnit κ ω) (k : κ) : CodecUnit κ ω :=
  if u.phase.busy then u else { u with phase := .accepted k, result := 0, finfo := 0 }

/-- CLEAR, which also is the way out of FAULTED (R32, R115). -/
def CodecUnit.clear {κ ω : Type} (u : CodecUnit κ ω) : CodecUnit κ ω :=
  if u.phase.busy then u else { u with phase := .idle, finfo := 0 }

/-- Taking a fault: the ONE operation every `raise` of the spec is (R111, R114). The other unit is not
affected. -/
def raiseFault (u : UnitId) (c : FaultCode) (info : Int) (s : State) : State :=
  match u with
  | .enc => { s with enc := s.enc.raise c info }
  | .dec => { s with dec := s.dec.raise c info }

/-- Completing a unit's command (R33). -/
def completeCommand (u : UnitId) (res : Reg32) (s : State) : State :=
  match u with
  | .enc => { s with enc := s.enc.complete res }
  | .dec => { s with dec := s.dec.complete res }

/-- GO written to a unit's CONTROL (R30, R31). -/
def acceptGo (u : UnitId) (s : State) : State :=
  match u with
  | .enc => { s with enc := s.enc.go s.enc.args }
  | .dec => { s with dec := s.dec.go { args := s.dec.args, strict := s.decStrict } }

/-- Leaving FAULTED or DONE: CLEAR written to a unit's CONTROL (R32, R115). -/
def clearCommand (u : UnitId) (s : State) : State :=
  match u with
  | .enc => { s with enc := s.enc.clear }
  | .dec => { s with dec := s.dec.clear }

/-- ENC goes on with the words it wrote and its working registers (R49). -/
def State.encGoOn (s : State) (a : Args) (w : EncWork) (lm : Memory) : State :=
  { s with lm := lm, enc := { s.enc with phase := .running a w } }

/-- DEC goes on with the pixels it wrote and its working registers (R49). -/
def State.decGoOn (s : State) (k : DecLatch) (w : DecWork) (pm : Memory) : State :=
  { s with pm := pm, dec := { s.dec with phase := .running k w } }

/-! ### The register space (R21 to R29) -/

/-- The registers of a block (R21). -/
inductive RegName where
  | control
  | status
  | config
  | start
  | count
  | srcBase
  | srcLen
  | dstBase
  | dstLen
  | result
  | finfo
  | id
  deriving DecidableEq, Repr

/-- The register at an offset within a block; none where the offset is reserved (R21, R22). -/
def regAt (off : Nat) : Option RegName :=
  match off with
  | 0x00 => some .control
  | 0x04 => some .status
  | 0x08 => some .config
  | 0x0C => some .start
  | 0x10 => some .count
  | 0x14 => some .srcBase
  | 0x18 => some .srcLen
  | 0x1C => some .dstBase
  | 0x20 => some .dstLen
  | 0x24 => some .result
  | 0x28 => some .finfo
  | 0x2C => some .id
  | _ => none

/-- The block and register at a byte offset of the register space; none where it is reserved (R21, R22). -/
def regOf (off : Nat) : Option (UnitId × RegName) :=
  if off < 0x100 then (regAt off).map fun r => (.enc, r)
  else (regAt (off - 0x100)).map fun r => (.dec, r)

/-- ID (R29). -/
def idOf : UnitId → Reg32
  | .enc => 0x504C0001
  | .dec => 0x504C0002

/-- A read of a register that is not CONFIG or ID; CONTROL reads 0 (R23, R24, R26 to R28). -/
def CodecUnit.readReg {κ ω : Type} (u : CodecUnit κ ω) : RegName → Reg32
  | .control => 0
  | .status => u.phase.status
  | .config => 0
  | .start => u.args.start
  | .count => u.args.count
  | .srcBase => u.args.srcBase
  | .srcLen => u.args.srcLen
  | .dstBase => u.args.dstBase
  | .dstLen => u.args.dstLen
  | .result => u.result
  | .finfo => u.finfo
  | .id => 0

/-- A read of one of a unit's registers (R21 to R29). -/
def readUnitReg (s : State) (u : UnitId) (r : RegName) : Reg32 :=
  match u, r with
  | u, .id => idOf u
  | .dec, .config => (BitVec.ofBool s.decStrict).setWidth 32
  | .enc, r => s.enc.readReg r
  | .dec, r => s.dec.readReg r

/-- The host's read of a register; a reserved offset reads 0 (R22). -/
def readReg (s : State) (off : Nat) : Reg32 :=
  match regOf off with
  | some (u, r) => readUnitReg s u r
  | none => 0

/-- A write of an argument register; a write of any other register leaves the arguments (R22, R26). -/
def Args.write (a : Args) (r : RegName) (v : Reg32) : Args :=
  match r with
  | .start => { a with start := v }
  | .count => { a with count := v }
  | .srcBase => { a with srcBase := v }
  | .srcLen => { a with srcLen := v }
  | .dstBase => { a with dstBase := v }
  | .dstLen => { a with dstLen := v }
  | .control => a
  | .status => a
  | .config => a
  | .result => a
  | .finfo => a
  | .id => a

/-- A write of CONTROL: GO in bit 0, else CLEAR in bit 1, else nothing (R23, R30, R32). -/
def writeControl (u : UnitId) (v : Reg32) (s : State) : State :=
  if v.getLsbD 0 then acceptGo u s else if v.getLsbD 1 then clearCommand u s else s

/-- A write of one of a unit's registers (R22 to R26). -/
def writeUnitReg (s : State) (u : UnitId) (r : RegName) (v : Reg32) : State :=
  match u, r with
  | u, .control => writeControl u v s
  | .dec, .config => { s with decStrict := v.getLsbD 0 }
  | .enc, r => { s with enc := { s.enc with args := s.enc.args.write r v } }
  | .dec, r => { s with dec := { s.dec with args := s.dec.args.write r v } }

/-- The host's write of a register: no effect at a reserved offset (R22), nor while reset is asserted,
when the registers hold their reset values (R124; log entry 9). -/
def writeReg (s : State) (off : Nat) (v : Reg32) : State :=
  if s.inReset then s
  else
    match regOf off with
    | some (u, r) => writeUnitReg s u r v
    | none => s

/-- Asserting reset: both units stop, every register takes its reset value, PM and LM are unchanged
(R36, R55, R124). -/
def assertReset (s : State) : State :=
  { s with enc := CodecUnit.reset, dec := CodecUnit.reset, decStrict := false, inReset := true }

/-- Releasing reset (R124). -/
def releaseReset (s : State) : State := { s with inReset := false }

/-- STATUS of a unit (R24). -/
def unitStatus (s : State) (u : UnitId) : Reg32 := readUnitReg s u .status

/-- BUSY of a unit (R24). -/
def unitBusy (s : State) : UnitId → Bool
  | .enc => s.enc.phase.busy
  | .dec => s.dec.phase.busy

end Sys2Proof.Machine
end

