-- ==== Sys2Proof/Machine/Runs.lean ====
section
/-! DEFINITION. The pixel-run instructions ZN, HN and PN (R93, R95, R99, R100), and how any instruction
reaches the running decode command. -/

namespace Sys2Proof.Machine

/-- An instruction's effect under the running decode command; DEC's working registers have no value
where none runs (R17, R92; log entry 2). -/
def inCommand (s : State) (f : DecLatch → DecWork → State) : Host.Outcome State Fault Refusal :=
  match s.dec.phase with
  | .running k w => .next (f k w)
  | .idle => .refused .noDecodeCommand
  | .done => .refused .noDecodeCommand
  | .faulted _ => .refused .noDecodeCommand
  | .accepted _ => .refused .noDecodeCommand

/-- The working registers after a pixel run: `D.op + max(n, 0)`, `x2 + 1`, `D.ip + 1` (R95, R99, R100). -/
def DecWork.afterRun (w : DecWork) (sp : RunSpan) : DecWork :=
  { w with
    op := BitVec.ofNat 32 (w.op.toNat + sp.n.toNat)
    x1 := (sp.x2 + 1).toNat
    ip := w.ip + 1 }

/-- A run of `d` pixels of value `v` (R93, R95, R99). -/
def runPixels (k : DecLatch) (w : DecWork) (d : BitVec 12) (v : Pixel) (s : State) : State :=
  let sp := spanOf k.args.start w d
  match storeRun k.args v sp.n.toNat w.op.toNat s.pm with
  | .ok pm => s.decGoOn k (w.afterRun sp) pm
  | .bounds i pm => raiseFault .dec .dstBounds i { s with pm := pm }

/-- A run of `d` positions, all zeros but the last, which takes the high value where it lies in the
window (R93, R100; C3). -/
def runZerosThenHigh (k : DecLatch) (w : DecWork) (d : BitVec 12) (s : State) : State :=
  let sp := spanOf k.args.start w d
  match storeRun k.args 0 sp.n.toNat w.op.toNat s.pm with
  | .bounds i pm => raiseFault .dec .dstBounds i { s with pm := pm }
  | .ok pm =>
    if 0 < sp.n ∧ sp.i2 = sp.x2 then
      match decDstWrite k.args pm (w.op.toNat + sp.n - 1) w.high with
      | none => raiseFault .dec .dstBounds (w.op.toNat + sp.n - 1) { s with pm := pm }
      | some pm' => s.decGoOn k (w.afterRun sp) pm'
    else s.decGoOn k (w.afterRun sp) pm

/-- ZN, zero-run: `d` zero pixels (R95). -/
def execZn (d : BitVec 12) (s : State) : Host.Outcome State Fault Refusal :=
  inCommand s fun k w => runPixels k w d 0 s

/-- HN, high-run: `d` pixels at the high value (R99). -/
def execHn (d : BitVec 12) (s : State) : Host.Outcome State Fault Refusal :=
  inCommand s fun k w => runPixels k w d w.high s

/-- PN, zero-run plus one high pixel (R100). -/
def execPn (d : BitVec 12) (s : State) : Host.Outcome State Fault Refusal :=
  inCommand s fun k w => runZerosThenHigh k w d s

end Sys2Proof.Machine
end

