-- ==== Sys2Proof/Machine/HighValue.lean ====
section
/-! DEFINITION. The instructions that change the high value and write no pixel: SH, IH, DH (R94, R96 to
R98). -/

namespace Sys2Proof.Machine

/-- A change of the high value to `t`, exact: Fault(HIGH_OVERFLOW, D.ip) before any state changes where
`t` leaves the 32-bit signed range (R94), else `f` with the changed registers. -/
def changeHigh (w : DecWork) (t : Int) (s : State) (f : DecWork → State) : State :=
  if fitsInt32 t then f { w with high := int32 t }
  else raiseFault .dec .highOverflow w.ip.toInt s

/-- SH, set-high (R96): TRUNCATED in strict mode where the second word is at or beyond D.L, SRC_BOUNDS
where it is outside the source buffer, else the high value; both words are consumed. `w1` is the word
`SrcRead(D.ip + 1)` reads. -/
def execSh (d : BitVec 12) (w1 : Word16) (s : State) : Host.Outcome State Fault Refusal :=
  inCommand s fun k w =>
    if k.strict ∧ w.L.toInt ≤ w.ip.toInt + 1 then raiseFault .dec .truncated w.ip.toInt s
    else if inBuffer k.args.srcLen (w.ip.toInt + 1) then
      s.decGoOn k { w with high := int32 (shValue d w1), ip := w.ip + 2 } s.pm
    else raiseFault .dec .srcBounds (w.ip.toInt + 1) s

/-- IH, inc-high (R97). -/
def execIh (d : BitVec 12) (s : State) : Host.Outcome State Fault Refusal :=
  inCommand s fun k w =>
    changeHigh w (w.high.toInt + d.toNat) s fun w' => s.decGoOn k { w' with ip := w.ip + 1 } s.pm

/-- DH, dec-high (R98). -/
def execDh (d : BitVec 12) (s : State) : Host.Outcome State Fault Refusal :=
  inCommand s fun k w =>
    changeHigh w (w.high.toInt - d.toNat) s fun w' => s.decGoOn k { w' with ip := w.ip + 1 } s.pm

end Sys2Proof.Machine
end

