-- ==== Sys2Proof/Machine/Reserved.lean ====
section
/-! DEFINITION. The reserved opcodes 8..15 (R72, R103). -/

namespace Sys2Proof.Machine

/-- RESERVED (R103): Fault(BAD_OPCODE, D.ip) in strict mode, else a one-word no-op; its fields have no
effect. -/
def execReserved (_op : BitVec 4) (_x : BitVec 12) (s : State) : Host.Outcome State Fault Refusal :=
  inCommand s fun k w =>
    if k.strict then raiseFault .dec .badOpcode w.ip.toInt s
    else s.decGoOn k { w with ip := w.ip + 1 } s.pm

end Sys2Proof.Machine
end

