-- ==== Sys2Proof/Machine/Stores.lean ====
section
/-! DEFINITION. The instructions that change the high value and store one pixel: IS, DS (R94, R101,
R102). -/

namespace Sys2Proof.Machine

/-- One pixel at the high value: written where D.x1 lies in the window, and one position advanced
(R101, R102). -/
def emitPixel (k : DecLatch) (w : DecWork) (s : State) : State :=
  let w' := { w with x1 := w.x1 + 1, ip := w.ip + 1 }
  if inWindow k.args.start w then
    match decDstWrite k.args s.pm w.op.toNat w.high with
    | none => raiseFault .dec .dstBounds w.op.toNat s
    | some pm => s.decGoOn k { w' with op := w.op + 1 } pm
  else s.decGoOn k w' s.pm

/-- IS, inc-high and store (R101). -/
def execIs (d : BitVec 12) (s : State) : Host.Outcome State Fault Refusal :=
  inCommand s fun k w => changeHigh w (w.high.toInt + d.toNat) s fun w' => emitPixel k w' s

/-- DS, dec-high and store (R102). -/
def execDs (d : BitVec 12) (s : State) : Host.Outcome State Fault Refusal :=
  inCommand s fun k w => changeHigh w (w.high.toInt - d.toNat) s fun w' => emitPixel k w' s

end Sys2Proof.Machine
end

