-- ==== Sys2Proof/Machine/Dispatch.lean ====
section
/-! DEFINITION. One arm per instruction (R92). -/

namespace Sys2Proof.Machine

def exec (i : Instr) (s : State) : Host.Outcome State Fault Refusal :=
  match i with
  | .zn d => Sys2Proof.Machine.execZn d s
  | .sh d w => Sys2Proof.Machine.execSh d w s
  | .ih d => Sys2Proof.Machine.execIh d s
  | .dh d => Sys2Proof.Machine.execDh d s
  | .hn d => Sys2Proof.Machine.execHn d s
  | .pn d => Sys2Proof.Machine.execPn d s
  | .is d => Sys2Proof.Machine.execIs d s
  | .ds d => Sys2Proof.Machine.execDs d s
  | .reserved op x => Sys2Proof.Machine.execReserved op x s

end Sys2Proof.Machine
end

