-- ==== Sys2Proof/Machine/DecoderUnit.lean ====
section
/-! DEFINITION. The decoder unit DEC (41_decoder.md): start step with the header parse, the loop's
choice, fetch and dispatch, fill step. -/

namespace Sys2Proof.Machine

/-- The header as the start step reads it (R59, R60, R90): elements 2, then 1, 3, 4 of a current header;
the element whose read fails (R42, R113). -/
def readHeader (a : Args) (lm : Memory) : Except Int Header :=
  match decSrcRead a lm 2 with
  | none => .error 2
  | some w2 =>
    if 0 < sext16 w2 then .ok { fmt := .legacy, version := sext16 w2, hl := 0, lo := 0, hi := 0 }
    else
      match decSrcRead a lm 1 with
      | none => .error 1
      | some w1 =>
        match decSrcRead a lm 3 with
        | none => .error 3
        | some w3 =>
          match decSrcRead a lm 4 with
          | none => .error 4
          | some w4 =>
            .ok { fmt := .current, version := sext16 w2, hl := sext16 w1, lo := sext16 w3,
                  hi := sext16 w4 }

/-- The working registers a command starts from (R90). -/
def DecWork.initial (a : Args) (h : Header) : DecWork where
  ip := int32 h.dataStart
  L := int32 h.length
  xe := a.start.toNat + a.count.toNat - 1
  x1 := 0
  op := 0
  high := initialHigh

/-- The start step from the strict header checks on (R90, R105), in the order of R113. -/
def decStartChecked (k : DecLatch) (h : Header) (s : State) : State :=
  match if k.strict then h.strictHeader else none with
  | some e => raiseFault .dec .badHeader e s
  | none =>
    if h.length ≤ 0 then completeCommand .dec 0 s
    else
      match if k.strict then h.strictLength k.args.srcLen else none with
      | some e => raiseFault .dec .badHeader e s
      | none =>
        if k.args.dstLen.toNat < k.args.count.toNat then
          raiseFault .dec .dstBounds k.args.dstLen.toNat s
        else s.decGoOn k (DecWork.initial k.args h) s.pm

/-- The start step (R90). -/
def decStart (k : DecLatch) (s : State) : State :=
  if k.args.count = 0 then completeCommand .dec 0 s
  else if !k.args.mapped s.lmWords s.pmWords then raiseFault .dec .map 0 s
  else
    match readHeader k.args s.lm with
    | .error e => raiseFault .dec .srcBounds e s
    | .ok h => decStartChecked k h s

/-- Whether the loop has ended, so that the step is the fill step (R91). -/
def loopEnded (w : DecWork) : Bool := decide (w.L.toInt ≤ w.ip.toInt) || decide (w.xe < w.x1)

/-- The fill step (R104). -/
def decFill (k : DecLatch) (w : DecWork) (s : State) : State :=
  match storeRun k.args 0 (k.args.count.toNat - w.op.toNat) w.op.toNat s.pm with
  | .bounds i pm => raiseFault .dec .dstBounds i { s with pm := pm }
  | .ok pm => completeCommand .dec k.args.count { s with pm := pm }

/-- The instruction at D.ip (R92): none where `SrcRead(D.ip)` raises SRC_BOUNDS. The word after it is read
for set-high; outside the source buffer it is 0 here, which no meaning uses, since SH raises its fault
there first (R96; log entry 13). -/
def fetch (k : DecLatch) (w : DecWork) (lm : Memory) : Option Instr :=
  (decSrcRead k.args lm w.ip.toInt).map fun w0 =>
    decodeWords w0 ((decSrcRead k.args lm (w.ip.toInt + 1)).getD 0)

/-- A step of the running decode command (R91, R92). -/
def decRun (k : DecLatch) (w : DecWork) (s : State) : Host.Outcome State Fault Refusal :=
  if loopEnded w then .next (decFill k w s)
  else
    match fetch k w s.lm with
    | none => .next (raiseFault .dec .srcBounds w.ip.toInt s)
    | some i => exec i s

/-- One step of DEC: a unit with no command takes no step and changes nothing (R123). -/
def decStep (s : State) : Host.Outcome State Fault Refusal :=
  match s.dec.phase with
  | .idle => .next s
  | .done => .next s
  | .faulted _ => .next s
  | .accepted k => .next (decStart k s)
  | .running k w => decRun k w s

/-- Whether DEC's next step fetches an instruction. -/
def fetches (k : DecLatch) (w : DecWork) : Bool :=
  !loopEnded w && inBuffer k.args.srcLen w.ip.toInt

/-- The decode command `placeAtFetch` starts where none can fetch: a nine-word line list at LM address 0
whose first instruction word is element 7, with a window of one pixel at PM address 0 (log entry 11). -/
def probeArgs : Args := { start := 0, count := 1, srcBase := 0, srcLen := 9, dstBase := 0, dstLen := 1 }

/-- Its working registers, those a start step over the header of that list sets (R90). -/
def probeWork : DecWork := { ip := 7, L := 9, xe := 0, x1 := 0, op := 0, high := initialHigh }

/-- Two instruction words stored where DEC fetches next, with a decode command running that fetches them
(log entry 11). -/
def placeAtFetch (s : State) (w0 w1 : Word16) : State :=
  let fresh : State :=
    { s with
      lm := lmWrite (lmWrite s.lm 7 w0) 8 w1
      dec := { s.dec with result := 0, finfo := 0,
                          phase := .running { args := probeArgs, strict := s.decStrict } probeWork } }
  match s.dec.phase with
  | .running k w =>
    if fetches k w then
      { s with lm := lmWrite (lmWrite s.lm (k.args.srcBase.toNat + w.ip.toInt.toNat) w0)
                 (k.args.srcBase.toNat + w.ip.toInt.toNat + 1) w1 }
    else fresh
  | .idle => fresh
  | .done => fresh
  | .faulted _ => fresh
  | .accepted _ => fresh

end Sys2Proof.Machine
end

