-- ==== Sys2Proof/Machine/Encoder.lean ====
section
/-! DEFINITION. The encoder unit ENC (40_encoder.md): start step, scan step, the emission procedures it
calls, finish step. -/

namespace Sys2Proof.Machine

/-- What a procedure of ENC answers inside one step: a value with LM and the working registers as they
are then, or a `raise` with LM as the writes before it left it (R114). -/
inductive EncRes (α : Type) where
  | ok (x : α) (lm : Memory) (w : EncWork)
  | raise (c : FaultCode) (info : Int) (lm : Memory)
  deriving DecidableEq, Repr

/-- The next statement of a procedure, where no `raise` came before it. -/
def EncRes.andThen {α β : Type} (r : EncRes α) (f : α → Memory → EncWork → EncRes β) : EncRes β :=
  match r with
  | .ok x lm w => f x lm w
  | .raise c info lm => .raise c info lm

/-- `Emit(w)` (R81). -/
def emit (a : Args) (x : Word16) (lm : Memory) (w : EncWork) : EncRes Unit :=
  match encDstWrite a lm w.op.toNat x with
  | none => .raise .dstBounds w.op.toNat lm
  | some lm' => .ok () lm' { w with op := w.op + 1 }

/-- `DstWrite(E.op - 1, x)`, the fusion rewrite of the word just emitted (R52, R82, R83). -/
def rewriteLast (a : Args) (x : Word16) (lm : Memory) (w : EncWork) : EncRes Unit :=
  match encDstWrite a lm ((w.op.toNat : Int) - 1) x with
  | none => .raise .dstBounds ((w.op.toNat : Int) - 1) lm
  | some lm' => .ok () lm' w

/-- `while n > 0: Emit(Pack(opc, min(cap, n))); n <- n - cap` (R83, R84); answers the data of the last
word emitted, 0 if none was. `fuel` bounds the iterations; `n` is enough. -/
def emitChunks (a : Args) (opc cap : Nat) : Nat → Nat → Nat → Memory → EncWork → EncRes Nat
  | 0, _, last, lm, w => .ok last lm w
  | fuel + 1, n, last, lm, w =>
    if n = 0 then .ok last lm w
    else
      (emit a (pack opc (min cap n)) lm w).andThen fun _ lm' w' =>
        emitChunks a opc cap fuel (n - cap) (min cap n) lm' w'

/-- The word EmitLevel emits for a change of at most DELTA_MAX: IH or DH (R82). -/
def deltaWord (dv : Int) : Word16 := if 0 < dv then pack 2 dv.natAbs else pack 3 dv.natAbs

/-- `EmitLevel(np, nz)` (R82); answers whether the nonzero run was fused away. -/
def emitLevel (a : Args) (np nz : Int) (lm : Memory) (w : EncWork) : EncRes Bool :=
  let dv := w.pv.toInt - w.hi.toInt
  if dv = 0 then .ok false lm w
  else if deltaMax < dv.natAbs then
    if (maxShValue : Int) < w.pv.toInt then .raise .valueRange w.x1.toNat lm
    else
      (emit a (pack 1 (w.pv.toNat % shWeight)) lm { w with hi := w.pv }).andThen fun _ lm₁ w₁ =>
        (emit a (bits16 (w.pv.toNat / shWeight : Nat)) lm₁ w₁).andThen fun _ lm₂ w₂ =>
          .ok false lm₂ w₂
  else
    (emit a (deltaWord dv) lm { w with hi := w.pv }).andThen fun _ lm₁ w₁ =>
      if np = 1 ∧ nz = 0 then
        (rewriteLast a (deltaWord dv ||| 0x4000) lm₁ w₁).andThen fun _ lm₂ w₂ => .ok true lm₂ w₂
      else .ok false lm₁ w₁

/-- `EmitZeros(nz, np)` (R83); answers whether the nonzero run was fused away. -/
def emitZeros (a : Args) (nz np : Int) (lm : Memory) (w : EncWork) : EncRes Bool :=
  (emitChunks a 0 znCap nz.toNat nz.toNat 0 lm w).andThen fun d lm₁ w₁ =>
    if np = 1 ∧ 0 < w.pv.toInt then
      (rewriteLast a (pack 5 (d + 1)) lm₁ w₁).andThen fun _ lm₂ w₂ => .ok true lm₂ w₂
    else .ok false lm₁ w₁

/-- `EmitHighs(np)` (R84). -/
def emitHighs (a : Args) (np : Int) (lm : Memory) (w : EncWork) : EncRes Unit :=
  (emitChunks a 4 hnCap np.toNat np.toNat 0 lm w).andThen fun _ lm₁ w₁ => .ok () lm₁ w₁

/-- The registers once a segment is flushed at `ip`: the next one starts at `ip + 1` (R80). -/
def EncWork.nextSegment (w : EncWork) (ip : BitVec 33) : EncWork :=
  { w with x1 := ip + 1, iz := ip + 1, pv := w.nv }

/-- `Flush(ip)` (R80). -/
def flush (a : Args) (ip : BitVec 33) (lm : Memory) (w : EncWork) : EncRes Unit :=
  let np : Int := (ip.toNat : Int) - w.x1.toNat + 1
  let nz : Int := (w.x1.toNat : Int) - w.iz.toNat
  (if 0 < w.pv.toInt then emitLevel a np nz lm w else .ok false lm w).andThen fun byLevel lm₁ w₁ =>
    (if byLevel = false ∧ 0 < nz then emitZeros a nz np lm₁ w₁
      else .ok byLevel lm₁ w₁).andThen fun handled lm₂ w₂ =>
        (if handled then .ok () lm₂ w₂ else emitHighs a np lm₂ w₂).andThen fun _ lm₃ w₃ =>
          .ok () lm₃ (w₃.nextSegment ip)

/-- NEXT of the scan step: `E.ip <- ip + 1` (R79). -/
def EncWork.nextPixel (w : EncWork) : EncWork := { w with ip := w.ip + 1 }

/-- The end of a step of ENC: it goes on, or the command ends on a fault (R114). -/
def encEndStep (a : Args) (s : State) : EncRes Unit → State
  | .ok _ lm w => s.encGoOn a w.nextPixel lm
  | .raise c info lm => raiseFault .enc c info { s with lm := lm }

/-- The scan step (R79). -/
def encScan (a : Args) (w : EncWork) (s : State) : State :=
  if w.ip.toNat < w.xe.toNat then
    match encSrcRead a s.pm (w.ip.toNat + 1) with
    | none => raiseFault .enc .srcBounds (w.ip.toNat + 1) s
    | some p =>
      let w₁ := { w with nv := clamp p }
      if w₁.nv = w₁.pv then s.encGoOn a w₁.nextPixel s.lm
      else if w₁.pv = 0 then
        s.encGoOn a { w₁ with pv := w₁.nv, x1 := w.ip + 1 }.nextPixel s.lm
      else encEndStep a s (flush a w.ip s.lm w₁)
  else
    let w₁ := if w.pv = 0 then { w with x1 := w.xe + 1 } else w
    encEndStep a s (flush a w.ip s.lm w₁)

/-- The header words the start step writes: elements 0, 1, 2, 5, 6 (R57, R78; D7, D33). -/
def startHeader : List (Int × Word16) :=
  [(0, bits16 0), (1, bits16 headerLen), (2, bits16 versionTag), (5, bits16 0), (6, bits16 0)]

/-- A list of destination writes of ENC, in order; at a failing one, LM so far and its index (R43, R114). -/
def encWriteAll (a : Args) : List (Int × Word16) → Memory → Except (Int × Memory) Memory
  | [], lm => .ok lm
  | (i, v) :: rest, lm =>
    match encDstWrite a lm i v with
    | none => .error (i, lm)
    | some lm' => encWriteAll a rest lm'

/-- The working registers a command starts from (R78), where `pv` is the first pixel, clamped. -/
def EncWork.initial (a : Args) (pv : Pixel) : EncWork where
  ip := BitVec.ofNat 33 a.start.toNat
  xe := BitVec.ofNat 33 (a.start.toNat + a.count.toNat - 1)
  x1 := BitVec.ofNat 33 a.start.toNat
  iz := BitVec.ofNat 33 a.start.toNat
  pv := pv
  nv := 0
  hi := initialHigh
  op := BitVec.ofNat 32 headerLen

/-- The start step (R78), its checks in the order of R113. -/
def encStart (a : Args) (s : State) : State :=
  if a.count = 0 then completeCommand .enc 0 s
  else if !a.mapped s.pmWords s.lmWords then raiseFault .enc .map 0 s
  else if a.srcLen.toNat < a.start.toNat + a.count.toNat then
    raiseFault .enc .srcBounds (max a.start.toNat a.srcLen.toNat) s
  else if a.dstLen.toNat < headerLen then raiseFault .enc .dstBounds a.dstLen.toNat s
  else
    match encWriteAll a startHeader s.lm with
    | .error (i, lm) => raiseFault .enc .dstBounds i { s with lm := lm }
    | .ok lm =>
      match encSrcRead a s.pm a.start.toNat with
      | none => raiseFault .enc .srcBounds a.start.toNat { s with lm := lm }
      | some p => s.encGoOn a (EncWork.initial a (clamp p)) lm

/-- The finish step (R85). -/
def encFinish (a : Args) (w : EncWork) (s : State) : State :=
  let len := w.op.toNat
  if maxLen < len then raiseFault .enc .lengthRange len s
  else
    match encWriteAll a [(3, bits16 (len % lenSplit : Nat)), (4, bits16 (len / lenSplit : Nat))] s.lm with
    | .error (i, lm) => raiseFault .enc .dstBounds i { s with lm := lm }
    | .ok lm => completeCommand .enc w.op { s with lm := lm }

/-- One step of ENC (R10, R79, R85): a unit with no command takes no step and changes nothing (R123). -/
def encStep (s : State) : State :=
  match s.enc.phase with
  | .idle => s
  | .done => s
  | .faulted _ => s
  | .accepted a => encStart a s
  | .running a w => if w.ip.toNat ≤ w.xe.toNat then encScan a w s else encFinish a w s

end Sys2Proof.Machine
end

