-- ==== Sys2Proof/Machine/HostPort.lean ====
section
/-! DEFINITION. The host's steps (R12, R22, R37, R112, R124, R126), and the two platform parameters of
its port (R44, R120). -/

namespace Sys2Proof.Machine

/-- The host keeps what a read returned (log entry 6). -/
def State.saw (s : State) (v : Reg32) : State := { s with hostSaw := v :: s.hostSaw }

/-- One host action, as one step (R22, R37, R46, R118). A word that does not exist faults (log entry 7). -/
def hostAct (op : HostOp) (s : State) : Host.Outcome State Fault Refusal :=
  match op with
  | .readReg off => .next (s.saw (readReg s off))
  | .writeReg off v => .next (writeReg s off v)
  | .readPm a => if a < s.pmWords then .next (s.saw (pmRead s.pm a)) else .fault .absentPmWord
  | .writePm a v =>
    if a < s.pmWords then .next { s with pm := pmWrite s.pm a v } else .fault .absentPmWord
  | .readLm a =>
    if a < s.lmWords then .next (s.saw ((lmRead s.lm a).setWidth 32)) else .fault .absentLmWord
  | .writeLm a v =>
    if a < s.lmWords then .next { s with lm := lmWrite s.lm a v } else .fault .absentLmWord
  | .pollStatus u =>
    let s' := s.saw (unitStatus s u)
    .next (if unitBusy s u then { s' with hostOps := .pollStatus u :: s'.hostOps } else s')
  | .assertReset => .next (assertReset s)
  | .releaseReset => .next (releaseReset s)

/-- One step of the host: its next action, or none where it has none to make. A poll that reads BUSY = 1
is made again (R112, R126). -/
def hostStep (s : State) : Host.Outcome State Fault Refusal :=
  match s.hostOps with
  | [] => .next s
  | op :: rest => hostAct op { s with hostOps := rest }

/-- The register-space offset of a host address, where the register space sits at CORE_BASE (R21, R120;
log entry 14); none below it. -/
def hostRegOffset (addr : Nat) : Option Nat :=
  if Config.coreBase ≤ addr then some (addr - Config.coreBase) else none

/-- Byte `j` (0 or 1) of LM word `a` in the host's byte-addressed view, as HOST_BYTE_ORDER lays it out
(R44; log entry 14). -/
def hostLmByte (m : Memory) (a j : Nat) : BitVec 8 :=
  (lmRead m a).extractLsb' (8 * (if Config.hostBigEndian then 1 - j else j)) 8

/-- Byte `j` (0 to 3) of PM word `a` in the host's byte-addressed view, as HOST_BYTE_ORDER lays it out
(R44; log entry 14). -/
def hostPmByte (m : Memory) (a j : Nat) : BitVec 8 :=
  (pmRead m a).extractLsb' (8 * (if Config.hostBigEndian then 3 - j else j)) 8

end Sys2Proof.Machine
end

