-- ==== Sys2Proof/Machine/Schedule.lean ====
section
/-! DEFINITION. The interleaving of the agents' steps (R10, R49, R124), weakly fair to the units (R133). -/

namespace Sys2Proof.Machine

/-- The `n`-th stretch of the schedule that is drawn: any agents, then ENC, any agents again, then DEC. So
every unit gets its turn again and again, as weak fairness asks of a BUSY one (R133, U15), and every
interleaving that gives both units their turns is made of such stretches (R49; log entries 1, 12). -/
def drawnSchedule (n : Nat) : List Agent :=
  (Config.pick n).1 ++ .enc :: ((Config.pick n).2 ++ [.dec])

/-- Which agent moves (R49): the schedule's next, else the first of a new stretch, which is never empty
(log entry 1). -/
def nextAgent (s : State) : Agent :=
  match s.sched with
  | [] => (drawnSchedule s.draws).headD .enc
  | a :: _ => a

/-- The state once the choice of the agent is made. -/
def afterChoice (s : State) : State :=
  match s.sched with
  | [] => { s with sched := (drawnSchedule s.draws).tail, draws := s.draws + 1 }
  | _ :: rest => { s with sched := rest }

/-- One step of an agent; while reset is asserted no unit takes a step (R124). -/
def agentStep (g : Agent) (s : State) : Host.Outcome State Fault Refusal :=
  match g with
  | .host => hostStep s
  | .enc => .next (if s.inReset then s else encStep s)
  | .dec => if s.inReset then .next s else decStep s

/-- A state whose next step is DEC's, with reset released. -/
def decNext (s : State) : State := { s with sched := .dec :: s.sched, inReset := false }

end Sys2Proof.Machine
end

