-- ==== Sys2Proof/Machine/Step.lean ====
section
/-! DEFINITION. One step of the machine (R10, R49), and placing an instruction where it fetches. -/

namespace Sys2Proof.Machine

/-- One atomic step of one agent (R10, R49). -/
def step (s : State) : Host.Outcome State Fault Refusal :=
  agentStep (nextAgent s) (afterChoice s)

/-- The state with the opcode table's instruction `w` where the very next step fetches it (log entry 11). -/
def State.withFetchWord (s : State) (nbits w : Nat) : State :=
  decNext (placeAtFetch s (tableWords nbits w).1 (tableWords nbits w).2)

end Sys2Proof.Machine
end

