-- ==== Sys2Proof/Machine/Assembler.lean ====
section
/-! DEFINITION. The spec's assembler (R73 to R75): lines, their text, the words they place, and the
pseudo-instructions' expansions. No rule of the hardware depends on it (30_encoding.md section 4). -/

namespace Sys2Proof.Machine

/-- A line of assembly (R74, R75). -/
inductive AsmLine where
  /-- ZN, IH, DH, HN, PN, IS or DS with its opcode and data value (R73, R74). -/
  | plain (opc n : Nat)
  /-- `SH v` (R74). -/
  | setHigh (v : Nat)
  /-- `SH d, w`: the raw form (R74). -/
  | setHighRaw (d w : Nat)
  /-- `.word w` (R74). -/
  | word (w : Nat)
  /-- `.header L` (R74). -/
  | header (len : Nat)
  /-- `.legacy L, b` (R74). -/
  | legacy (len b : Nat)
  /-- `ZEROS n` (R75). -/
  | zeros (n : Nat)
  /-- `HIGHS n` (R75). -/
  | highs (n : Nat)
  /-- `ZEROSH n` (R75). -/
  | zerosHigh (n : Nat)
  /-- `LEVEL v` (R75). -/
  | level (v : Nat)
  /-- `LEVELS v` (R75). -/
  | levels (v : Nat)
  deriving DecidableEq, Repr

/-- `while n > 0: <opc> min(cap, n); n <- n - cap` (R75); `fuel` bounds the iterations, `n` is enough. -/
def chunkWords (opc cap : Nat) : Nat → Nat → List Word16
  | 0, _ => []
  | fuel + 1, n => if n = 0 then [] else pack opc (min cap n) :: chunkWords opc cap fuel (n - cap)

/-- `ZEROS n` (R75). -/
def zerosWords (n : Nat) : List Word16 := chunkWords 0 znCap n n

/-- `HIGHS n` (R75). -/
def highsWords (n : Nat) : List Word16 := chunkWords 4 hnCap n n

/-- The data of the last word of `ZEROS n`, for n >= 1 (R75, R83). -/
def lastZeros (n : Nat) : Nat := (n - 1) % znCap + 1

/-- `ZEROSH n`: the last word `ZN d` of `ZEROS n` becomes `PN d+1` (R75). -/
def zerosHighWords (n : Nat) : List Word16 := (zerosWords n).dropLast ++ [pack 5 (lastZeros n + 1)]

/-- The set-high pair of a value (R69). -/
def setHighWords (v : Nat) : List Word16 := [pack 1 (v % shWeight), bits16 (v / shWeight : Nat)]

/-- `LEVEL v` at the tracked high value `h` (R75); none where it needs a set-high above MAX_SH_VALUE. -/
def levelWords (h : Int) (v : Nat) : Option (List Word16) :=
  let dv := (v : Int) - h
  if dv = 0 then some []
  else if deltaMax < dv.natAbs then if maxShValue < v then none else some (setHighWords v)
  else if 0 < dv then some [pack 2 dv.natAbs]
  else some [pack 3 dv.natAbs]

/-- `LEVELS v` at the tracked high value `h` (R75). -/
def levelsWords (h : Int) (v : Nat) : Option (List Word16) :=
  let dv := (v : Int) - h
  if dv ≠ 0 ∧ dv.natAbs ≤ deltaMax then
    some [if 0 < dv then pack 6 dv.natAbs else pack 7 dv.natAbs]
  else (levelWords h v).map fun l => l ++ highsWords 1

/-- The tracked high value after a plain instruction, as the decoder changes it (R75, R94). DESIGN CHOICE
(log entry 21): it is an unbounded integer, so where the result leaves the 32-bit signed range, at which
the decoder would fault HIGH_OVERFLOW and R75 gives the assembler no value, the model goes on with the sum. -/
def plainHigh (opc n : Nat) (h : Int) : Int :=
  if opc = 2 ∨ opc = 6 then h + n else if opc = 3 ∨ opc = 7 then h - n else h

/-- The words of a line and the tracked high value after it; none where an operand is out of the range
R74 and R75 give it. -/
def assembleLine (h : Int) : AsmLine → Option (List Word16 × Int)
  | .plain opc n =>
    if opc < 8 ∧ opc ≠ 1 ∧ n < shWeight then some ([pack opc n], plainHigh opc n h) else none
  | .setHigh v => if v ≤ maxShValue then some (setHighWords v, v) else none
  | .setHighRaw d w =>
    if d < shWeight ∧ w < 65536 then
      some ([pack 1 d, bits16 w], shValue (BitVec.ofNat 12 d) (bits16 w))
    else none
  | .word w => if w < 65536 then some ([bits16 w], h) else none
  | .header len => if len ≤ maxLen then some (currentHeader len, initialHigh.toInt) else none
  | .legacy len b =>
    if 0 < len ∧ len < lenSplit ∧ b < 65536 then
      some ([bits16 0, bits16 b, bits16 len], initialHigh.toInt)
    else none
  | .zeros n => if 0 < n then some (zerosWords n, h) else none
  | .highs n => if 0 < n then some (highsWords n, h) else none
  | .zerosHigh n => if 0 < n then some (zerosHighWords n, h) else none
  | .level v => if 0 < v then (levelWords h v).map fun l => (l, (v : Int)) else none
  | .levels v => if 0 < v then (levelsWords h v).map fun l => (l, (v : Int)) else none

/-- The words of a list of lines (R74). -/
def assembleFrom (h : Int) : List AsmLine → Option (List Word16)
  | [] => some []
  | l :: rest =>
    match assembleLine h l with
    | none => none
    | some (ws, h') => (assembleFrom h' rest).map fun ws' => ws ++ ws'

/-- The words of an assembly text already read as lines; h starts at INITIAL_HIGH (R75). -/
def assemble (ls : List AsmLine) : Option (List Word16) := assembleFrom initialHigh.toInt ls

/-! ### The text of a line (R74) -/

/-- A line without its comment: `;` starts one (R74). -/
def dropComment : List Char → List Char
  | [] => []
  | c :: rest => if c = ';' then [] else c :: dropComment rest

/-- Whether a character separates the parts of a line. -/
def isBlank (c : Char) : Bool := c = ' ' || c = '\t'

/-- The parts of a line: runs of characters between blanks, a comma being a part of its own. `cur` holds
the current part's characters, last first. -/
def lineParts (cur : List Char) : List Char → List (List Char)
  | [] => if cur = [] then [] else [cur.reverse]
  | c :: rest =>
    if isBlank c then (if cur = [] then [] else [cur.reverse]) ++ lineParts [] rest
    else if c = ',' then (if cur = [] then [] else [cur.reverse]) ++ [','] :: lineParts [] rest
    else lineParts (c :: cur) rest

/-- The value of a digit in a base of at most 16. -/
def digitOf (c : Char) : Option Nat :=
  let n := c.toNat
  if 48 ≤ n ∧ n ≤ 57 then some (n - 48)
  else if 97 ≤ n ∧ n ≤ 102 then some (n - 87)
  else if 65 ≤ n ∧ n ≤ 70 then some (n - 55)
  else none

/-- A number in a base, after the value `acc` of the digits before. -/
def digitsFrom (base acc : Nat) : List Char → Option Nat
  | [] => some acc
  | c :: rest =>
    match digitOf c with
    | none => none
    | some v => if v < base then digitsFrom base (acc * base + v) rest else none

/-- A decimal or `0x` hexadecimal number (R74). -/
def numberOf : List Char → Option Nat
  | [] => none
  | ['0', 'x'] => none
  | '0' :: 'x' :: rest => digitsFrom 16 0 rest
  | cs => digitsFrom 10 0 cs

/-- The line a mnemonic with one operand makes (R73 to R75). -/
def lineOf1 (m : List Char) (n : Nat) : Option AsmLine :=
  if m = ['Z', 'N'] then some (.plain 0 n)
  else if m = ['S', 'H'] then some (.setHigh n)
  else if m = ['I', 'H'] then some (.plain 2 n)
  else if m = ['D', 'H'] then some (.plain 3 n)
  else if m = ['H', 'N'] then some (.plain 4 n)
  else if m = ['P', 'N'] then some (.plain 5 n)
  else if m = ['I', 'S'] then some (.plain 6 n)
  else if m = ['D', 'S'] then some (.plain 7 n)
  else if m = ['.', 'w', 'o', 'r', 'd'] then some (.word n)
  else if m = ['.', 'h', 'e', 'a', 'd', 'e', 'r'] then some (.header n)
  else if m = ['Z', 'E', 'R', 'O', 'S'] then some (.zeros n)
  else if m = ['H', 'I', 'G', 'H', 'S'] then some (.highs n)
  else if m = ['Z', 'E', 'R', 'O', 'S', 'H'] then some (.zerosHigh n)
  else if m = ['L', 'E', 'V', 'E', 'L'] then some (.level n)
  else if m = ['L', 'E', 'V', 'E', 'L', 'S'] then some (.levels n)
  else none

/-- The line a mnemonic with two operands makes (R74). -/
def lineOf2 (m : List Char) (x y : Nat) : Option AsmLine :=
  if m = ['S', 'H'] then some (.setHighRaw x y)
  else if m = ['.', 'l', 'e', 'g', 'a', 'c', 'y'] then some (.legacy x y)
  else none

/-- A line's text read as a line (R74): none for text of another form; `some none` for a line with no
instruction. -/
def parseLine (text : List Char) : Option (Option AsmLine) :=
  match lineParts [] (dropComment text) with
  | [] => some none
  | [m, x] => ((numberOf x).bind (lineOf1 m)).map some
  | [m, x, [','], y] => ((numberOf x).bind fun a => (numberOf y).bind (lineOf2 m a)).map some
  | _ => none

end Sys2Proof.Machine
end

