-- ==== Sys2Proof/Safety.lean ====
section
/-! DEFINITION. What counts as a safe run, in the terms the statements use: the invariants the spec's
rules give the state, the windows and buffers an instruction may write, and the words of a segment. -/

namespace Sys2Proof.Machine

/-! ### What a step answers -/

/-- The next state of an outcome, if it is one. -/
def nextState (o : Host.Outcome State Fault Refusal) : Option State :=
  match o with
  | .next s => some s
  | .fault _ => none
  | .refused _ => none

/-- `n` steps of ENC alone (R10, R49: between them no other agent moves). -/
def encSteps : Nat → State → State
  | 0, s => s
  | n + 1, s => encSteps n (encStep s)

/-- `n` steps of DEC alone, while each answers a next state. -/
def decSteps : Nat → State → Option State
  | 0, s => some s
  | n + 1, s => (nextState (decStep s)).bind (decSteps n)

/-! ### Executions -/

/-- An execution: each state's step answers the next one (R49). -/
def IsRun (r : Nat → State) : Prop := ∀ n, step (r n) = .next (r (n + 1))

/-- The agent a unit is (R12). -/
def UnitId.agent : UnitId → Agent
  | .enc => .enc
  | .dec => .dec

/-! ### Memories -/

/-- Whether every listed byte address is below `n`. -/
def Memory.below (n : Nat) (m : Memory) : Bool := m.cells.all fun c => decide (c.1 < n)

/-- Both memories are canonical (Memory.wf). -/
def MemoriesCanonical (s : State) : Prop := s.pm.wf = true ∧ s.lm.wf = true

/-- Every byte either memory lists belongs to a word that exists (R37). -/
def CellsExist (s : State) : Prop :=
  s.pm.below (4 * s.pmWords) = true ∧ s.lm.below (2 * s.lmWords) = true

/-! ### Host-visible registers -/

/-- What RESULT and FINFO hold in each phase (R27, R28, R114, R131): both 0 while BUSY, RESULT 0 when
FAULTED, FINFO 0 when IDLE or DONE. -/
def CodecUnit.RegsOk {κ ω : Type} (u : CodecUnit κ ω) : Prop :=
  match u.phase with
  | .idle => u.finfo = 0
  | .done => u.finfo = 0
  | .faulted _ => u.result = 0
  | .accepted _ => u.result = 0 ∧ u.finfo = 0
  | .running _ _ => u.result = 0 ∧ u.finfo = 0

/-- `CodecUnit.RegsOk` of both units. -/
def RegistersOk (s : State) : Prop := s.enc.RegsOk ∧ s.dec.RegsOk

/-- While reset is asserted every register holds its reset value and both units are IDLE (R124). -/
def ResetHolds (s : State) : Prop :=
  s.inReset = true → s.enc = CodecUnit.reset ∧ s.dec = CodecUnit.reset ∧ s.decStrict = false

/-! ### The running encode command -/

/-- What holds of ENC's working registers between the steps of a command (R78 to R85): the buffers lie
inside their memories and were checked, the scan indices stay ordered in the pixels of the command, the
cursor stays in the destination and within three words a flushed pixel (R86), and the pending values are
not negative. -/
structure EncWork.Ok (a : Args) (w : EncWork) (pmWords lmWords : Nat) : Prop where
  mapped : a.mapped pmWords lmWords = true
  count_pos : 0 < a.count.toNat
  src_fits : a.start.toNat + a.count.toNat ≤ a.srcLen.toNat
  header_fits : headerLen ≤ a.dstLen.toNat
  xe_eq : w.xe.toNat + 1 = a.start.toNat + a.count.toNat
  start_le_iz : a.start.toNat ≤ w.iz.toNat
  iz_le_x1 : w.iz.toNat ≤ w.x1.toNat
  x1_le_ip : w.x1.toNat ≤ w.ip.toNat
  ip_le : w.ip.toNat ≤ w.xe.toNat + 1
  zero_run : w.pv = 0 → w.x1 = w.iz
  op_ge : headerLen ≤ w.op.toNat
  op_le : w.op.toNat ≤ a.dstLen.toNat
  op_bound : w.op.toNat + 3 * a.start.toNat ≤ headerLen + 3 * w.iz.toNat
  hi_pos : 1 ≤ w.hi.toInt
  pv_nonneg : 0 ≤ w.pv.toInt
  nv_nonneg : 0 ≤ w.nv.toInt

/-- `EncWork.Ok` while an encode command runs. -/
def EncoderOk (s : State) : Prop :=
  match s.enc.phase with
  | .idle => True
  | .done => True
  | .faulted _ => True
  | .accepted _ => True
  | .running a w => w.Ok a s.pmWords s.lmWords

/-! ### The running decode command -/

/-- R106: `D.op = max(0, min(D.x1, D.xe + 1) - D.start)`, the cursor counts the window positions already
passed; with the window and destination of R90. -/
structure DecWork.CursorOk (a : Args) (w : DecWork) : Prop where
  count_pos : 0 < a.count.toNat
  dst_fits : a.count.toNat ≤ a.dstLen.toNat
  xe_eq : w.xe + 1 = a.start.toNat + a.count.toNat
  cursor : w.op.toNat = min w.x1 (w.xe + 1) - a.start.toNat

/-- What holds of DEC's working registers between the steps of a command (R90 to R106, R18): the buffers
lie inside their memories, the cursor is right, D.L and D.ip stay in their ranges so that D.ip never
wraps, D.x1 is less than 4096 positions past the window, so that 44 bits hold it (D17), and in strict
mode D.ip is not negative and D.L lies in the source buffer (R105: checks S2 and S4). -/
structure DecWork.Ok (k : DecLatch) (w : DecWork) (lmWords pmWords : Nat) : Prop where
  mapped : k.args.mapped lmWords pmWords = true
  cursorOk : w.CursorOk k.args
  len_pos : 0 < w.L.toInt
  len_le : w.L.toInt ≤ maxLen
  ip_ge : -32768 ≤ w.ip.toInt
  ip_le : w.ip.toInt ≤ max (w.L.toInt + 1) 32767
  x1_le : w.x1 ≤ w.xe + 4095
  strict_len : k.strict = true → 0 ≤ w.ip.toInt ∧ w.L.toInt ≤ k.args.srcLen.toNat

/-- `DecWork.Ok` while a decode command runs. -/
def DecoderOk (s : State) : Prop :=
  match s.dec.phase with
  | .idle => True
  | .done => True
  | .faulted _ => True
  | .accepted _ => True
  | .running k w => w.Ok k s.lmWords s.pmWords

/-! ### What a pixel-run instruction writes -/

/-- Whether logical position `p` is one a run of `d` pixels from D.x1 puts in the window (R89, R93). -/
def runCovers (a : Args) (w : DecWork) (d : BitVec 12) (p : Nat) : Prop :=
  w.x1 ≤ p ∧ p < w.x1 + d.toNat ∧ a.start.toNat ≤ p ∧ p ≤ w.xe

/-- The PM address of window position `p`: destination element `p - D.start` (R40, R89). -/
def windowAddr (a : Args) (p : Nat) : Nat := a.dstBase.toNat + (p - a.start.toNat)

/-- `pm'` is `pm` with `f p` at every window position `p` the run covers, and every other word of PM as
before. -/
def RunWritten (a : Args) (w : DecWork) (d : BitVec 12) (f : Nat → Pixel) (pm pm' : Memory) : Prop :=
  (∀ p, runCovers a w d p → pmRead pm' (windowAddr a p) = f p) ∧
    ∀ x, (∀ p, runCovers a w d p → x ≠ windowAddr a p) → pmRead pm' x = pmRead pm x

/-- The working registers after a run of `d` positions: D.x1 past the run, the cursor past its in-window
part (R95, R99, R100, R106), D.ip one word on. -/
def DecWork.pastRun (a : Args) (w : DecWork) (d : BitVec 12) : DecWork :=
  { w with
    x1 := w.x1 + d.toNat
    op := BitVec.ofNat 32 (min (w.x1 + d.toNat) (w.xe + 1) - a.start.toNat)
    ip := w.ip + 1 }

/-- Every word of PM outside a command's destination buffer reads the same in both memories (R39, R40). -/
def PmSameOutside (a : Args) (pm pm' : Memory) : Prop :=
  ∀ x, (x < a.dstBase.toNat ∨ a.dstBase.toNat + a.dstLen.toNat ≤ x) → pmRead pm' x = pmRead pm x

/-- Every word of LM outside a command's destination buffer reads the same in both memories (R39, R40). -/
def LmSameOutside (a : Args) (lm lm' : Memory) : Prop :=
  ∀ x, (x < a.dstBase.toNat ∨ a.dstBase.toNat + a.dstLen.toNat ≤ x) → lmRead lm' x = lmRead lm x

/-- Everything of the state but PM and DEC is the same: LM, ENC, DEC's CONFIG, the reset input, the
parameters, the host's actions and reads, and the schedule. -/
def SameButPmAndDec (s s' : State) : Prop :=
  s' = { s with pm := s'.pm, dec := s'.dec }

/-- Everything of the state but LM and ENC is the same. -/
def SameButLmAndEnc (s s' : State) : Prop :=
  s' = { s with lm := s'.lm, enc := s'.enc }

/-! ### What a flush of ENC writes -/

/-- ENC's step is the flush of the segment that ends at E.ip, from the registers `w`: then E.ip is one on,
or the flush's fault is taken with the words written before it in LM (R79, R80, R114). -/
def StepFlushes (a : Args) (w : EncWork) (s : State) : Prop :=
  (∀ lm' w', flush a w.ip s.lm w = .ok () lm' w' →
      encStep s = s.encGoOn a { w' with ip := w.ip + 1 } lm') ∧
    ∀ c info lm', flush a w.ip s.lm w = .raise c info lm' →
      encStep s = raiseFault .enc c info { s with lm := lm' }

/-- The words of one segment, nz zeros and then np pixels of value pv, at the tracked high value `h`, as
the pseudo-instructions of R75 spell them; none where VALUE_RANGE is raised (R80, R82 to R84). -/
def segmentWords (h : Int) (pv np nz : Nat) : Option (List Word16) :=
  if pv = 0 then some (zerosWords nz)
  else if nz = 0 then
    if np = 1 then levelsWords h pv else (levelWords h pv).map fun l => l ++ highsWords np
  else if np = 1 then (levelWords h pv).map fun l => l ++ zerosHighWords nz
  else (levelWords h pv).map fun l => l ++ zerosWords nz ++ highsWords np

/-- `lm'` is `lm` with the words `ws` at destination elements `op`, `op + 1`, …, and every other word of
LM as before. -/
def WordsWritten (a : Args) (op : Nat) (ws : List Word16) (lm lm' : Memory) : Prop :=
  (∀ j x, ws[j]? = some x → lmRead lm' (a.dstBase.toNat + op + j) = x) ∧
    ∀ y, (y < a.dstBase.toNat + op ∨ a.dstBase.toNat + op + ws.length ≤ y) → lmRead lm' y = lmRead lm y

/-! ### The register space -/

/-- The byte offset of a unit's register block (R21). -/
def blockOffset : UnitId → Nat
  | .enc => 0
  | .dec => 0x100

/-- The number a fault has in R110's table. -/
def faultNumber : FaultCode → Nat
  | .map => 1
  | .srcBounds => 2
  | .dstBounds => 3
  | .valueRange => 4
  | .lengthRange => 5
  | .highOverflow => 6
  | .badHeader => 7
  | .badOpcode => 8
  | .truncated => 9

/-- Whether a byte offset is that of an argument register, START to DST_LEN, of either block (R21, R26). -/
def isArgOffset (off : Nat) : Prop :=
  off % 4 = 0 ∧ (0x0C ≤ off ∧ off ≤ 0x20 ∨ 0x10C ≤ off ∧ off ≤ 0x120)

/-- Whether a byte offset is reserved: not a multiple of 4, or past ID in its block, or outside the two
blocks (R21, R22). -/
def isReservedOffset (off : Nat) : Prop := off % 4 ≠ 0 ∨ 0x30 ≤ off % 256 ∨ 0x200 ≤ off

/-! ### Strict mode and the two units -/

/-- The state with the running or accepted decode command's latched STRICT set to `b`. -/
def setStrict (b : Bool) (s : State) : State :=
  { s with
    dec := { s.dec with
      phase := match s.dec.phase with
        | .idle => .idle
        | .done => .done
        | .faulted c => .faulted c
        | .accepted k => .accepted { k with strict := b }
        | .running k w => .running { k with strict := b } w } }

/-- The arguments ENC's running or accepted command latched. -/
def encLatched (s : State) : Option Args :=
  match s.enc.phase with
  | .idle => none
  | .done => none
  | .faulted _ => none
  | .accepted a => some a
  | .running a _ => some a

/-- The arguments DEC's running or accepted command latched. -/
def decLatched (s : State) : Option Args :=
  match s.dec.phase with
  | .idle => none
  | .done => none
  | .faulted _ => none
  | .accepted k => some k.args
  | .running k _ => some k.args

/-- Whether two spans of words of one memory do not overlap. -/
def spansApart (base₁ len₁ base₂ len₂ : Reg32) : Prop :=
  base₁.toNat + len₁.toNat ≤ base₂.toNat ∨ base₂.toNat + len₂.toNat ≤ base₁.toNat

/-- Whether the two units' commands, where both run, touch no word that the other writes: not the pair of
R128. -/
def UnitsApart (s : State) : Prop :=
  ∀ a b, encLatched s = some a → decLatched s = some b →
    spansApart a.dstBase a.dstLen b.srcBase b.srcLen ∧
      spansApart b.dstBase b.dstLen a.srcBase a.srcLen

end Sys2Proof.Machine
end

