-- ==== Sys2Proof/Certificates/Slice0/Obligations.lean ====
section
/-! DEFINITION. The statements for the provers. -/

open Sys2Proof Sys2Proof.Machine

/-! ### Encoding -/

/-- Decoding the words of a well-formed instruction, whatever follows them, gives the instruction back
and the words after it (R66, R67, R69, R70, R71). -/
def Obligations.EncodedInstructionsDecodeBack : Prop :=
  ∀ (i : Instr) (rest : List Word16), i.wellFormed = true → decode (encode i ++ rest) = .ok (i, rest)

/-- Every pair of words has one meaning: the instruction it starts is well formed and encodes to exactly
the words it was read from (R65, R66, R70, R72). -/
def Obligations.DecodedWordsEncodeBack : Prop :=
  ∀ w0 w1 : Word16, (decodeWords w0 w1).wellFormed = true ∧
    encode (decodeWords w0 w1) = if lengthOf w0 = 2 then [w0, w1] else [w0]

/-- One word of each family, written out from R71's encodings, decodes to its instruction. -/
def Obligations.SampleWordsDecode : Prop :=
  decode [0x0002] = .ok (.zn 2, []) ∧ decode [0x16D1, 0x0005] = .ok (.sh 0x6D1 5, []) ∧
    decode [0x2FFF] = .ok (.ih 4095, []) ∧ decode [0x303F] = .ok (.dh 63, []) ∧
    decode [0x4003] = .ok (.hn 3, []) ∧ decode [0x5005] = .ok (.pn 5, []) ∧
    decode [0x6CD7] = .ok (.is 3287, []) ∧ decode [0x7FFF] = .ok (.ds 4095, []) ∧
    decode [0x8005] = .ok (.reserved 8 5, []) ∧ decode [0xFFFF] = .ok (.reserved 15 4095, [])

/-- A value the encoder splits over two words is read back whole: a set-high value up to 2^27 - 1, and a
length up to 2^30 - 1 in the two length words (inferences the spec marks as its own: R69, 'the decoder then
recovers exactly v', and R62, 'the decoder then reassembles exactly L'). -/
def Obligations.SplitValuesReassemble : Prop :=
  (∀ v : Nat, v ≤ maxShValue →
    ∃ w0 w1, setHighWords v = [w0, w1] ∧ opcodeOf w0 = 1 ∧ shValue (dataOf w0) w1 = v) ∧
  ∀ len : Nat, len ≤ maxLen →
    0 ≤ sext16 (bits16 (len % 32768 : Nat)) ∧ 0 ≤ sext16 (bits16 (len / 32768 : Nat)) ∧
      sext16 (bits16 (len % 32768 : Nat)) + sext16 (bits16 (len / 32768 : Nat)) * 32768 = len

/-! ### The step and its agents -/

/-- A step is the step of the agent that the model's schedule names next, at the state with that choice
made; reset released. That an interleaving is a list `sched` and then drawn stretches is the model's choice
(log entry 1), and so is the last clause, which is about that list; that a step is one agent's is R10's and
R49's. -/
def Obligations.StepIsTheChosenAgentsStep : Prop :=
  ∀ s : State, s.inReset = false →
    (nextAgent s = .host → step s = hostStep (afterChoice s)) ∧
    (nextAgent s = .enc → step s = .next (encStep (afterChoice s))) ∧
    (nextAgent s = .dec → step s = decStep (afterChoice s)) ∧
    ∀ g rest, s.sched = g :: rest → nextAgent s = g ∧ afterChoice s = { s with sched := rest }

/-! ### A step of the decoder -/

/-- Where DEC moves with a running command whose loop has not ended and the word at D.ip lies in the source
buffer, the step is `exec` of the instruction decoded there, at the state with the schedule's choice made;
a set-high whose second word is outside the source buffer raises its fault instead (R92, R96). -/
def Obligations.StepRunsDecodedInstruction : Prop :=
  ∀ (s : State) (k : DecLatch) (w : DecWork) (w0 : Word16),
    nextAgent s = .dec → s.inReset = false → s.dec.phase = .running k w → loopEnded w = false →
    decSrcRead k.args s.lm w.ip.toInt = some w0 →
    (∀ w1 i rest, decSrcRead k.args s.lm (w.ip.toInt + 1) = some w1 →
      decode [w0, w1] = .ok (i, rest) → step s = exec i (afterChoice s)) ∧
    (∀ i rest, decSrcRead k.args s.lm (w.ip.toInt + 1) = none →
      decode [w0] = .ok (i, rest) → step s = exec i (afterChoice s)) ∧
    (decSrcRead k.args s.lm (w.ip.toInt + 1) = none → decode [w0] = .error .noSecondWord →
      step s = .next
        (if k.strict = true ∧ w.L.toInt ≤ w.ip.toInt + 1 then
          raiseFault .dec .truncated w.ip.toInt (afterChoice s)
        else raiseFault .dec .srcBounds (w.ip.toInt + 1) (afterChoice s)))

/-- Where the word at D.ip is outside the source buffer, the step raises SRC_BOUNDS with D.ip (R42, R92). -/
def Obligations.FetchOutsideSourceFaults : Prop :=
  ∀ (s : State) (k : DecLatch) (w : DecWork),
    nextAgent s = .dec → s.inReset = false → s.dec.phase = .running k w → loopEnded w = false →
    (w.ip.toInt < 0 ∨ (k.args.srcLen.toNat : Int) ≤ w.ip.toInt) →
    step s = .next (raiseFault .dec .srcBounds w.ip.toInt (afterChoice s))

/-- The fill step: once the loop has ended, every destination element from D.op to D.count - 1 is zero,
RESULT is D.count, STATUS is DONE, and nothing else changes (R91, R104). -/
def Obligations.FillStepZeroesTheTail : Prop :=
  ∀ (s : State) (k : DecLatch) (w : DecWork),
    s.dec.phase = .running k w → w.CursorOk k.args → (w.L.toInt ≤ w.ip.toInt ∨ w.xe < w.x1) →
    ∃ pm', decStep s =
        .next { s with pm := pm', dec := { s.dec with phase := .done, result := k.args.count } } ∧
      (∀ j, w.op.toNat ≤ j → j < k.args.count.toNat → pmRead pm' (k.args.dstBase.toNat + j) = 0) ∧
      ∀ x, (∀ j, w.op.toNat ≤ j → j < k.args.count.toNat → x ≠ k.args.dstBase.toNat + j) →
        pmRead pm' x = pmRead s.pm x

/-! ### The instructions: results, completion and frames -/

/-- ZN completes: zeros at the run's window positions, D.x1, D.op and D.ip advanced, nothing else changed
(R95). -/
def Obligations.ZeroRunWritesZeros : Prop :=
  ∀ (s : State) (k : DecLatch) (w : DecWork) (d : BitVec 12),
    s.dec.phase = .running k w → w.CursorOk k.args →
    encode (.zn d) = [0#4 ++ d] ∧
    ∃ pm', exec (.zn d) s = .next (s.decGoOn k (w.pastRun k.args d) pm') ∧
      RunWritten k.args w d (fun _ => 0) s.pm pm'

/-- HN completes: the high value at the run's window positions, D.x1, D.op and D.ip advanced, nothing else
changed (R99). -/
def Obligations.HighRunWritesHighValue : Prop :=
  ∀ (s : State) (k : DecLatch) (w : DecWork) (d : BitVec 12),
    s.dec.phase = .running k w → w.CursorOk k.args →
    encode (.hn d) = [4#4 ++ d] ∧
    ∃ pm', exec (.hn d) s = .next (s.decGoOn k (w.pastRun k.args d) pm') ∧
      RunWritten k.args w d (fun _ => w.high) s.pm pm'

/-- PN completes: zeros at the run's window positions but for its last position, which takes the high value
where the window holds it; D.x1, D.op and D.ip advanced, nothing else changed (R100). -/
def Obligations.ZeroRunPlusOneEndsHigh : Prop :=
  ∀ (s : State) (k : DecLatch) (w : DecWork) (d : BitVec 12),
    s.dec.phase = .running k w → w.CursorOk k.args →
    encode (.pn d) = [5#4 ++ d] ∧
    ∃ pm', exec (.pn d) s = .next (s.decGoOn k (w.pastRun k.args d) pm') ∧
      RunWritten k.args w d (fun p => if p + 1 = w.x1 + d.toNat then w.high else 0) s.pm pm'

/-- SH: TRUNCATED in strict mode where its second word is at or beyond D.L, else SRC_BOUNDS where that word
is outside the source buffer, else the high value is `sext16(w1) * 4096 + d` and D.ip is two on; no pixel,
D.x1 and D.op unchanged (R96). -/
def Obligations.SetHighLoadsTheHighValue : Prop :=
  ∀ (s : State) (k : DecLatch) (w : DecWork) (d : BitVec 12) (w1 : Word16),
    s.dec.phase = .running k w →
    encode (.sh d w1) = [1#4 ++ d, w1] ∧
    if k.strict = true ∧ w.L.toInt ≤ w.ip.toInt + 1 then
      exec (.sh d w1) s = .next (raiseFault .dec .truncated w.ip.toInt s)
    else
      (decSrcRead k.args s.lm (w.ip.toInt + 1) = none →
        exec (.sh d w1) s = .next (raiseFault .dec .srcBounds (w.ip.toInt + 1) s)) ∧
      (decSrcRead k.args s.lm (w.ip.toInt + 1) = some w1 →
        ∃ h : Pixel, h.toInt = w1.toInt * 4096 + d.toNat ∧
          exec (.sh d w1) s = .next (s.decGoOn k { w with high := h, ip := w.ip + 2 } s.pm))

/-- IH: the high value grows by d, exactly, and D.ip is one on, nothing else changes; where the sum leaves
the 32-bit signed range HIGH_OVERFLOW is raised with D.ip and nothing else changes (R94, R97). -/
def Obligations.IncHighAddsExactly : Prop :=
  ∀ (s : State) (k : DecLatch) (w : DecWork) (d : BitVec 12),
    s.dec.phase = .running k w →
    encode (.ih d) = [2#4 ++ d] ∧
    if w.high.toInt + d.toNat ≤ 2147483647 then
      ∃ h : Pixel, h.toInt = w.high.toInt + d.toNat ∧
        exec (.ih d) s = .next (s.decGoOn k { w with high := h, ip := w.ip + 1 } s.pm)
    else exec (.ih d) s = .next (raiseFault .dec .highOverflow w.ip.toInt s)

/-- DH: the high value falls by d, exactly, and D.ip is one on, nothing else changes; where the difference
leaves the 32-bit signed range HIGH_OVERFLOW is raised with D.ip and nothing else changes (R94, R98). -/
def Obligations.DecHighSubtractsExactly : Prop :=
  ∀ (s : State) (k : DecLatch) (w : DecWork) (d : BitVec 12),
    s.dec.phase = .running k w →
    encode (.dh d) = [3#4 ++ d] ∧
    if -2147483648 ≤ w.high.toInt - d.toNat then
      ∃ h : Pixel, h.toInt = w.high.toInt - d.toNat ∧
        exec (.dh d) s = .next (s.decGoOn k { w with high := h, ip := w.ip + 1 } s.pm)
    else exec (.dh d) s = .next (raiseFault .dec .highOverflow w.ip.toInt s)

/-- IS: the high value grows by d and, where D.x1 lies in the window, is written to the window position's
word, the only word of PM that changes; D.x1 and D.ip one on, D.op one on where a pixel was written; on
overflow HIGH_OVERFLOW is raised before any write (R94, R101). -/
def Obligations.IncStoreAddsAndStores : Prop :=
  ∀ (s : State) (k : DecLatch) (w : DecWork) (d : BitVec 12),
    s.dec.phase = .running k w → w.CursorOk k.args →
    encode (.is d) = [6#4 ++ d] ∧
    if w.high.toInt + d.toNat ≤ 2147483647 then
      ∃ h : Pixel, h.toInt = w.high.toInt + d.toNat ∧
        if k.args.start.toNat ≤ w.x1 ∧ w.x1 ≤ w.xe then
          ∃ pm', exec (.is d) s = .next (s.decGoOn k
              { w with high := h, x1 := w.x1 + 1, ip := w.ip + 1, op := w.op + 1 } pm') ∧
            pmRead pm' (windowAddr k.args w.x1) = h ∧
            ∀ x, x ≠ windowAddr k.args w.x1 → pmRead pm' x = pmRead s.pm x
        else exec (.is d) s = .next (s.decGoOn k
            { w with high := h, x1 := w.x1 + 1, ip := w.ip + 1 } s.pm)
    else exec (.is d) s = .next (raiseFault .dec .highOverflow w.ip.toInt s)

/-- DS: the high value falls by d and, where D.x1 lies in the window, is written to the window position's
word, the only word of PM that changes; D.x1 and D.ip one on, D.op one on where a pixel was written; on
overflow HIGH_OVERFLOW is raised before any write (R94, R102). -/
def Obligations.DecStoreSubtractsAndStores : Prop :=
  ∀ (s : State) (k : DecLatch) (w : DecWork) (d : BitVec 12),
    s.dec.phase = .running k w → w.CursorOk k.args →
    encode (.ds d) = [7#4 ++ d] ∧
    if -2147483648 ≤ w.high.toInt - d.toNat then
      ∃ h : Pixel, h.toInt = w.high.toInt - d.toNat ∧
        if k.args.start.toNat ≤ w.x1 ∧ w.x1 ≤ w.xe then
          ∃ pm', exec (.ds d) s = .next (s.decGoOn k
              { w with high := h, x1 := w.x1 + 1, ip := w.ip + 1, op := w.op + 1 } pm') ∧
            pmRead pm' (windowAddr k.args w.x1) = h ∧
            ∀ x, x ≠ windowAddr k.args w.x1 → pmRead pm' x = pmRead s.pm x
        else exec (.ds d) s = .next (s.decGoOn k
            { w with high := h, x1 := w.x1 + 1, ip := w.ip + 1 } s.pm)
    else exec (.ds d) s = .next (raiseFault .dec .highOverflow w.ip.toInt s)

/-- RESERVED: with STRICT = 0 a one-word no-op, with STRICT = 1 Fault(BAD_OPCODE, D.ip) (R103). -/
def Obligations.ReservedOpcodeSkipsOrFaults : Prop :=
  ∀ (s : State) (k : DecLatch) (w : DecWork) (op : BitVec 4) (x : BitVec 12),
    s.dec.phase = .running k w →
    encode (.reserved op x) = [op ++ x] ∧
    (k.strict = false →
      exec (.reserved op x) s = .next (s.decGoOn k { w with ip := w.ip + 1 } s.pm)) ∧
    (k.strict = true →
      exec (.reserved op x) s = .next (raiseFault .dec .badOpcode w.ip.toInt s))

/-- Whatever an instruction does, it changes only PM inside the destination buffer and DEC's own state: LM,
ENC, the registers the host writes, RESULT and the rest stay; the command goes on with the same latches,
D.L and D.xe and FINFO unchanged, or faults (R39, R48, R114, R121). -/
def Obligations.InstructionsReachOnlyTheirBuffer : Prop :=
  ∀ (i : Instr) (s s' : State), exec i s = .next s' →
    ∃ k w, s.dec.phase = .running k w ∧ SameButPmAndDec s s' ∧ PmSameOutside k.args s.pm s'.pm ∧
      s'.dec.args = s.dec.args ∧ s'.dec.result = s.dec.result ∧
      ((∃ w', s'.dec.phase = .running k w' ∧ w'.L = w.L ∧ w'.xe = w.xe ∧ s'.dec.finfo = s.dec.finfo) ∨
        ∃ c, s'.dec.phase = .faulted c)

/-- An instruction that goes on advances D.ip by exactly the number of words it encodes to (R18, R70). -/
def Obligations.InstructionsAdvanceByTheirLength : Prop :=
  ∀ (i : Instr) (s s' : State) (k k' : DecLatch) (w w' : DecWork),
    s.dec.phase = .running k w → exec i s = .next s' → s'.dec.phase = .running k' w' →
    w'.ip = w.ip + BitVec.ofNat 32 (encode i).length

/-- Where the cursor is as R106 says, no step of a running decode command raises DST_BOUNDS
(an inference the spec marks as its own: R106, 'no DstWrite of the decoder can fault after the start step'). -/
def Obligations.DecoderNeverOverrunsDestination : Prop :=
  ∀ (s s' : State) (k : DecLatch) (w : DecWork),
    s.dec.phase = .running k w → w.CursorOk k.args → decStep s = .next s' →
    s'.dec.phase ≠ .faulted .dstBounds

/-! ### The decoder's start step -/

/-- A count of zero completes either command at once with RESULT 0, and changes nothing else, whatever its
buffers are (R78, R90). -/
def Obligations.ZeroCountCompletesAtOnce : Prop :=
  ∀ s : State,
    (∀ a, s.enc.phase = .accepted a → a.count = 0 →
      encStep s = { s with enc := { s.enc with phase := .done, result := 0 } }) ∧
    (∀ k, s.dec.phase = .accepted k → k.args.count = 0 →
      decStep s = .next { s with dec := { s.dec with phase := .done, result := 0 } })

/-- A buffer that does not lie inside its memory faults MAP in the start step of a command with a nonzero
count, before any access (R41). -/
def Obligations.UnmappedBufferFaults : Prop :=
  ∀ s : State,
    (∀ a, s.enc.phase = .accepted a → a.count ≠ 0 →
      (s.pmWords < a.srcBase.toNat + a.srcLen.toNat ∨ s.lmWords < a.dstBase.toNat + a.dstLen.toNat) →
      encStep s = raiseFault .enc .map 0 s) ∧
    (∀ k, s.dec.phase = .accepted k → k.args.count ≠ 0 →
      (s.lmWords < k.args.srcBase.toNat + k.args.srcLen.toNat ∨
        s.pmWords < k.args.dstBase.toNat + k.args.dstLen.toNat) →
      decStep s = .next (raiseFault .dec .map 0 s))

/-- A legacy header: the version word is the length, the data starts at element 3; strict mode adds S4 and
S5; then DST_BOUNDS where the destination cannot hold the window (R58, R60 to R62, R90, R105). That S3 says
nothing of a legacy header is the model's reading of R105's table (log entry 18). -/
def Obligations.LegacyHeaderStartsTheDecode : Prop :=
  ∀ (s : State) (k : DecLatch) (v : Int),
    s.dec.phase = .accepted k → k.args.count ≠ 0 → k.args.mapped s.lmWords s.pmWords = true →
    3 ≤ k.args.srcLen.toNat → (lmRead s.lm (k.args.srcBase.toNat + 2)).toInt = v → 0 < v →
    decStep s = .next
      (if k.strict = true ∧ ((k.args.srcLen.toNat : Int) < v ∨ v < 3) then raiseFault .dec .badHeader 2 s
      else if k.args.dstLen.toNat < k.args.count.toNat then
        raiseFault .dec .dstBounds k.args.dstLen.toNat s
      else s.decGoOn k
        { ip := 3, L := int32 v, xe := k.args.start.toNat + k.args.count.toNat - 1, x1 := 0, op := 0,
          high := 1 } s.pm)

/-- A current header in non-strict mode: length and data start from the fields as they are read, a
nonpositive length completes with RESULT 0 and no write, then DST_BOUNDS (R59 to R62, R90). -/
def Obligations.CurrentHeaderStartsTheDecode : Prop :=
  ∀ (s : State) (k : DecLatch) (hl lo hi : Int),
    s.dec.phase = .accepted k → k.strict = false → k.args.count ≠ 0 →
    k.args.mapped s.lmWords s.pmWords = true → 5 ≤ k.args.srcLen.toNat →
    (lmRead s.lm (k.args.srcBase.toNat + 2)).toInt ≤ 0 →
    (lmRead s.lm (k.args.srcBase.toNat + 1)).toInt = hl →
    (lmRead s.lm (k.args.srcBase.toNat + 3)).toInt = lo →
    (lmRead s.lm (k.args.srcBase.toNat + 4)).toInt = hi →
    decStep s = .next
      (if lo + hi * 32768 ≤ 0 then completeCommand .dec 0 s
      else if k.args.dstLen.toNat < k.args.count.toNat then
        raiseFault .dec .dstBounds k.args.dstLen.toNat s
      else s.decGoOn k
        { ip := int32 hl, L := int32 (lo + hi * 32768),
          xe := k.args.start.toNat + k.args.count.toNat - 1, x1 := 0, op := 0, high := 1 } s.pm)

/-- A current header in strict mode: S1, S2, S3, the nonpositive-length exit, S4, S5 and DST_BOUNDS, in that
order, each with the element it reports; a header that passes starts the decode at element 7 (R90, R105,
R113). -/
def Obligations.StrictHeaderChecksInOrder : Prop :=
  ∀ (s : State) (k : DecLatch) (v hl lo hi : Int),
    s.dec.phase = .accepted k → k.strict = true → k.args.count ≠ 0 →
    k.args.mapped s.lmWords s.pmWords = true → 5 ≤ k.args.srcLen.toNat →
    (lmRead s.lm (k.args.srcBase.toNat + 2)).toInt = v → v ≤ 0 →
    (lmRead s.lm (k.args.srcBase.toNat + 1)).toInt = hl →
    (lmRead s.lm (k.args.srcBase.toNat + 3)).toInt = lo →
    (lmRead s.lm (k.args.srcBase.toNat + 4)).toInt = hi →
    decStep s = .next
      (if v = 0 then raiseFault .dec .badHeader 2 s
      else if hl ≠ 7 then raiseFault .dec .badHeader 1 s
      else if lo < 0 then raiseFault .dec .badHeader 3 s
      else if hi < 0 then raiseFault .dec .badHeader 4 s
      else if lo + hi * 32768 ≤ 0 then completeCommand .dec 0 s
      else if (k.args.srcLen.toNat : Int) < lo + hi * 32768 ∨ lo + hi * 32768 < 7 then
        raiseFault .dec .badHeader 3 s
      else if k.args.dstLen.toNat < k.args.count.toNat then
        raiseFault .dec .dstBounds k.args.dstLen.toNat s
      else s.decGoOn k
        { ip := 7, L := int32 (lo + hi * 32768),
          xe := k.args.start.toNat + k.args.count.toNat - 1, x1 := 0, op := 0, high := 1 } s.pm)

/-- A source buffer too short for the header faults SRC_BOUNDS at the first element it lacks: 2, then for a
current header 3 and 4 (R42, R90, R113). -/
def Obligations.ShortHeaderFaults : Prop :=
  ∀ (s : State) (k : DecLatch),
    s.dec.phase = .accepted k → k.args.count ≠ 0 → k.args.mapped s.lmWords s.pmWords = true →
    (k.args.srcLen.toNat ≤ 2 → decStep s = .next (raiseFault .dec .srcBounds 2 s)) ∧
    ((lmRead s.lm (k.args.srcBase.toNat + 2)).toInt ≤ 0 →
      (k.args.srcLen.toNat = 3 → decStep s = .next (raiseFault .dec .srcBounds 3 s)) ∧
      (k.args.srcLen.toNat = 4 → decStep s = .next (raiseFault .dec .srcBounds 4 s)))

/-! ### Strict mode -/

/-- An instruction under STRICT = 1 either raises BAD_OPCODE or TRUNCATED at D.ip, or does exactly what it
does under STRICT = 0 (R103, R105). -/
def Obligations.StrictModeOnlyAddsFaults : Prop :=
  ∀ (i : Instr) (s : State) (k : DecLatch) (w : DecWork),
    s.dec.phase = .running k w → k.strict = true →
    exec i s = .next (raiseFault .dec .badOpcode w.ip.toInt s) ∨
    exec i s = .next (raiseFault .dec .truncated w.ip.toInt s) ∨
    ∃ s', exec i s = .next s' ∧ exec i (setStrict false s) = .next (setStrict false s')

/-- In strict mode, where the encoded length lies in the source buffer (check S4), no step of a running
decode command raises SRC_BOUNDS (an inference the spec marks as its own: R105, 'With S4 passed, no
SRC_BOUNDS fault can occur after the header'). -/
def Obligations.StrictDecodeNeverReadsOutside : Prop :=
  ∀ (s s' : State) (k : DecLatch) (w : DecWork),
    s.dec.phase = .running k w → k.strict = true → 0 ≤ w.ip.toInt →
    w.L.toInt ≤ k.args.srcLen.toNat → decStep s = .next s' → s'.dec.phase ≠ .faulted .srcBounds

/-! ### The encoder -/

/-- The start step's faults come in R113's order, MAP before SRC_BOUNDS before DST_BOUNDS, each before any
write (R78). -/
def Obligations.EncoderStartFaultsInOrder : Prop :=
  ∀ (s : State) (a : Args), s.enc.phase = .accepted a → a.count ≠ 0 →
    (a.mapped s.pmWords s.lmWords = false → encStep s = raiseFault .enc .map 0 s) ∧
    (a.mapped s.pmWords s.lmWords = true → a.srcLen.toNat < a.start.toNat + a.count.toNat →
      encStep s = raiseFault .enc .srcBounds (max a.start.toNat a.srcLen.toNat : Nat) s) ∧
    (a.mapped s.pmWords s.lmWords = true → a.start.toNat + a.count.toNat ≤ a.srcLen.toNat →
      a.dstLen.toNat < 7 → encStep s = raiseFault .enc .dstBounds a.dstLen.toNat s)

/-- A start step that passes its checks writes header elements 0, 1, 2, 5 and 6, leaves every other word of
LM (elements 3 and 4 too), and begins the scan at the first pixel, clamped (R57, R77, R78). -/
def Obligations.EncoderStartWritesTheHeader : Prop :=
  ∀ (s : State) (a : Args), s.enc.phase = .accepted a → a.count ≠ 0 →
    a.mapped s.pmWords s.lmWords = true → a.start.toNat + a.count.toNat ≤ a.srcLen.toNat →
    7 ≤ a.dstLen.toNat →
    ∃ (lm' : Memory) (p : Pixel),
      p.toInt = max 0 (pmRead s.pm (a.srcBase.toNat + a.start.toNat)).toInt ∧
      encStep s = s.encGoOn a
        { ip := BitVec.ofNat 33 a.start.toNat
          xe := BitVec.ofNat 33 (a.start.toNat + a.count.toNat - 1)
          x1 := BitVec.ofNat 33 a.start.toNat
          iz := BitVec.ofNat 33 a.start.toNat
          pv := p, nv := 0, hi := 1, op := 7 } lm' ∧
      lmRead lm' a.dstBase.toNat = 0 ∧ lmRead lm' (a.dstBase.toNat + 1) = 7 ∧
      lmRead lm' (a.dstBase.toNat + 2) = 0xFF9C ∧ lmRead lm' (a.dstBase.toNat + 5) = 0 ∧
      lmRead lm' (a.dstBase.toNat + 6) = 0 ∧
      ∀ x, (x < a.dstBase.toNat ∨ x = a.dstBase.toNat + 3 ∨ x = a.dstBase.toNat + 4 ∨
        a.dstBase.toNat + 7 ≤ x) → lmRead lm' x = lmRead s.lm x

/-- A scan step before the last pixel: an equal clamped pixel continues the run, and a nonzero one after a zero
run starts the nonzero run at the next index, with no word written; any other pixel ends a nonzero run. At the
end of a nonzero run, and at the last pixel, where a zero run first makes the nonzero range empty, the step is
the flush of the segment, and then E.ip is one on or the flush's fault is taken with the words it wrote (R77,
R79). -/
def Obligations.ScanStepExtendsOrFlushesTheRun : Prop :=
  ∀ (s : State) (a : Args) (w : EncWork), s.enc.phase = .running a w → w.Ok a s.pmWords s.lmWords →
    (w.ip.toNat < w.xe.toNat →
      ∀ q : Pixel, q.toInt = max 0 (pmRead s.pm (a.srcBase.toNat + w.ip.toNat + 1)).toInt →
      (q = w.pv → encStep s = s.encGoOn a { w with nv := q, ip := w.ip + 1 } s.lm) ∧
      (q ≠ w.pv → w.pv = 0 →
        encStep s = s.encGoOn a { w with nv := q, pv := q, x1 := w.ip + 1, ip := w.ip + 1 } s.lm) ∧
      (q ≠ w.pv → w.pv ≠ 0 → StepFlushes a { w with nv := q } s)) ∧
    (w.ip.toNat = w.xe.toNat →
      StepFlushes a (if w.pv = 0 then { w with x1 := w.xe + 1 } else w) s)

/-- A flush emits exactly the words of R75's pseudo-instructions for its segment: nz zeros, then np pixels
of value E.pv. They stand at the cursor, every other word of LM is as before, and the next segment starts
after `ip`; where they do not fit, DST_BOUNDS is raised at the buffer's length with the words that fit
written; where a set-high above 2^27 - 1 is needed, VALUE_RANGE is raised before any write (R75, R80 to
R84). -/
def Obligations.FlushEmitsTheSegment : Prop :=
  ∀ (a : Args) (ip : BitVec 33) (lm : Memory) (w : EncWork) (np nz : Nat),
    w.iz.toNat + nz = w.x1.toNat → w.x1.toNat + np = ip.toNat + 1 → (np = 0 ↔ w.pv = 0) →
    0 ≤ w.pv.toInt → w.op.toNat ≤ a.dstLen.toNat →
    match segmentWords w.hi.toInt w.pv.toNat np nz with
    | none => flush a ip lm w = .raise .valueRange w.x1.toNat lm
    | some ws =>
      if w.op.toNat + ws.length ≤ a.dstLen.toNat then
        ∃ lm', WordsWritten a w.op.toNat ws lm lm' ∧
          flush a ip lm w = .ok () lm'
            { w with x1 := ip + 1, iz := ip + 1, pv := w.nv
                     hi := if w.pv = 0 then w.hi else w.pv
                     op := w.op + BitVec.ofNat 32 ws.length }
      else
        ∃ lm', WordsWritten a w.op.toNat (ws.take (a.dstLen.toNat - w.op.toNat)) lm lm' ∧
          flush a ip lm w = .raise .dstBounds a.dstLen.toNat lm'

/-- The finish step: header elements 3 and 4 hold the length, every other word of LM is as before, RESULT is
the length and STATUS is DONE; a length above 2^30 - 1 faults LENGTH_RANGE before any write (R85). -/
def Obligations.FinishStepWritesTheLength : Prop :=
  ∀ (s : State) (a : Args) (w : EncWork), s.enc.phase = .running a w →
    w.xe.toNat < w.ip.toNat → 7 ≤ a.dstLen.toNat →
    if w.op.toNat ≤ 1073741823 then
      ∃ lm', encStep s =
          { s with lm := lm', enc := { s.enc with phase := .done, result := w.op } } ∧
        (lmRead lm' (a.dstBase.toNat + 3)).toNat = w.op.toNat % 32768 ∧
        (lmRead lm' (a.dstBase.toNat + 4)).toNat = w.op.toNat / 32768 ∧
        ∀ x, x ≠ a.dstBase.toNat + 3 → x ≠ a.dstBase.toNat + 4 → lmRead lm' x = lmRead s.lm x
    else encStep s = raiseFault .enc .lengthRange w.op.toNat s

/-- A step of ENC changes only LM inside its destination buffer and ENC's own state: PM is never written
(R39, R77, R121). -/
def Obligations.EncoderReachesOnlyItsBuffer : Prop :=
  ∀ s : State, SameButLmAndEnc s (encStep s) ∧ (encStep s).enc.args = s.enc.args ∧
    match encLatched s with
    | none => encStep s = s
    | some a => LmSameOutside a s.lm (encStep s).lm

/-- An encode command of n >= 1 pixels that completes takes exactly n + 2 steps of ENC, and every encode
command has ended after n + 2 (an inference the spec marks as its own: R87). -/
def Obligations.EncodeTakesCountPlusTwoSteps : Prop :=
  ∀ (s : State) (a : Args), s.enc.phase = .accepted a → a.count ≠ 0 →
    (encSteps (a.count.toNat + 2) s).enc.phase.busy = false ∧
    ((encSteps (a.count.toNat + 2) s).enc.phase = .done →
      ∀ m, m < a.count.toNat + 2 → (encSteps m s).enc.phase.busy = true)

/-- The encoded length of n >= 1 pixels is between 8 and 3n + 7 (an inference the spec marks as its own: R86). -/
def Obligations.EncodedLengthIsBounded : Prop :=
  ∀ (s : State) (a : Args), s.enc.phase = .accepted a → a.count ≠ 0 →
    (encSteps (a.count.toNat + 2) s).enc.phase = .done →
    8 ≤ (encSteps (a.count.toNat + 2) s).enc.result.toNat ∧
      (encSteps (a.count.toNat + 2) s).enc.result.toNat ≤ 3 * a.count.toNat + 7

/-- A destination of at least 3 * COUNT + 7 words never raises DST_BOUNDS in an encode (R127, on
an inference the spec marks as its own: R86). -/
def Obligations.WorstCaseBufferNeverOverflows : Prop :=
  ∀ (s : State) (a : Args), s.enc.phase = .accepted a → 3 * a.count.toNat + 7 ≤ a.dstLen.toNat →
    ∀ m, (encSteps m s).enc.phase ≠ .faulted .dstBounds

/-! ### Whole commands -/

/-- A decode command whose header can be read has ended after `max(0, D.L - ds) + 2` steps of DEC
(an inference the spec marks as its own: R108). -/
def Obligations.DecodeEndsWithinItsBound : Prop :=
  ∀ (s : State) (k : DecLatch) (h : Header), s.dec.phase = .accepted k → k.args.count ≠ 0 →
    readHeader k.args s.lm = .ok h →
    ∃ s', decSteps ((h.length - h.dataStart).toNat + 2) s = some s' ∧ s'.dec.phase.busy = false

/-- Round trip: where ENC encodes n >= 1 pixels without fault, a decode accepted in any state `t` whose source
buffer holds that line list, with START = 0 and COUNT = n, in either mode, completes with RESULT n and the
clamped pixels (an inference the spec marks as its own: R109). `t` may be the state the encode ends in or any
later one, whatever else happened in between (R53, R126). -/
def Obligations.DecodeOfEncodeIsTheClampedRow : Prop :=
  ∀ (s s₁ t : State) (a : Args) (k : DecLatch),
    s.enc.phase = .accepted a → a.count ≠ 0 → s₁ = encSteps (a.count.toNat + 2) s →
    s₁.enc.phase = .done → t.dec.phase = .accepted k →
    (∀ i, i < s₁.enc.result.toNat →
      lmRead t.lm (k.args.srcBase.toNat + i) = lmRead s₁.lm (a.dstBase.toNat + i)) →
    k.args.start = 0 → k.args.count = a.count →
    s₁.enc.result.toNat ≤ k.args.srcLen.toNat → k.args.count.toNat ≤ k.args.dstLen.toNat →
    k.args.mapped t.lmWords t.pmWords = true →
    ∃ m t₂, decSteps m t = some t₂ ∧ t₂.dec.phase = .done ∧ t₂.dec.result = a.count ∧
      ∀ j, j < a.count.toNat →
        (pmRead t₂.pm (k.args.dstBase.toNat + j)).toInt =
          max 0 (pmRead s.pm (a.srcBase.toNat + a.start.toNat + j)).toInt

/-- Two commands that run at once and touch no word the other writes do not disturb each other: a step of
ENC and a step of DEC give the same state in either order (R121, R128). -/
def Obligations.UnitsApartCommute : Prop :=
  ∀ s s' : State, UnitsApart s → decStep s = .next s' → decStep (encStep s) = .next (encStep s')

/-! ### Faults, commands and registers -/

/-- Fault entry: the unit is FAULTED with the code, its STATUS reads 4 + 256 * FCODE, FINFO is the information
modulo 2^32 (log entry 19), and nothing else changes: not RESULT (R114's 'stays 0', log entry 10), not the
arguments, the other unit, the memories, the sizes, the reset input, the host's lists or the schedule (R111,
R114). The codes are R110's. -/
def Obligations.FaultEntryReportsCodeAndInfo : Prop :=
  (∀ (c : FaultCode) (info : Int) (s : State), ∃ f : Reg32, (f.toNat : Int) = info % 4294967296 ∧
    raiseFault .enc c info s = { s with enc := { s.enc with phase := .faulted c, finfo := f } } ∧
    raiseFault .dec c info s = { s with dec := { s.dec with phase := .faulted c, finfo := f } } ∧
    (readReg (raiseFault .enc c info s) 0x004).toNat = 4 + 256 * faultNumber c ∧
    (readReg (raiseFault .dec c info s) 0x104).toNat = 4 + 256 * faultNumber c ∧
    readReg (raiseFault .enc c info s) 0x028 = f ∧ readReg (raiseFault .dec c info s) 0x128 = f) ∧
  faultNumber .map = 1 ∧ faultNumber .srcBounds = 2 ∧ faultNumber .dstBounds = 3 ∧
    faultNumber .valueRange = 4 ∧ faultNumber .lengthRange = 5 ∧ faultNumber .highOverflow = 6 ∧
    faultNumber .badHeader = 7 ∧ faultNumber .badOpcode = 8 ∧ faultNumber .truncated = 9

/-- STATUS reads 0 where a unit is IDLE, 2 where it is DONE, 4 + 256 * FCODE where it is FAULTED, with R110's
number of the fault, and 1 from an accepted GO to the end of the command; bit 0 is BUSY. So BUSY, DONE and
FAULT are bits 0 to 2, at most one of them is 1, FCODE is bits 11:8 while FAULT is 1, and every other bit is
0 (R24, R30, R110). -/
def Obligations.StatusShowsOneOfFourStates : Prop :=
  ∀ s : State,
    (readReg s 0x004).toNat =
      (match s.enc.phase with
      | .idle => 0
      | .done => 2
      | .faulted c => 4 + 256 * faultNumber c
      | .accepted _ => 1
      | .running _ _ => 1) ∧
    (readReg s 0x104).toNat =
      (match s.dec.phase with
      | .idle => 0
      | .done => 2
      | .faulted c => 4 + 256 * faultNumber c
      | .accepted _ => 1
      | .running _ _ => 1) ∧
    ∀ u : UnitId,
      let st := readReg s (blockOffset u + 0x04)
      st = unitStatus s u ∧ (st.getLsbD 0 = unitBusy s u) ∧
      (st.toNat % 8 = 0 ∨ st.toNat % 8 = 1 ∨ st.toNat % 8 = 2 ∨ st.toNat % 8 = 4) ∧
      (st.toNat / 8 % 32 = 0) ∧ (st.toNat < 4096) ∧
      (st.toNat % 8 ≠ 4 → st.toNat / 256 = 0) ∧
      (st.toNat % 8 = 4 → 1 ≤ st.toNat / 256 ∧ st.toNat / 256 ≤ 9)

/-- GO to a unit that is not BUSY latches its arguments (and DEC's STRICT), clears RESULT and FINFO and makes
it RUNNING; GO to a BUSY unit changes nothing (R30, R31). -/
def Obligations.GoStartsAnIdleUnit : Prop :=
  ∀ (s : State) (v : Reg32), s.inReset = false → v.getLsbD 0 = true →
    (writeReg s 0x000 v =
      if s.enc.phase.busy = true then s
      else { s with enc := { s.enc with phase := .accepted s.enc.args, result := 0, finfo := 0 } }) ∧
    (writeReg s 0x100 v =
      if s.dec.phase.busy = true then s
      else { s with dec := { s.dec with
        phase := .accepted { args := s.dec.args, strict := s.decStrict }, result := 0, finfo := 0 } })

/-- CLEAR to a unit that is not BUSY makes it IDLE with FINFO 0 and RESULT kept; to a BUSY unit it changes
nothing; a CONTROL write with both bits 0 changes nothing (R23, R32, R115). -/
def Obligations.ClearReturnsAUnitToIdle : Prop :=
  ∀ (s : State) (v : Reg32), s.inReset = false → v.getLsbD 0 = false →
    (writeReg s 0x000 v =
      if v.getLsbD 1 = true ∧ s.enc.phase.busy = false then
        { s with enc := { s.enc with phase := .idle, finfo := 0 } }
      else s) ∧
    (writeReg s 0x100 v =
      if v.getLsbD 1 = true ∧ s.dec.phase.busy = false then
        { s with dec := { s.dec with phase := .idle, finfo := 0 } }
      else s)

/-- No register write reaches a running command: latches and working registers stay as they are (R30 to
R32). -/
def Obligations.RegisterWritesCannotDisturbACommand : Prop :=
  ∀ (s : State) (off : Nat) (v : Reg32),
    (s.enc.phase.busy = true → (writeReg s off v).enc.phase = s.enc.phase) ∧
    (s.dec.phase.busy = true → (writeReg s off v).dec.phase = s.dec.phase)

/-- An argument register reads back every bit written, and its write changes no other register (R26). -/
def Obligations.ArgumentRegistersReadBack : Prop :=
  ∀ (s : State) (off : Nat) (v : Reg32), s.inReset = false → isArgOffset off →
    readReg (writeReg s off v) off = v ∧
    ∀ off', off' ≠ off → readReg (writeReg s off v) off' = readReg s off'

/-- A reserved offset reads 0 and ignores writes; so do writes to STATUS, RESULT, FINFO and ID of either
block; CONTROL reads 0; ENC's CONFIG reads 0 and ignores writes, DEC's holds bit 0 alone (R21 to R23, R25). -/
def Obligations.ReservedAndReadOnlyRegistersAreInert : Prop :=
  ∀ (s : State) (off : Nat) (v : Reg32),
    (isReservedOffset off → readReg s off = 0 ∧ writeReg s off v = s) ∧
    (∀ u : UnitId, off = blockOffset u + 0x04 ∨ off = blockOffset u + 0x24 ∨
      off = blockOffset u + 0x28 ∨ off = blockOffset u + 0x2C → writeReg s off v = s) ∧
    (∀ u : UnitId, readReg s (blockOffset u) = 0) ∧
    (readReg s 0x008 = 0 ∧ writeReg s 0x008 v = s) ∧
    (s.inReset = false → (readReg (writeReg s 0x108 v) 0x108).toNat = v.toNat % 2)

/-- After reset every register reads 0 but the two ID registers (R21, R29, R36). -/
def Obligations.ResetValuesOfEveryRegister : Prop :=
  ∀ off : Nat, readReg State.reset off =
    if off = 0x02C then 0x504C0001 else if off = 0x12C then 0x504C0002 else 0

/-- The host's assertion of reset stops both units: both are IDLE, every register reads its reset value, PM and LM
and everything else stay. While it is asserted a step of either unit changes nothing but the schedule. Its
release, where the registers are as asserted reset left them (ResetHolds, which every step keeps), leaves both
units IDLE, every register at its reset value, and PM and LM and everything else unchanged (R36, R55, R124). -/
def Obligations.ResetStopsUnitsAndSetsRegisters : Prop :=
  ∀ s : State,
    (∃ s₁, hostAct .assertReset s = .next s₁ ∧
      s₁ = { s with enc := s₁.enc, dec := s₁.dec, decStrict := s₁.decStrict, inReset := true } ∧
      s₁.enc.phase = .idle ∧ s₁.dec.phase = .idle ∧ ResetHolds s₁ ∧
      ∀ off, readReg s₁ off = readReg State.reset off) ∧
    (s.inReset = true → nextAgent s ≠ .host → step s = .next (afterChoice s)) ∧
    (s.inReset = true → ResetHolds s →
      ∃ s₂, hostAct .releaseReset s = .next s₂ ∧ s₂ = { s with inReset := false } ∧
        s₂.enc.phase = .idle ∧ s₂.dec.phase = .idle ∧
        ∀ off, readReg s₂ off = readReg State.reset off)

/-- An IDLE, DONE or FAULTED unit takes no step and changes no state (R115, R123). In every execution each unit
gets its turn again and again, and a BUSY unit, whose registers are in order, ends its command: no unit is ever
stuck (R133, U15). That the schedule is drawn so that it is weakly fair is how the model makes R133's
assumption (log entries 1 and 12). -/
def Obligations.FinishedUnitsRestAndBusyUnitsEnd : Prop :=
  (∀ s : State, (s.enc.phase.busy = false → encStep s = s) ∧
    (s.dec.phase.busy = false → decStep s = .next s)) ∧
  ∀ r : Nat → State, IsRun r →
    (∀ (n : Nat) (u : UnitId), ∃ m, n ≤ m ∧ nextAgent (r m) = u.agent) ∧
    (EncoderOk (r 0) → DecoderOk (r 0) → ResetHolds (r 0) →
      ∀ (n : Nat) (u : UnitId), unitBusy (r n) u = true → ∃ m, n ≤ m ∧ unitBusy (r m) u = false)

/-- The host's accesses. A write of an existing word of PM or LM completes: a read of that word then gives the
value, every other word reads as before, and nothing else changes. A read of an existing word, of a register, or
of STATUS in a poll completes with what that word or register holds, and changes nothing of the core; a poll
stays while the unit is BUSY. A register write is `writeReg`, and a host step takes the oldest action (R22, R37,
R46, R49, R112). That what a read returns goes to `hostSaw`, an LM word zero-extended, and that the host's
actions are a list are the model's choices (log entry 6). -/
def Obligations.HostAccessesReadAndWriteWords : Prop :=
  ∀ s : State,
    (∀ a v, a < s.pmWords → ∃ pm', hostAct (.writePm a v) s = .next { s with pm := pm' } ∧
      pmRead pm' a = v ∧ ∀ b, b ≠ a → pmRead pm' b = pmRead s.pm b) ∧
    (∀ a v, a < s.lmWords → ∃ lm', hostAct (.writeLm a v) s = .next { s with lm := lm' } ∧
      lmRead lm' a = v ∧ ∀ b, b ≠ a → lmRead lm' b = lmRead s.lm b) ∧
    (∀ a, a < s.pmWords →
      hostAct (.readPm a) s = .next { s with hostSaw := pmRead s.pm a :: s.hostSaw }) ∧
    (∀ a, a < s.lmWords → ∃ v : Reg32, v.toNat = (lmRead s.lm a).toNat ∧
      hostAct (.readLm a) s = .next { s with hostSaw := v :: s.hostSaw }) ∧
    (∀ off, hostAct (.readReg off) s = .next { s with hostSaw := readReg s off :: s.hostSaw }) ∧
    (∀ off v, hostAct (.writeReg off v) s = .next (writeReg s off v)) ∧
    (∀ u, hostAct (.pollStatus u) s =
      .next { s with
        hostSaw := readReg s (blockOffset u + 0x04) :: s.hostSaw
        hostOps := if unitBusy s u = true then .pollStatus u :: s.hostOps else s.hostOps }) ∧
    ∀ op rest, s.hostOps = op :: rest → hostStep s = hostAct op { s with hostOps := rest }

/-- No host access raises a fault of a unit: a unit that is FAULTED after it was FAULTED before, with the
same code (R111, R118). -/
def Obligations.HostAccessesRaiseNoFault : Prop :=
  ∀ (op : HostOp) (s s' : State), hostAct op s = .next s' →
    (∀ c, s'.enc.phase = .faulted c → s.enc.phase = .faulted c) ∧
    (∀ c, s'.dec.phase = .faulted c → s.dec.phase = .faulted c)

/-- No step is refused, and a step ends in a fault of the model only for a host access to a word that does
not exist; that such an access stops the model is its own choice (log entry 7). -/
def Obligations.OnlyAbsentWordsStopTheMachine : Prop :=
  ∀ s : State, (∀ r, step s ≠ .refused r) ∧
    (∀ f, step s = .fault f → nextAgent s = .host ∧
      ∃ a rest, (∃ v, s.hostOps = .readPm a :: rest ∨ s.hostOps = .writePm a v :: rest) ∧ s.pmWords ≤ a ∨
        (∃ v, s.hostOps = .readLm a :: rest ∨ s.hostOps = .writeLm a v :: rest) ∧ s.lmWords ≤ a)

/-! ### Invariants -/

/-- Every step keeps the running decode command's registers as R106 and R18 say: the cursor counts the
window positions passed, the buffers lie inside their memories, D.ip never wraps (inferences the spec marks as
its own: R106, and R18's 'D.ip cannot wrap'). In strict mode D.ip stays nonnegative and D.L stays within the
source buffer, as the checks S2 and S4 make it (R105). -/
def Obligations.StepKeepsDecoderRegisters : Prop :=
  ∀ s s' : State, DecoderOk s → step s = .next s' → DecoderOk s'

/-- Every step keeps the running encode command's registers in order: scan indices, cursor, at most three
words a flushed pixel, a tracked high value of at least 1 (R79, R82; the bound and the sign are inferences the
spec marks as its own: R86, C8). -/
def Obligations.StepKeepsEncoderRegisters : Prop :=
  ∀ s s' : State, EncoderOk s → step s = .next s' → EncoderOk s'

/-- Every step keeps both memories in their canonical form. -/
def Obligations.StepKeepsMemoriesCanonical : Prop :=
  ∀ s s' : State, MemoriesCanonical s → step s = .next s' → MemoriesCanonical s'

/-- Every step writes only words that exist: with the units' registers in order, every byte listed belongs to
a word of its memory before and after (R37, R39, R41, R48). That a memory is a list of bytes, 4 to a PM word
and 2 to an LM word, is the model's choice (log entries 4 and 5), and so is the stop of a host access to a word
that does not exist (log entry 7). -/
def Obligations.StepWritesOnlyExistingWords : Prop :=
  ∀ s s' : State, EncoderOk s → DecoderOk s → CellsExist s → step s = .next s' → CellsExist s'

/-- Every step keeps RESULT and FINFO as their phase says: both 0 while BUSY, RESULT 0 when FAULTED, FINFO 0
when IDLE or DONE (R27, R28, R114, R131). -/
def Obligations.StepKeepsResultAndFinfo : Prop :=
  ∀ s s' : State, RegistersOk s → step s = .next s' → RegistersOk s'

/-- While reset is asserted every register keeps its reset value, whatever steps are taken (R124; that the
host's register writes have no effect then is the model's reading, log entry 9). -/
def Obligations.StepKeepsAssertedReset : Prop :=
  ∀ s s' : State, ResetHolds s → step s = .next s' → ResetHolds s'

/-- The state after reset meets every invariant. The registers are as R36 says. The model's choices it rests on:
the reset input is released (log entry 16), which makes ResetHolds hold at once, and the memories list no byte
(log entries 4 and 5), which makes MemoriesCanonical and CellsExist hold at once. -/
def Obligations.ResetMeetsEveryInvariant : Prop :=
  DecoderOk State.reset ∧ EncoderOk State.reset ∧ MemoriesCanonical State.reset ∧
    CellsExist State.reset ∧ RegistersOk State.reset ∧ ResetHolds State.reset
end

