-- ==== Sys2Proof/Laws/Memory.lean ====
section
/-! SUPPORT. The laws of a memory: reading what was written, leaving every other word alone, and keeping
the canonical form (R37, R46). -/

namespace Sys2Proof.Machine

/-! ### Cells -/

theorem findCell_setCell_same (l : List Host.Cell) (k : Nat) (v : BitVec 8) :
    findCell (setCell l k v) k = some v := by
  induction l with
  | nil => simp [setCell, findCell]
  | cons c l ih =>
    obtain ⟨a, b⟩ := c
    unfold setCell
    split
    · simp [findCell]
    · split
      · simp [findCell]
      · rename_i h1 h2
        simp only [findCell]
        rw [if_neg (by omega), ih]

theorem findCell_setCell_ne (l : List Host.Cell) (k j : Nat) (v : BitVec 8) (h : j ≠ k) :
    findCell (setCell l k v) j = findCell l j := by
  induction l with
  | nil => simp [setCell, findCell]; omega
  | cons c l ih =>
    obtain ⟨a, b⟩ := c
    unfold setCell
    split
    · simp only [findCell]; rw [if_neg (by omega)]
    · split
      · rename_i h1 h2
        simp only [findCell]
        rw [if_neg (by omega), if_neg (by omega)]
      · simp only [findCell, ih]

theorem risingFrom_mono {lo lo' : Nat} {l : List Host.Cell} (h : lo' ≤ lo)
    (hr : risingFrom lo l = true) : risingFrom lo' l = true := by
  cases l with
  | nil => rfl
  | cons c l =>
    obtain ⟨a, b⟩ := c
    simp only [risingFrom, Bool.and_eq_true, decide_eq_true_eq] at hr ⊢
    exact ⟨by omega, hr.2⟩

theorem risingFrom_setCell {l : List Host.Cell} {lo k : Nat} (v : BitVec 8) (hk : lo ≤ k)
    (hr : risingFrom lo l = true) : risingFrom lo (setCell l k v) = true := by
  induction l generalizing lo with
  | nil => simp [setCell, risingFrom, hk]
  | cons c l ih =>
    obtain ⟨a, b⟩ := c
    simp only [risingFrom, Bool.and_eq_true, decide_eq_true_eq] at hr
    unfold setCell
    split
    · simp only [risingFrom, Bool.and_eq_true, decide_eq_true_eq]
      exact ⟨hk, by omega, hr.2⟩
    · split
      · rename_i h1 h2
        subst h2
        simp only [risingFrom, Bool.and_eq_true, decide_eq_true_eq]
        exact ⟨hk, hr.2⟩
      · simp only [risingFrom, Bool.and_eq_true, decide_eq_true_eq]
        exact ⟨hr.1, ih (by omega) hr.2⟩

theorem findCell_below {l : List Host.Cell} {lo k : Nat} (hr : risingFrom lo l = true) (hk : k < lo) :
    findCell l k = none := by
  induction l generalizing lo with
  | nil => rfl
  | cons c l ih =>
    obtain ⟨a, b⟩ := c
    simp only [risingFrom, Bool.and_eq_true, decide_eq_true_eq] at hr
    simp only [findCell]
    rw [if_neg (by omega), ih hr.2 (by omega)]

/-- Canonical lists that give every address the same listing are the same list: equal memories are equal
data. -/
theorem risingFrom_ext {l l' : List Host.Cell} {lo lo' : Nat} (hl : risingFrom lo l = true)
    (hl' : risingFrom lo' l' = true) (h : ∀ k, findCell l k = findCell l' k) : l = l' := by
  induction l generalizing l' lo lo' with
  | nil =>
    cases l' with
    | nil => rfl
    | cons c' l' => obtain ⟨a', b'⟩ := c'; have := h a'; simp [findCell] at this
  | cons c l ih =>
    obtain ⟨a, b⟩ := c
    cases l' with
    | nil => have := h a; simp [findCell] at this
    | cons c' l' =>
      obtain ⟨a', b'⟩ := c'
      simp only [risingFrom, Bool.and_eq_true, decide_eq_true_eq] at hl hl'
      have haa : a = a' := by
        rcases Nat.lt_trichotomy a a' with hlt | heq | hgt
        · have := h a
          simp only [findCell, if_true] at this
          rw [if_neg (by omega), findCell_below hl'.2 (by omega)] at this
          cases this
        · exact heq
        · have := h a'
          simp only [findCell, if_true] at this
          rw [if_neg (by omega), findCell_below hl.2 (by omega)] at this
          cases this
      subst haa
      have hb : b = b' := by have := h a; simpa [findCell] using this
      subst hb
      congr 1
      refine ih hl.2 hl'.2 fun k => ?_
      by_cases hk : a = k
      · subst hk; rw [findCell_below hl.2 (by omega), findCell_below hl'.2 (by omega)]
      · have := h k; simpa [findCell, hk] using this

/-- Two canonical memories that list the same bytes are equal. -/
theorem Memory.ext_of_wf {m m' : Memory} (hm : m.wf = true) (hm' : m'.wf = true)
    (h : ∀ k, findCell m.cells k = findCell m'.cells k) : m = m' := by
  obtain ⟨l⟩ := m
  obtain ⟨l'⟩ := m'
  have : l = l' := risingFrom_ext hm hm' h
  rw [this]

/-! ### Bytes -/

@[simp] theorem byte_setByte_same (draw : Nat → BitVec 8) (m : Memory) (k : Nat) (v : BitVec 8) :
    (m.setByte k v).byte draw k = v := by
  simp [Memory.byte, Memory.setByte, findCell_setCell_same]

theorem byte_setByte_ne (draw : Nat → BitVec 8) (m : Memory) (k j : Nat) (v : BitVec 8) (h : j ≠ k) :
    (m.setByte k v).byte draw j = m.byte draw j := by
  simp [Memory.byte, Memory.setByte, findCell_setCell_ne _ _ _ _ h]

theorem wf_setByte {m : Memory} (k : Nat) (v : BitVec 8) (h : m.wf = true) :
    (m.setByte k v).wf = true :=
  risingFrom_setCell v (Nat.zero_le k) h

theorem all_setCell {p : Nat → Bool} {l : List Host.Cell} (k : Nat) (v : BitVec 8) (hk : p k = true)
    (h : (l.all fun c => p c.1) = true) : ((setCell l k v).all fun c => p c.1) = true := by
  induction l with
  | nil => simp [setCell, hk]
  | cons c l ih =>
    obtain ⟨a, b⟩ := c
    simp only [List.all_cons, Bool.and_eq_true] at h
    unfold setCell
    split
    · simp only [List.all_cons, Bool.and_eq_true]; exact ⟨hk, h.1, h.2⟩
    · split
      · simp only [List.all_cons, Bool.and_eq_true]; exact ⟨hk, h.2⟩
      · simp only [List.all_cons, Bool.and_eq_true]; exact ⟨h.1, ih h.2⟩

theorem below_setByte {n : Nat} {m : Memory} (k : Nat) (v : BitVec 8) (hk : k < n)
    (h : m.below n = true) : (m.setByte k v).below n = true :=
  all_setCell (p := fun a => decide (a < n)) k v (by simpa using hk) h

/-! ### Words of LM -/

theorem append_extract_16 (v : Word16) : v.extractLsb' 8 8 ++ v.extractLsb' 0 8 = v := by
  ext i hi
  simp only [BitVec.getElem_append]
  split <;> simp <;> (congr 1; try (change _ = i; omega))

theorem lmRead_lmWrite_same (m : Memory) (a : Nat) (v : Word16) : lmRead (lmWrite m a v) a = v := by
  unfold lmRead lmWrite
  rw [byte_setByte_same, byte_setByte_ne _ _ _ _ _ (by omega), byte_setByte_same]
  exact append_extract_16 v

theorem lmRead_lmWrite_ne (m : Memory) (a b : Nat) (v : Word16) (h : b ≠ a) :
    lmRead (lmWrite m a v) b = lmRead m b := by
  unfold lmRead lmWrite
  rw [byte_setByte_ne _ _ _ _ _ (by omega), byte_setByte_ne _ _ _ _ _ (by omega),
    byte_setByte_ne _ _ _ _ _ (by omega), byte_setByte_ne _ _ _ _ _ (by omega)]

theorem wf_lmWrite {m : Memory} (a : Nat) (v : Word16) (h : m.wf = true) :
    (lmWrite m a v).wf = true :=
  wf_setByte _ _ (wf_setByte _ _ h)

theorem below_lmWrite {n : Nat} {m : Memory} (a : Nat) (v : Word16) (ha : a < n)
    (h : m.below (2 * n) = true) : (lmWrite m a v).below (2 * n) = true :=
  below_setByte _ _ (by omega) (below_setByte _ _ (by omega) h)

/-! ### Words of PM -/

theorem append_extract_32 (v : Pixel) :
    (v.extractLsb' 24 8 ++ v.extractLsb' 16 8) ++ (v.extractLsb' 8 8 ++ v.extractLsb' 0 8) = v := by
  ext i hi
  simp only [BitVec.getElem_append]
  split
  · split <;> simp <;> (congr 1; try (change _ = i; omega))
  · split <;> simp <;> (congr 1; try (change _ = i; omega))

theorem pmRead_pmWrite_same (m : Memory) (a : Nat) (v : Pixel) : pmRead (pmWrite m a v) a = v := by
  unfold pmRead pmWrite
  rw [byte_setByte_same]
  rw [byte_setByte_ne _ _ (4 * a + 3) (4 * a + 2) _ (by omega), byte_setByte_same]
  rw [byte_setByte_ne _ _ (4 * a + 3) (4 * a + 1) _ (by omega),
    byte_setByte_ne _ _ (4 * a + 2) (4 * a + 1) _ (by omega), byte_setByte_same]
  rw [byte_setByte_ne _ _ (4 * a + 3) (4 * a) _ (by omega),
    byte_setByte_ne _ _ (4 * a + 2) (4 * a) _ (by omega),
    byte_setByte_ne _ _ (4 * a + 1) (4 * a) _ (by omega), byte_setByte_same]
  exact append_extract_32 v

theorem byte_pmWrite_ne (draw : Nat → BitVec 8) (m : Memory) (a j : Nat) (v : Pixel)
    (h : j < 4 * a ∨ 4 * a + 4 ≤ j) : (pmWrite m a v).byte draw j = m.byte draw j := by
  unfold pmWrite
  rw [byte_setByte_ne _ _ _ _ _ (by omega), byte_setByte_ne _ _ _ _ _ (by omega),
    byte_setByte_ne _ _ _ _ _ (by omega), byte_setByte_ne _ _ _ _ _ (by omega)]

theorem pmRead_pmWrite_ne (m : Memory) (a b : Nat) (v : Pixel) (h : b ≠ a) :
    pmRead (pmWrite m a v) b = pmRead m b := by
  unfold pmRead
  rw [byte_pmWrite_ne _ _ _ _ _ (by omega), byte_pmWrite_ne _ _ _ _ _ (by omega),
    byte_pmWrite_ne _ _ _ _ _ (by omega), byte_pmWrite_ne _ _ _ _ _ (by omega)]

theorem wf_pmWrite {m : Memory} (a : Nat) (v : Pixel) (h : m.wf = true) :
    (pmWrite m a v).wf = true :=
  wf_setByte _ _ (wf_setByte _ _ (wf_setByte _ _ (wf_setByte _ _ h)))

theorem below_pmWrite {n : Nat} {m : Memory} (a : Nat) (v : Pixel) (ha : a < n)
    (h : m.below (4 * n) = true) : (pmWrite m a v).below (4 * n) = true :=
  below_setByte _ _ (by omega) (below_setByte _ _ (by omega)
    (below_setByte _ _ (by omega) (below_setByte _ _ (by omega) h)))

end Sys2Proof.Machine
end

