-- ==== Sys2Proof/Laws/State.lean ====
section
/-! SUPPORT. What each update of the state leaves in each field, true by rfl, so that no later proof
unfolds a record update. -/

namespace Sys2Proof.Machine

/-! ### The machine's updates -/

@[simp] theorem encGoOn_pmLast (s : State) (a : Args) (w : EncWork) (m : Memory) :
    (s.encGoOn a w m).pmLast = s.pmLast := rfl

@[simp] theorem encGoOn_lmLast (s : State) (a : Args) (w : EncWork) (m : Memory) :
    (s.encGoOn a w m).lmLast = s.lmLast := rfl

@[simp] theorem encGoOn_pm (s : State) (a : Args) (w : EncWork) (m : Memory) :
    (s.encGoOn a w m).pm = s.pm := rfl

@[simp] theorem encGoOn_lm (s : State) (a : Args) (w : EncWork) (m : Memory) :
    (s.encGoOn a w m).lm = m := rfl

@[simp] theorem encGoOn_enc (s : State) (a : Args) (w : EncWork) (m : Memory) :
    (s.encGoOn a w m).enc = { s.enc with phase := .running a w } := rfl

@[simp] theorem encGoOn_dec (s : State) (a : Args) (w : EncWork) (m : Memory) :
    (s.encGoOn a w m).dec = s.dec := rfl

@[simp] theorem encGoOn_decStrict (s : State) (a : Args) (w : EncWork) (m : Memory) :
    (s.encGoOn a w m).decStrict = s.decStrict := rfl

@[simp] theorem encGoOn_inReset (s : State) (a : Args) (w : EncWork) (m : Memory) :
    (s.encGoOn a w m).inReset = s.inReset := rfl

@[simp] theorem encGoOn_hostOps (s : State) (a : Args) (w : EncWork) (m : Memory) :
    (s.encGoOn a w m).hostOps = s.hostOps := rfl

@[simp] theorem encGoOn_hostSaw (s : State) (a : Args) (w : EncWork) (m : Memory) :
    (s.encGoOn a w m).hostSaw = s.hostSaw := rfl

@[simp] theorem encGoOn_sched (s : State) (a : Args) (w : EncWork) (m : Memory) :
    (s.encGoOn a w m).sched = s.sched := rfl

@[simp] theorem encGoOn_draws (s : State) (a : Args) (w : EncWork) (m : Memory) :
    (s.encGoOn a w m).draws = s.draws := rfl

@[simp] theorem decGoOn_pmLast (s : State) (k : DecLatch) (w : DecWork) (m : Memory) :
    (s.decGoOn k w m).pmLast = s.pmLast := rfl

@[simp] theorem decGoOn_lmLast (s : State) (k : DecLatch) (w : DecWork) (m : Memory) :
    (s.decGoOn k w m).lmLast = s.lmLast := rfl

@[simp] theorem decGoOn_pm (s : State) (k : DecLatch) (w : DecWork) (m : Memory) :
    (s.decGoOn k w m).pm = m := rfl

@[simp] theorem decGoOn_lm (s : State) (k : DecLatch) (w : DecWork) (m : Memory) :
    (s.decGoOn k w m).lm = s.lm := rfl

@[simp] theorem decGoOn_enc (s : State) (k : DecLatch) (w : DecWork) (m : Memory) :
    (s.decGoOn k w m).enc = s.enc := rfl

@[simp] theorem decGoOn_dec (s : State) (k : DecLatch) (w : DecWork) (m : Memory) :
    (s.decGoOn k w m).dec = { s.dec with phase := .running k w } := rfl

@[simp] theorem decGoOn_decStrict (s : State) (k : DecLatch) (w : DecWork) (m : Memory) :
    (s.decGoOn k w m).decStrict = s.decStrict := rfl

@[simp] theorem decGoOn_inReset (s : State) (k : DecLatch) (w : DecWork) (m : Memory) :
    (s.decGoOn k w m).inReset = s.inReset := rfl

@[simp] theorem decGoOn_hostOps (s : State) (k : DecLatch) (w : DecWork) (m : Memory) :
    (s.decGoOn k w m).hostOps = s.hostOps := rfl

@[simp] theorem decGoOn_hostSaw (s : State) (k : DecLatch) (w : DecWork) (m : Memory) :
    (s.decGoOn k w m).hostSaw = s.hostSaw := rfl

@[simp] theorem decGoOn_sched (s : State) (k : DecLatch) (w : DecWork) (m : Memory) :
    (s.decGoOn k w m).sched = s.sched := rfl

@[simp] theorem decGoOn_draws (s : State) (k : DecLatch) (w : DecWork) (m : Memory) :
    (s.decGoOn k w m).draws = s.draws := rfl

@[simp] theorem raiseFault_enc_pmLast (c : FaultCode) (i : Int) (s : State) :
    (raiseFault .enc c i s).pmLast = s.pmLast := rfl

@[simp] theorem raiseFault_enc_lmLast (c : FaultCode) (i : Int) (s : State) :
    (raiseFault .enc c i s).lmLast = s.lmLast := rfl

@[simp] theorem raiseFault_enc_pm (c : FaultCode) (i : Int) (s : State) :
    (raiseFault .enc c i s).pm = s.pm := rfl

@[simp] theorem raiseFault_enc_lm (c : FaultCode) (i : Int) (s : State) :
    (raiseFault .enc c i s).lm = s.lm := rfl

@[simp] theorem raiseFault_enc_enc (c : FaultCode) (i : Int) (s : State) :
    (raiseFault .enc c i s).enc = s.enc.raise c i := rfl

@[simp] theorem raiseFault_enc_dec (c : FaultCode) (i : Int) (s : State) :
    (raiseFault .enc c i s).dec = s.dec := rfl

@[simp] theorem raiseFault_enc_decStrict (c : FaultCode) (i : Int) (s : State) :
    (raiseFault .enc c i s).decStrict = s.decStrict := rfl

@[simp] theorem raiseFault_enc_inReset (c : FaultCode) (i : Int) (s : State) :
    (raiseFault .enc c i s).inReset = s.inReset := rfl

@[simp] theorem raiseFault_enc_hostOps (c : FaultCode) (i : Int) (s : State) :
    (raiseFault .enc c i s).hostOps = s.hostOps := rfl

@[simp] theorem raiseFault_enc_hostSaw (c : FaultCode) (i : Int) (s : State) :
    (raiseFault .enc c i s).hostSaw = s.hostSaw := rfl

@[simp] theorem raiseFault_enc_sched (c : FaultCode) (i : Int) (s : State) :
    (raiseFault .enc c i s).sched = s.sched := rfl

@[simp] theorem raiseFault_enc_draws (c : FaultCode) (i : Int) (s : State) :
    (raiseFault .enc c i s).draws = s.draws := rfl

@[simp] theorem raiseFault_dec_pmLast (c : FaultCode) (i : Int) (s : State) :
    (raiseFault .dec c i s).pmLast = s.pmLast := rfl

@[simp] theorem raiseFault_dec_lmLast (c : FaultCode) (i : Int) (s : State) :
    (raiseFault .dec c i s).lmLast = s.lmLast := rfl

@[simp] theorem raiseFault_dec_pm (c : FaultCode) (i : Int) (s : State) :
    (raiseFault .dec c i s).pm = s.pm := rfl

@[simp] theorem raiseFault_dec_lm (c : FaultCode) (i : Int) (s : State) :
    (raiseFault .dec c i s).lm = s.lm := rfl

@[simp] theorem raiseFault_dec_enc (c : FaultCode) (i : Int) (s : State) :
    (raiseFault .dec c i s).enc = s.enc := rfl

@[simp] theorem raiseFault_dec_dec (c : FaultCode) (i : Int) (s : State) :
    (raiseFault .dec c i s).dec = s.dec.raise c i := rfl

@[simp] theorem raiseFault_dec_decStrict (c : FaultCode) (i : Int) (s : State) :
    (raiseFault .dec c i s).decStrict = s.decStrict := rfl

@[simp] theorem raiseFault_dec_inReset (c : FaultCode) (i : Int) (s : State) :
    (raiseFault .dec c i s).inReset = s.inReset := rfl

@[simp] theorem raiseFault_dec_hostOps (c : FaultCode) (i : Int) (s : State) :
    (raiseFault .dec c i s).hostOps = s.hostOps := rfl

@[simp] theorem raiseFault_dec_hostSaw (c : FaultCode) (i : Int) (s : State) :
    (raiseFault .dec c i s).hostSaw = s.hostSaw := rfl

@[simp] theorem raiseFault_dec_sched (c : FaultCode) (i : Int) (s : State) :
    (raiseFault .dec c i s).sched = s.sched := rfl

@[simp] theorem raiseFault_dec_draws (c : FaultCode) (i : Int) (s : State) :
    (raiseFault .dec c i s).draws = s.draws := rfl

@[simp] theorem completeCommand_enc_pmLast (r : Reg32) (s : State) :
    (completeCommand .enc r s).pmLast = s.pmLast := rfl

@[simp] theorem completeCommand_enc_lmLast (r : Reg32) (s : State) :
    (completeCommand .enc r s).lmLast = s.lmLast := rfl

@[simp] theorem completeCommand_enc_pm (r : Reg32) (s : State) :
    (completeCommand .enc r s).pm = s.pm := rfl

@[simp] theorem completeCommand_enc_lm (r : Reg32) (s : State) :
    (completeCommand .enc r s).lm = s.lm := rfl

@[simp] theorem completeCommand_enc_enc (r : Reg32) (s : State) :
    (completeCommand .enc r s).enc = s.enc.complete r := rfl

@[simp] theorem completeCommand_enc_dec (r : Reg32) (s : State) :
    (completeCommand .enc r s).dec = s.dec := rfl

@[simp] theorem completeCommand_enc_decStrict (r : Reg32) (s : State) :
    (completeCommand .enc r s).decStrict = s.decStrict := rfl

@[simp] theorem completeCommand_enc_inReset (r : Reg32) (s : State) :
    (completeCommand .enc r s).inReset = s.inReset := rfl

@[simp] theorem completeCommand_enc_hostOps (r : Reg32) (s : State) :
    (completeCommand .enc r s).hostOps = s.hostOps := rfl

@[simp] theorem completeCommand_enc_hostSaw (r : Reg32) (s : State) :
    (completeCommand .enc r s).hostSaw = s.hostSaw := rfl

@[simp] theorem completeCommand_enc_sched (r : Reg32) (s : State) :
    (completeCommand .enc r s).sched = s.sched := rfl

@[simp] theorem completeCommand_enc_draws (r : Reg32) (s : State) :
    (completeCommand .enc r s).draws = s.draws := rfl

@[simp] theorem completeCommand_dec_pmLast (r : Reg32) (s : State) :
    (completeCommand .dec r s).pmLast = s.pmLast := rfl

@[simp] theorem completeCommand_dec_lmLast (r : Reg32) (s : State) :
    (completeCommand .dec r s).lmLast = s.lmLast := rfl

@[simp] theorem completeCommand_dec_pm (r : Reg32) (s : State) :
    (completeCommand .dec r s).pm = s.pm := rfl

@[simp] theorem completeCommand_dec_lm (r : Reg32) (s : State) :
    (completeCommand .dec r s).lm = s.lm := rfl

@[simp] theorem completeCommand_dec_enc (r : Reg32) (s : State) :
    (completeCommand .dec r s).enc = s.enc := rfl

@[simp] theorem completeCommand_dec_dec (r : Reg32) (s : State) :
    (completeCommand .dec r s).dec = s.dec.complete r := rfl

@[simp] theorem completeCommand_dec_decStrict (r : Reg32) (s : State) :
    (completeCommand .dec r s).decStrict = s.decStrict := rfl

@[simp] theorem completeCommand_dec_inReset (r : Reg32) (s : State) :
    (completeCommand .dec r s).inReset = s.inReset := rfl

@[simp] theorem completeCommand_dec_hostOps (r : Reg32) (s : State) :
    (completeCommand .dec r s).hostOps = s.hostOps := rfl

@[simp] theorem completeCommand_dec_hostSaw (r : Reg32) (s : State) :
    (completeCommand .dec r s).hostSaw = s.hostSaw := rfl

@[simp] theorem completeCommand_dec_sched (r : Reg32) (s : State) :
    (completeCommand .dec r s).sched = s.sched := rfl

@[simp] theorem completeCommand_dec_draws (r : Reg32) (s : State) :
    (completeCommand .dec r s).draws = s.draws := rfl

@[simp] theorem acceptGo_enc_pmLast (s : State) :
    (acceptGo .enc s).pmLast = s.pmLast := rfl

@[simp] theorem acceptGo_enc_lmLast (s : State) :
    (acceptGo .enc s).lmLast = s.lmLast := rfl

@[simp] theorem acceptGo_enc_pm (s : State) :
    (acceptGo .enc s).pm = s.pm := rfl

@[simp] theorem acceptGo_enc_lm (s : State) :
    (acceptGo .enc s).lm = s.lm := rfl

@[simp] theorem acceptGo_enc_enc (s : State) :
    (acceptGo .enc s).enc = s.enc.go s.enc.args := rfl

@[simp] theorem acceptGo_enc_dec (s : State) :
    (acceptGo .enc s).dec = s.dec := rfl

@[simp] theorem acceptGo_enc_decStrict (s : State) :
    (acceptGo .enc s).decStrict = s.decStrict := rfl

@[simp] theorem acceptGo_enc_inReset (s : State) :
    (acceptGo .enc s).inReset = s.inReset := rfl

@[simp] theorem acceptGo_enc_hostOps (s : State) :
    (acceptGo .enc s).hostOps = s.hostOps := rfl

@[simp] theorem acceptGo_enc_hostSaw (s : State) :
    (acceptGo .enc s).hostSaw = s.hostSaw := rfl

@[simp] theorem acceptGo_enc_sched (s : State) :
    (acceptGo .enc s).sched = s.sched := rfl

@[simp] theorem acceptGo_enc_draws (s : State) :
    (acceptGo .enc s).draws = s.draws := rfl

@[simp] theorem acceptGo_dec_pmLast (s : State) :
    (acceptGo .dec s).pmLast = s.pmLast := rfl

@[simp] theorem acceptGo_dec_lmLast (s : State) :
    (acceptGo .dec s).lmLast = s.lmLast := rfl

@[simp] theorem acceptGo_dec_pm (s : State) :
    (acceptGo .dec s).pm = s.pm := rfl

@[simp] theorem acceptGo_dec_lm (s : State) :
    (acceptGo .dec s).lm = s.lm := rfl

@[simp] theorem acceptGo_dec_enc (s : State) :
    (acceptGo .dec s).enc = s.enc := rfl

@[simp] theorem acceptGo_dec_dec (s : State) :
    (acceptGo .dec s).dec = s.dec.go { args := s.dec.args, strict := s.decStrict } := rfl

@[simp] theorem acceptGo_dec_decStrict (s : State) :
    (acceptGo .dec s).decStrict = s.decStrict := rfl

@[simp] theorem acceptGo_dec_inReset (s : State) :
    (acceptGo .dec s).inReset = s.inReset := rfl

@[simp] theorem acceptGo_dec_hostOps (s : State) :
    (acceptGo .dec s).hostOps = s.hostOps := rfl

@[simp] theorem acceptGo_dec_hostSaw (s : State) :
    (acceptGo .dec s).hostSaw = s.hostSaw := rfl

@[simp] theorem acceptGo_dec_sched (s : State) :
    (acceptGo .dec s).sched = s.sched := rfl

@[simp] theorem acceptGo_dec_draws (s : State) :
    (acceptGo .dec s).draws = s.draws := rfl

@[simp] theorem clearCommand_enc_pmLast (s : State) :
    (clearCommand .enc s).pmLast = s.pmLast := rfl

@[simp] theorem clearCommand_enc_lmLast (s : State) :
    (clearCommand .enc s).lmLast = s.lmLast := rfl

@[simp] theorem clearCommand_enc_pm (s : State) :
    (clearCommand .enc s).pm = s.pm := rfl

@[simp] theorem clearCommand_enc_lm (s : State) :
    (clearCommand .enc s).lm = s.lm := rfl

@[simp] theorem clearCommand_enc_enc (s : State) :
    (clearCommand .enc s).enc = s.enc.clear := rfl

@[simp] theorem clearCommand_enc_dec (s : State) :
    (clearCommand .enc s).dec = s.dec := rfl

@[simp] theorem clearCommand_enc_decStrict (s : State) :
    (clearCommand .enc s).decStrict = s.decStrict := rfl

@[simp] theorem clearCommand_enc_inReset (s : State) :
    (clearCommand .enc s).inReset = s.inReset := rfl

@[simp] theorem clearCommand_enc_hostOps (s : State) :
    (clearCommand .enc s).hostOps = s.hostOps := rfl

@[simp] theorem clearCommand_enc_hostSaw (s : State) :
    (clearCommand .enc s).hostSaw = s.hostSaw := rfl

@[simp] theorem clearCommand_enc_sched (s : State) :
    (clearCommand .enc s).sched = s.sched := rfl

@[simp] theorem clearCommand_enc_draws (s : State) :
    (clearCommand .enc s).draws = s.draws := rfl

@[simp] theorem clearCommand_dec_pmLast (s : State) :
    (clearCommand .dec s).pmLast = s.pmLast := rfl

@[simp] theorem clearCommand_dec_lmLast (s : State) :
    (clearCommand .dec s).lmLast = s.lmLast := rfl

@[simp] theorem clearCommand_dec_pm (s : State) :
    (clearCommand .dec s).pm = s.pm := rfl

@[simp] theorem clearCommand_dec_lm (s : State) :
    (clearCommand .dec s).lm = s.lm := rfl

@[simp] theorem clearCommand_dec_enc (s : State) :
    (clearCommand .dec s).enc = s.enc := rfl

@[simp] theorem clearCommand_dec_dec (s : State) :
    (clearCommand .dec s).dec = s.dec.clear := rfl

@[simp] theorem clearCommand_dec_decStrict (s : State) :
    (clearCommand .dec s).decStrict = s.decStrict := rfl

@[simp] theorem clearCommand_dec_inReset (s : State) :
    (clearCommand .dec s).inReset = s.inReset := rfl

@[simp] theorem clearCommand_dec_hostOps (s : State) :
    (clearCommand .dec s).hostOps = s.hostOps := rfl

@[simp] theorem clearCommand_dec_hostSaw (s : State) :
    (clearCommand .dec s).hostSaw = s.hostSaw := rfl

@[simp] theorem clearCommand_dec_sched (s : State) :
    (clearCommand .dec s).sched = s.sched := rfl

@[simp] theorem clearCommand_dec_draws (s : State) :
    (clearCommand .dec s).draws = s.draws := rfl

@[simp] theorem assertReset_pmLast (s : State) :
    (assertReset s).pmLast = s.pmLast := rfl

@[simp] theorem assertReset_lmLast (s : State) :
    (assertReset s).lmLast = s.lmLast := rfl

@[simp] theorem assertReset_pm (s : State) :
    (assertReset s).pm = s.pm := rfl

@[simp] theorem assertReset_lm (s : State) :
    (assertReset s).lm = s.lm := rfl

@[simp] theorem assertReset_enc (s : State) :
    (assertReset s).enc = CodecUnit.reset := rfl

@[simp] theorem assertReset_dec (s : State) :
    (assertReset s).dec = CodecUnit.reset := rfl

@[simp] theorem assertReset_decStrict (s : State) :
    (assertReset s).decStrict = false := rfl

@[simp] theorem assertReset_inReset (s : State) :
    (assertReset s).inReset = true := rfl

@[simp] theorem assertReset_hostOps (s : State) :
    (assertReset s).hostOps = s.hostOps := rfl

@[simp] theorem assertReset_hostSaw (s : State) :
    (assertReset s).hostSaw = s.hostSaw := rfl

@[simp] theorem assertReset_sched (s : State) :
    (assertReset s).sched = s.sched := rfl

@[simp] theorem assertReset_draws (s : State) :
    (assertReset s).draws = s.draws := rfl

@[simp] theorem releaseReset_pmLast (s : State) :
    (releaseReset s).pmLast = s.pmLast := rfl

@[simp] theorem releaseReset_lmLast (s : State) :
    (releaseReset s).lmLast = s.lmLast := rfl

@[simp] theorem releaseReset_pm (s : State) :
    (releaseReset s).pm = s.pm := rfl

@[simp] theorem releaseReset_lm (s : State) :
    (releaseReset s).lm = s.lm := rfl

@[simp] theorem releaseReset_enc (s : State) :
    (releaseReset s).enc = s.enc := rfl

@[simp] theorem releaseReset_dec (s : State) :
    (releaseReset s).dec = s.dec := rfl

@[simp] theorem releaseReset_decStrict (s : State) :
    (releaseReset s).decStrict = s.decStrict := rfl

@[simp] theorem releaseReset_inReset (s : State) :
    (releaseReset s).inReset = false := rfl

@[simp] theorem releaseReset_hostOps (s : State) :
    (releaseReset s).hostOps = s.hostOps := rfl

@[simp] theorem releaseReset_hostSaw (s : State) :
    (releaseReset s).hostSaw = s.hostSaw := rfl

@[simp] theorem releaseReset_sched (s : State) :
    (releaseReset s).sched = s.sched := rfl

@[simp] theorem releaseReset_draws (s : State) :
    (releaseReset s).draws = s.draws := rfl

@[simp] theorem saw_pmLast (s : State) (v : Reg32) :
    (s.saw v).pmLast = s.pmLast := rfl

@[simp] theorem saw_lmLast (s : State) (v : Reg32) :
    (s.saw v).lmLast = s.lmLast := rfl

@[simp] theorem saw_pm (s : State) (v : Reg32) :
    (s.saw v).pm = s.pm := rfl

@[simp] theorem saw_lm (s : State) (v : Reg32) :
    (s.saw v).lm = s.lm := rfl

@[simp] theorem saw_enc (s : State) (v : Reg32) :
    (s.saw v).enc = s.enc := rfl

@[simp] theorem saw_dec (s : State) (v : Reg32) :
    (s.saw v).dec = s.dec := rfl

@[simp] theorem saw_decStrict (s : State) (v : Reg32) :
    (s.saw v).decStrict = s.decStrict := rfl

@[simp] theorem saw_inReset (s : State) (v : Reg32) :
    (s.saw v).inReset = s.inReset := rfl

@[simp] theorem saw_hostOps (s : State) (v : Reg32) :
    (s.saw v).hostOps = s.hostOps := rfl

@[simp] theorem saw_hostSaw (s : State) (v : Reg32) :
    (s.saw v).hostSaw = v :: s.hostSaw := rfl

@[simp] theorem saw_sched (s : State) (v : Reg32) :
    (s.saw v).sched = s.sched := rfl

@[simp] theorem saw_draws (s : State) (v : Reg32) :
    (s.saw v).draws = s.draws := rfl

/-! ### A unit's updates -/

@[simp] theorem CodecUnit.raise_args {κ ω : Type} (u : CodecUnit κ ω) (c : FaultCode) (i : Int) :
    (u.raise c i).args = u.args := rfl

@[simp] theorem CodecUnit.raise_result {κ ω : Type} (u : CodecUnit κ ω) (c : FaultCode) (i : Int) :
    (u.raise c i).result = u.result := rfl

@[simp] theorem CodecUnit.raise_finfo {κ ω : Type} (u : CodecUnit κ ω) (c : FaultCode) (i : Int) :
    (u.raise c i).finfo = int32 i := rfl

@[simp] theorem CodecUnit.raise_phase {κ ω : Type} (u : CodecUnit κ ω) (c : FaultCode) (i : Int) :
    (u.raise c i).phase = .faulted c := rfl

@[simp] theorem CodecUnit.complete_args {κ ω : Type} (u : CodecUnit κ ω) (r : Reg32) :
    (u.complete r).args = u.args := rfl

@[simp] theorem CodecUnit.complete_result {κ ω : Type} (u : CodecUnit κ ω) (r : Reg32) :
    (u.complete r).result = r := rfl

@[simp] theorem CodecUnit.complete_finfo {κ ω : Type} (u : CodecUnit κ ω) (r : Reg32) :
    (u.complete r).finfo = u.finfo := rfl

@[simp] theorem CodecUnit.complete_phase {κ ω : Type} (u : CodecUnit κ ω) (r : Reg32) :
    (u.complete r).phase = .done := rfl

/-! ### The choice of the agent -/

@[simp] theorem afterChoice_pmLast (s : State) : (afterChoice s).pmLast = s.pmLast := by
  unfold afterChoice; split <;> rfl

@[simp] theorem afterChoice_lmLast (s : State) : (afterChoice s).lmLast = s.lmLast := by
  unfold afterChoice; split <;> rfl

@[simp] theorem afterChoice_pm (s : State) : (afterChoice s).pm = s.pm := by
  unfold afterChoice; split <;> rfl

@[simp] theorem afterChoice_lm (s : State) : (afterChoice s).lm = s.lm := by
  unfold afterChoice; split <;> rfl

@[simp] theorem afterChoice_enc (s : State) : (afterChoice s).enc = s.enc := by
  unfold afterChoice; split <;> rfl

@[simp] theorem afterChoice_dec (s : State) : (afterChoice s).dec = s.dec := by
  unfold afterChoice; split <;> rfl

@[simp] theorem afterChoice_decStrict (s : State) : (afterChoice s).decStrict = s.decStrict := by
  unfold afterChoice; split <;> rfl

@[simp] theorem afterChoice_inReset (s : State) : (afterChoice s).inReset = s.inReset := by
  unfold afterChoice; split <;> rfl

@[simp] theorem afterChoice_hostOps (s : State) : (afterChoice s).hostOps = s.hostOps := by
  unfold afterChoice; split <;> rfl

@[simp] theorem afterChoice_hostSaw (s : State) : (afterChoice s).hostSaw = s.hostSaw := by
  unfold afterChoice; split <;> rfl

theorem afterChoice_cons (s : State) (g : Agent) (rest : List Agent) (h : s.sched = g :: rest) :
    afterChoice s = { s with sched := rest } := by
  unfold afterChoice; rw [h]

theorem nextAgent_cons (s : State) (g : Agent) (rest : List Agent) (h : s.sched = g :: rest) :
    nextAgent s = g := by
  unfold nextAgent; rw [h]

theorem drawnSchedule_ne_nil (n : Nat) : drawnSchedule n ≠ [] := by simp [drawnSchedule]

theorem enc_mem_drawnSchedule (n : Nat) : Agent.enc ∈ drawnSchedule n := by simp [drawnSchedule]

theorem dec_mem_drawnSchedule (n : Nat) : Agent.dec ∈ drawnSchedule n := by simp [drawnSchedule]

/-- The choice of the agent takes one agent off State's schedule, or off a new stretch. -/
theorem choice_cases (s : State) :
    (∃ rest, s.sched = nextAgent s :: rest ∧ afterChoice s = { s with sched := rest }) ∨
    (∃ rest, s.sched = [] ∧ drawnSchedule s.draws = nextAgent s :: rest ∧
      afterChoice s = { s with sched := rest, draws := s.draws + 1 }) := by
  rcases hs : s.sched with _ | ⟨g, rest⟩
  · rcases hd : drawnSchedule s.draws with _ | ⟨g, rest⟩
    · exact absurd hd (drawnSchedule_ne_nil _)
    · exact .inr ⟨rest, rfl, by simp [nextAgent, hs, hd], by simp [afterChoice, hs, hd]⟩
  · exact .inl ⟨rest, by rw [nextAgent_cons s g rest hs], afterChoice_cons s g rest hs⟩

/-! ### Working registers -/

@[simp] theorem nextPixel_ip (w : EncWork) : w.nextPixel.ip = w.ip + 1 := rfl
@[simp] theorem nextPixel_xe (w : EncWork) : w.nextPixel.xe = w.xe := rfl
@[simp] theorem nextPixel_x1 (w : EncWork) : w.nextPixel.x1 = w.x1 := rfl
@[simp] theorem nextPixel_iz (w : EncWork) : w.nextPixel.iz = w.iz := rfl
@[simp] theorem nextPixel_pv (w : EncWork) : w.nextPixel.pv = w.pv := rfl
@[simp] theorem nextPixel_nv (w : EncWork) : w.nextPixel.nv = w.nv := rfl
@[simp] theorem nextPixel_hi (w : EncWork) : w.nextPixel.hi = w.hi := rfl
@[simp] theorem nextPixel_op (w : EncWork) : w.nextPixel.op = w.op := rfl

@[simp] theorem nextSegment_ip (w : EncWork) (i : BitVec 33) : (w.nextSegment i).ip = w.ip := rfl
@[simp] theorem nextSegment_xe (w : EncWork) (i : BitVec 33) : (w.nextSegment i).xe = w.xe := rfl
@[simp] theorem nextSegment_x1 (w : EncWork) (i : BitVec 33) : (w.nextSegment i).x1 = i + 1 := rfl
@[simp] theorem nextSegment_iz (w : EncWork) (i : BitVec 33) : (w.nextSegment i).iz = i + 1 := rfl
@[simp] theorem nextSegment_pv (w : EncWork) (i : BitVec 33) : (w.nextSegment i).pv = w.nv := rfl
@[simp] theorem nextSegment_nv (w : EncWork) (i : BitVec 33) : (w.nextSegment i).nv = w.nv := rfl
@[simp] theorem nextSegment_hi (w : EncWork) (i : BitVec 33) : (w.nextSegment i).hi = w.hi := rfl
@[simp] theorem nextSegment_op (w : EncWork) (i : BitVec 33) : (w.nextSegment i).op = w.op := rfl

@[simp] theorem afterRun_xe (w : DecWork) (sp : RunSpan) : (w.afterRun sp).xe = w.xe := rfl
@[simp] theorem afterRun_L (w : DecWork) (sp : RunSpan) : (w.afterRun sp).L = w.L := rfl
@[simp] theorem afterRun_high (w : DecWork) (sp : RunSpan) : (w.afterRun sp).high = w.high := rfl
@[simp] theorem afterRun_ip (w : DecWork) (sp : RunSpan) : (w.afterRun sp).ip = w.ip + 1 := rfl
@[simp] theorem afterRun_x1 (w : DecWork) (sp : RunSpan) :
    (w.afterRun sp).x1 = (sp.x2 + 1).toNat := rfl
@[simp] theorem afterRun_op (w : DecWork) (sp : RunSpan) :
    (w.afterRun sp).op = BitVec.ofNat 32 (w.op.toNat + sp.n.toNat) := rfl

end Sys2Proof.Machine
end

