-- ==== Sys2Proof/Laws/Ops.lean ====
section
/-! SUPPORT. What each shared operation over buffers, units and registers can do, said once. -/

namespace Sys2Proof.Machine

/-! ### Buffers (R40 to R43) -/

theorem inBuffer_iff (len : Reg32) (i : Int) : inBuffer len i = true ↔ 0 ≤ i ∧ i < len.toNat := by
  simp [inBuffer]

theorem inBuffer_natCast (len : Reg32) (i : Nat) : inBuffer len i = true ↔ i < len.toNat := by
  rw [inBuffer_iff]; omega

theorem encSrcRead_of_lt (a : Args) (pm : Memory) (i : Nat) (h : i < a.srcLen.toNat) :
    encSrcRead a pm i = some (pmRead pm (a.srcBase.toNat + i)) := by
  unfold encSrcRead
  rw [if_pos ((inBuffer_natCast _ _).2 h)]
  rfl

theorem decSrcRead_of_lt (a : Args) (lm : Memory) (i : Nat) (h : i < a.srcLen.toNat) :
    decSrcRead a lm i = some (lmRead lm (a.srcBase.toNat + i)) := by
  unfold decSrcRead
  rw [if_pos ((inBuffer_natCast _ _).2 h)]
  rfl

theorem decSrcRead_eq_none (a : Args) (lm : Memory) (i : Int) :
    decSrcRead a lm i = none ↔ ¬(0 ≤ i ∧ i < a.srcLen.toNat) := by
  unfold decSrcRead
  split <;> rename_i h <;> rw [inBuffer_iff] at h <;> simp [h]

theorem encDstWrite_natCast (a : Args) (lm : Memory) (i : Nat) (v : Word16) :
    encDstWrite a lm i v =
      if i < a.dstLen.toNat then some (lmWrite lm (a.dstBase.toNat + i) v) else none := by
  unfold encDstWrite
  by_cases h : i < a.dstLen.toNat
  · rw [if_pos ((inBuffer_natCast _ _).2 h), if_pos h]; rfl
  · rw [if_neg (fun h' => h ((inBuffer_natCast _ _).1 h')), if_neg h]

theorem decDstWrite_natCast (a : Args) (pm : Memory) (i : Nat) (v : Pixel) :
    decDstWrite a pm i v =
      if i < a.dstLen.toNat then some (pmWrite pm (a.dstBase.toNat + i) v) else none := by
  unfold decDstWrite
  by_cases h : i < a.dstLen.toNat
  · rw [if_pos ((inBuffer_natCast _ _).2 h), if_pos h]; rfl
  · rw [if_neg (fun h' => h ((inBuffer_natCast _ _).1 h')), if_neg h]

/-- A successful destination write of DEC: its element is in the buffer and one word of PM changes. -/
theorem decDstWrite_some {a : Args} {pm pm' : Memory} {i : Int} {v : Pixel}
    (h : decDstWrite a pm i v = some pm') :
    0 ≤ i ∧ i < a.dstLen.toNat ∧ pm' = pmWrite pm (a.dstBase.toNat + i.toNat) v := by
  unfold decDstWrite at h
  split at h
  · rename_i hb
    rw [inBuffer_iff] at hb
    exact ⟨hb.1, hb.2, (Option.some.inj h).symm⟩
  · cases h

/-- A successful destination write of ENC: its element is in the buffer and one word of LM changes. -/
theorem encDstWrite_some {a : Args} {lm lm' : Memory} {i : Int} {v : Word16}
    (h : encDstWrite a lm i v = some lm') :
    0 ≤ i ∧ i < a.dstLen.toNat ∧ lm' = lmWrite lm (a.dstBase.toNat + i.toNat) v := by
  unfold encDstWrite at h
  split at h
  · rename_i hb
    rw [inBuffer_iff] at hb
    exact ⟨hb.1, hb.2, (Option.some.inj h).symm⟩
  · cases h

/-! ### What writes of a command keep of a memory -/

/-- The memory stays canonical, and where the destination buffer lies inside the memory every listed byte
still belongs to a word that exists. -/
def PmKept (a : Args) (pm pm' : Memory) : Prop :=
  (pm.wf = true → pm'.wf = true) ∧
    ∀ n, a.dstBase.toNat + a.dstLen.toNat ≤ n → pm.below (4 * n) = true → pm'.below (4 * n) = true

/-- `PmKept` for LM. -/
def LmKept (a : Args) (lm lm' : Memory) : Prop :=
  (lm.wf = true → lm'.wf = true) ∧
    ∀ n, a.dstBase.toNat + a.dstLen.toNat ≤ n → lm.below (2 * n) = true → lm'.below (2 * n) = true

theorem PmKept.refl (a : Args) (pm : Memory) : PmKept a pm pm := ⟨id, fun _ _ => id⟩

theorem LmKept.refl (a : Args) (lm : Memory) : LmKept a lm lm := ⟨id, fun _ _ => id⟩

theorem PmKept.trans {a : Args} {m₁ m₂ m₃ : Memory} (h : PmKept a m₁ m₂) (h' : PmKept a m₂ m₃) :
    PmKept a m₁ m₃ :=
  ⟨fun w => h'.1 (h.1 w), fun n hn b => h'.2 n hn (h.2 n hn b)⟩

theorem LmKept.trans {a : Args} {m₁ m₂ m₃ : Memory} (h : LmKept a m₁ m₂) (h' : LmKept a m₂ m₃) :
    LmKept a m₁ m₃ :=
  ⟨fun w => h'.1 (h.1 w), fun n hn b => h'.2 n hn (h.2 n hn b)⟩

theorem PmSameOutside.refl (a : Args) (pm : Memory) : PmSameOutside a pm pm := fun _ _ => rfl

theorem PmSameOutside.trans {a : Args} {m₁ m₂ m₃ : Memory} (h : PmSameOutside a m₁ m₂)
    (h' : PmSameOutside a m₂ m₃) : PmSameOutside a m₁ m₃ :=
  fun x hx => (h' x hx).trans (h x hx)

theorem LmSameOutside.refl (a : Args) (lm : Memory) : LmSameOutside a lm lm := fun _ _ => rfl

theorem LmSameOutside.trans {a : Args} {m₁ m₂ m₃ : Memory} (h : LmSameOutside a m₁ m₂)
    (h' : LmSameOutside a m₂ m₃) : LmSameOutside a m₁ m₃ :=
  fun x hx => (h' x hx).trans (h x hx)

theorem decDstWrite_frame {a : Args} {pm pm' : Memory} {i : Int} {v : Pixel}
    (h : decDstWrite a pm i v = some pm') : PmSameOutside a pm pm' ∧ PmKept a pm pm' := by
  obtain ⟨h0, h1, rfl⟩ := decDstWrite_some h
  refine ⟨fun x hx => pmRead_pmWrite_ne _ _ _ _ (by omega), fun w => wf_pmWrite _ _ w, ?_⟩
  exact fun n hn b => below_pmWrite _ _ (by omega) b

theorem encDstWrite_frame {a : Args} {lm lm' : Memory} {i : Int} {v : Word16}
    (h : encDstWrite a lm i v = some lm') : LmSameOutside a lm lm' ∧ LmKept a lm lm' := by
  obtain ⟨h0, h1, rfl⟩ := encDstWrite_some h
  refine ⟨fun x hx => lmRead_lmWrite_ne _ _ _ _ (by omega), fun w => wf_lmWrite _ _ w, ?_⟩
  exact fun n hn b => below_lmWrite _ _ (by omega) b

/-! ### Runs of destination writes (R95, R99, R100, R104) -/

/-- The memory a run of writes leaves, whether it ends well or on DST_BOUNDS. -/
def Stored.mem : Stored → Memory
  | .ok pm => pm
  | .bounds _ pm => pm

/-- A run of writes reaches only the destination buffer. -/
theorem storeRun_frame (a : Args) (v : Pixel) (n : Nat) (i : Int) (pm : Memory) :
    PmSameOutside a pm (storeRun a v n i pm).mem ∧ PmKept a pm (storeRun a v n i pm).mem := by
  induction n generalizing i pm with
  | zero => exact ⟨PmSameOutside.refl _ _, PmKept.refl _ _⟩
  | succ n ih =>
    unfold storeRun
    split
    · exact ⟨PmSameOutside.refl _ _, PmKept.refl _ _⟩
    · rename_i pm' h
      have h1 := decDstWrite_frame h
      have h2 := ih (i + 1) pm'
      exact ⟨h1.1.trans h2.1, h1.2.trans h2.2⟩

/-- A run of writes that fits the destination buffer ends well, writes its elements and nothing else. -/
theorem storeRun_of_fits (a : Args) (v : Pixel) (n i : Nat) (pm : Memory)
    (h : n = 0 ∨ i + n ≤ a.dstLen.toNat) :
    ∃ pm', storeRun a v n i pm = .ok pm' ∧
      (∀ j, j < n → pmRead pm' (a.dstBase.toNat + i + j) = v) ∧
      ∀ x, (x < a.dstBase.toNat + i ∨ a.dstBase.toNat + i + n ≤ x) → pmRead pm' x = pmRead pm x := by
  induction n generalizing i pm with
  | zero => exact ⟨pm, rfl, fun j hj => absurd hj (Nat.not_lt_zero j), fun _ _ => rfl⟩
  | succ n ih =>
    have hi : i < a.dstLen.toNat := by omega
    obtain ⟨pm', h1, h2, h3⟩ := ih (i + 1) (pmWrite pm (a.dstBase.toNat + i) v) (by omega)
    refine ⟨pm', ?_, ?_, ?_⟩
    · unfold storeRun
      rw [decDstWrite_natCast, if_pos hi]
      exact h1
    · intro j hj
      cases j with
      | zero =>
        rw [Nat.add_zero, h3 _ (by omega), pmRead_pmWrite_same]
      | succ j =>
        have := h2 j (by omega)
        rw [show a.dstBase.toNat + i + (j + 1) = a.dstBase.toNat + (i + 1) + j from by omega]
        exact this
    · intro x hx
      rw [h3 x (by omega), pmRead_pmWrite_ne _ _ _ _ (by omega)]

/-- A run of writes that ends on DST_BOUNDS names its first element outside the buffer. -/
theorem storeRun_bounds {a : Args} {v : Pixel} {n i : Nat} {pm pm' : Memory} {e : Int}
    (h : storeRun a v n i pm = .bounds e pm') :
    e = max i a.dstLen.toNat ∧ a.dstLen.toNat < i + n := by
  induction n generalizing i pm with
  | zero => simp [storeRun] at h
  | succ n ih =>
    unfold storeRun at h
    rw [decDstWrite_natCast] at h
    by_cases hi : i < a.dstLen.toNat
    · rw [if_pos hi] at h
      have := ih (i := i + 1) h
      omega
    · rw [if_neg hi] at h
      obtain ⟨h1, h2⟩ := Stored.bounds.inj h
      omega

/-! ### Units (R24, R30 to R33, R114, R115) -/

theorem go_of_busy {κ ω : Type} {u : CodecUnit κ ω} (k : κ) (h : u.phase.busy = true) :
    u.go k = u := by
  simp [CodecUnit.go, h]

theorem go_of_not_busy {κ ω : Type} {u : CodecUnit κ ω} (k : κ) (h : u.phase.busy = false) :
    u.go k = { u with phase := .accepted k, result := 0, finfo := 0 } := by
  simp [CodecUnit.go, h]

theorem clear_of_busy {κ ω : Type} {u : CodecUnit κ ω} (h : u.phase.busy = true) :
    u.clear = u := by
  simp [CodecUnit.clear, h]

theorem clear_of_not_busy {κ ω : Type} {u : CodecUnit κ ω} (h : u.phase.busy = false) :
    u.clear = { u with phase := .idle, finfo := 0 } := by
  simp [CodecUnit.clear, h]

/-- What a write to a unit's CONTROL can do (R23, R30, R32). -/
theorem writeControl_cases (u : UnitId) (v : Reg32) (s : State) :
    (v.getLsbD 0 = true ∧ writeControl u v s = acceptGo u s) ∨
    (v.getLsbD 0 = false ∧ v.getLsbD 1 = true ∧ writeControl u v s = clearCommand u s) ∨
    (v.getLsbD 0 = false ∧ v.getLsbD 1 = false ∧ writeControl u v s = s) := by
  unfold writeControl
  cases h0 : v.getLsbD 0 <;> cases h1 : v.getLsbD 1 <;> simp

/-- What a write of one of a unit's registers can do: nothing, GO or CLEAR, DEC's CONFIG, or the
argument registers. -/
theorem writeUnitReg_cases (s : State) (u : UnitId) (r : RegName) (v : Reg32) :
    writeUnitReg s u r v = s ∨ writeUnitReg s u r v = acceptGo u s ∨
    writeUnitReg s u r v = clearCommand u s ∨
    writeUnitReg s u r v = { s with decStrict := v.getLsbD 0 } ∨
    writeUnitReg s u r v = { s with enc := { s.enc with args := s.enc.args.write r v } } ∨
    writeUnitReg s u r v = { s with dec := { s.dec with args := s.dec.args.write r v } } := by
  by_cases hc : r = .control
  · subst hc
    have h : writeUnitReg s u .control v = writeControl u v s := by cases u <;> rfl
    rw [h]
    rcases writeControl_cases u v s with ⟨_, h⟩ | ⟨_, _, h⟩ | ⟨_, _, h⟩
    · exact .inr (.inl h)
    · exact .inr (.inr (.inl h))
    · exact .inl h
  · cases u with
    | enc =>
      refine .inr (.inr (.inr (.inr (.inl ?_))))
      cases r <;> first | rfl | exact absurd rfl hc
    | dec =>
      by_cases hg : r = .config
      · subst hg; exact .inr (.inr (.inr (.inl rfl)))
      · refine .inr (.inr (.inr (.inr (.inr ?_))))
        cases r <;> first | rfl | exact absurd rfl hc | exact absurd rfl hg

/-- What a register write can do (R22 to R32, R124): nothing, or, where reset is released, a write of one
of the units' registers. -/
theorem writeReg_cases (s : State) (off : Nat) (v : Reg32) :
    writeReg s off v = s ∨
      ∃ u r, s.inReset = false ∧ regOf off = some (u, r) ∧ writeReg s off v = writeUnitReg s u r v := by
  unfold writeReg
  by_cases hr : s.inReset = true
  · rw [if_pos hr]; exact .inl rfl
  · rw [if_neg hr]
    cases ho : regOf off with
    | none => exact .inl rfl
    | some p => exact .inr ⟨p.1, p.2, by simpa using hr, rfl, rfl⟩

/-! ### Reaching the running decode command -/

/-- `exec`'s meanings act on a running decode command and are refused elsewhere (R17, R92). -/
theorem inCommand_next {s s' : State} {f : DecLatch → DecWork → State}
    (h : inCommand s f = .next s') : ∃ k w, s.dec.phase = .running k w ∧ s' = f k w := by
  unfold inCommand at h
  split at h
  · rename_i k w hp
    exact ⟨k, w, hp, (Host.Outcome.next.inj h).symm⟩
  all_goals cases h

theorem inCommand_running {s : State} {k : DecLatch} {w : DecWork} (f : DecLatch → DecWork → State)
    (h : s.dec.phase = .running k w) : inCommand s f = .next (f k w) := by
  unfold inCommand
  rw [h]

end Sys2Proof.Machine
end

