-- ==== Sys2Proof/Laws/Exec.lean ====
section
/-! SUPPORT. What the shared operations behind the instructions' meanings can do, said once (R93, R94,
R101). -/

namespace Sys2Proof.Machine

/-! ### 32-bit signed registers (R7, R94) -/

theorem fitsInt32_iff (t : Int) : fitsInt32 t = true ↔ -2147483648 ≤ t ∧ t ≤ 2147483647 := by
  simp [fitsInt32]

theorem int32_toInt (t : Int) (h : -2147483648 ≤ t ∧ t ≤ 2147483647) : (int32 t).toInt = t := by
  unfold int32
  rw [BitVec.toInt_ofInt]
  exact Int.bmod_eq_of_le (by omega) (by omega)

theorem clamp_toInt (p : Pixel) : (clamp p).toInt = max 0 p.toInt := by
  unfold clamp
  have h1 := BitVec.le_toInt p
  have h2 := BitVec.toInt_lt (x := p)
  exact int32_toInt _ (by norm_num at h1 h2 ⊢; omega)

/-- A set-high's value always fits (R94: SH cannot overflow). -/
theorem shValue_range (d : BitVec 12) (w : Word16) :
    -134217728 ≤ shValue d w ∧ shValue d w ≤ 134217727 := by
  unfold shValue sext16 shWeight
  have h1 := BitVec.le_toInt w
  have h2 := BitVec.toInt_lt (x := w)
  have h3 := d.isLt
  norm_num at h1 h2 h3 ⊢
  omega

/-! ### Changing the high value (R94) -/

/-- What a change of the high value can do: go on with it, or raise HIGH_OVERFLOW at D.ip. -/
theorem changeHigh_cases (w : DecWork) (t : Int) (s : State) (f : DecWork → State) :
    ((-2147483648 ≤ t ∧ t ≤ 2147483647) ∧ (int32 t).toInt = t ∧
      changeHigh w t s f = f { w with high := int32 t }) ∨
    (¬(-2147483648 ≤ t ∧ t ≤ 2147483647) ∧
      changeHigh w t s f = raiseFault .dec .highOverflow w.ip.toInt s) := by
  unfold changeHigh
  by_cases h : fitsInt32 t = true
  · have h' := (fitsInt32_iff t).1 h
    exact .inl ⟨h', int32_toInt t h', by rw [if_pos h]⟩
  · exact .inr ⟨fun h' => h ((fitsInt32_iff t).2 h'), by rw [if_neg h]⟩

/-! ### Pixel runs (R93, R95, R99, R100) -/

/-- The span's last position, one past it. -/
theorem spanOf_x2 (start : Reg32) (w : DecWork) (d : BitVec 12) :
    ((spanOf start w d).x2 + 1).toNat = w.x1 + d.toNat := by
  simp only [spanOf]
  omega

/-- The in-window count, in naturals. -/
theorem spanOf_n (start : Reg32) (w : DecWork) (d : BitVec 12) :
    (spanOf start w d).n.toNat =
      min (w.x1 + d.toNat) (w.xe + 1) - max w.x1 start.toNat := by
  simp only [spanOf]
  omega

/-- What a run of one value can do: go on with the pixels written, or raise DST_BOUNDS. -/
theorem runPixels_cases (k : DecLatch) (w : DecWork) (d : BitVec 12) (v : Pixel) (s : State) :
    (∃ pm, PmSameOutside k.args s.pm pm ∧ PmKept k.args s.pm pm ∧
      storeRun k.args v (spanOf k.args.start w d).n.toNat w.op.toNat s.pm = .ok pm ∧
      runPixels k w d v s = s.decGoOn k (w.afterRun (spanOf k.args.start w d)) pm) ∨
    (∃ pm i, PmSameOutside k.args s.pm pm ∧ PmKept k.args s.pm pm ∧
      storeRun k.args v (spanOf k.args.start w d).n.toNat w.op.toNat s.pm = .bounds i pm ∧
      runPixels k w d v s = raiseFault .dec .dstBounds i { s with pm := pm }) := by
  have hf := storeRun_frame k.args v (spanOf k.args.start w d).n.toNat w.op.toNat s.pm
  unfold runPixels
  cases h : storeRun k.args v (spanOf k.args.start w d).n.toNat w.op.toNat s.pm with
  | ok pm =>
    rw [h] at hf
    exact .inl ⟨pm, hf.1, hf.2, rfl, by simp only [h]⟩
  | bounds i pm =>
    rw [h] at hf
    exact .inr ⟨pm, i, hf.1, hf.2, rfl, by simp only [h]⟩

/-- What a zero run with a high end can do: go on, or raise DST_BOUNDS. -/
theorem runZerosThenHigh_cases (k : DecLatch) (w : DecWork) (d : BitVec 12) (s : State) :
    (∃ pm, PmSameOutside k.args s.pm pm ∧ PmKept k.args s.pm pm ∧
      runZerosThenHigh k w d s = s.decGoOn k (w.afterRun (spanOf k.args.start w d)) pm) ∨
    (∃ pm i, PmSameOutside k.args s.pm pm ∧ PmKept k.args s.pm pm ∧
      runZerosThenHigh k w d s = raiseFault .dec .dstBounds i { s with pm := pm }) := by
  have hf := storeRun_frame k.args 0 (spanOf k.args.start w d).n.toNat w.op.toNat s.pm
  unfold runZerosThenHigh
  cases h : storeRun k.args 0 (spanOf k.args.start w d).n.toNat w.op.toNat s.pm with
  | bounds i pm =>
    rw [h] at hf
    exact .inr ⟨pm, i, hf.1, hf.2, by simp only [h]⟩
  | ok pm =>
    rw [h] at hf
    simp only [h]
    split
    · split
      · exact .inr ⟨pm, _, hf.1, hf.2, rfl⟩
      · rename_i pm' h'
        have h2 := decDstWrite_frame h'
        exact .inl ⟨pm', hf.1.trans h2.1, hf.2.trans h2.2, rfl⟩
    · exact .inl ⟨pm, hf.1, hf.2, rfl⟩

/-! ### One pixel (R101, R102) -/

/-- What storing one pixel can do: skip it outside the window, write it, or raise DST_BOUNDS. -/
theorem emitPixel_cases (k : DecLatch) (w : DecWork) (s : State) :
    (inWindow k.args.start w = false ∧
      emitPixel k w s = s.decGoOn k { w with x1 := w.x1 + 1, ip := w.ip + 1 } s.pm) ∨
    (inWindow k.args.start w = true ∧ w.op.toNat < k.args.dstLen.toNat ∧
      emitPixel k w s = s.decGoOn k { w with x1 := w.x1 + 1, ip := w.ip + 1, op := w.op + 1 }
        (pmWrite s.pm (k.args.dstBase.toNat + w.op.toNat) w.high)) ∨
    (inWindow k.args.start w = true ∧ k.args.dstLen.toNat ≤ w.op.toNat ∧
      emitPixel k w s = raiseFault .dec .dstBounds w.op.toNat s) := by
  unfold emitPixel
  cases hw : inWindow k.args.start w
  · exact .inl ⟨rfl, rfl⟩
  · rw [decDstWrite_natCast]
    by_cases h : w.op.toNat < k.args.dstLen.toNat
    · exact .inr (.inl ⟨rfl, h, by simp [h]⟩)
    · exact .inr (.inr ⟨rfl, by omega, by simp [h]⟩)

end Sys2Proof.Machine
end

