-- ==== Sys2Proof/Laws/Encoder.lean ====
section
/-! SUPPORT. What ENC's emission procedures can do, said once: each writes a list of words at its cursor,
as far as the destination buffer goes (R81 to R84). -/

namespace Sys2Proof.Machine

/-! ### Writing a list of words at the cursor -/

theorem WordsWritten.nil (a : Args) (op : Nat) (lm : Memory) : WordsWritten a op [] lm lm :=
  ⟨fun j x h => by simp at h, fun _ _ => rfl⟩

theorem WordsWritten.append {a : Args} {op : Nat} {xs ys : List Word16} {m₁ m₂ m₃ : Memory}
    (h : WordsWritten a op xs m₁ m₂) (h' : WordsWritten a (op + xs.length) ys m₂ m₃) :
    WordsWritten a op (xs ++ ys) m₁ m₃ := by
  refine ⟨fun j x hj => ?_, fun y hy => ?_⟩
  · by_cases hlt : j < xs.length
    · rw [List.getElem?_append_left hlt] at hj
      rw [h'.2 _ (by omega)]
      exact h.1 j x hj
    · rw [List.getElem?_append_right (by omega)] at hj
      have := h'.1 (j - xs.length) x hj
      rwa [show a.dstBase.toNat + (op + xs.length) + (j - xs.length) = a.dstBase.toNat + op + j from by
        omega] at this
  · rw [List.length_append] at hy
    rw [h'.2 _ (by omega), h.2 _ (by omega)]

theorem WordsWritten.single (a : Args) (op : Nat) (x : Word16) (lm : Memory) :
    WordsWritten a op [x] lm (lmWrite lm (a.dstBase.toNat + op) x) := by
  refine ⟨fun j y hj => ?_, fun y hy => ?_⟩
  · cases j with
    | zero =>
      simp only [List.getElem?_cons_zero, Option.some.injEq] at hj
      rw [Nat.add_zero, lmRead_lmWrite_same, hj]
    | succ j => simp at hj
  · rw [List.length_singleton] at hy
    exact lmRead_lmWrite_ne _ _ _ _ (by omega)

/-- Words written below the end of the destination buffer leave the rest of LM alone. -/
theorem WordsWritten.sameOutside {a : Args} {op : Nat} {ws : List Word16} {lm lm' : Memory}
    (h : WordsWritten a op ws lm lm') (hl : op + ws.length ≤ a.dstLen.toNat) :
    LmSameOutside a lm lm' :=
  fun y hy => h.2 y (by omega)

/-- What a procedure of ENC that emits the words `ws` answers, with `x` and the registers `w'` but for
E.op: the words are written as far as the buffer goes, and where one does not fit DST_BOUNDS is raised at
the buffer's length (R81). -/
def EmitsWords {α : Type} (a : Args) (ws : List Word16) (x : α) (lm : Memory) (w w' : EncWork)
    (r : EncRes α) : Prop :=
  ∃ lm', WordsWritten a w.op.toNat (ws.take (a.dstLen.toNat - w.op.toNat)) lm lm' ∧ LmKept a lm lm' ∧
    r = if w.op.toNat + ws.length ≤ a.dstLen.toNat then
        .ok x lm' { w' with op := w.op + BitVec.ofNat 32 ws.length }
      else .raise .dstBounds a.dstLen.toNat lm'

theorem op_add_toNat {a : Args} {o : BitVec 32} {n : Nat} (h : o.toNat + n ≤ a.dstLen.toNat) :
    (o + BitVec.ofNat 32 n).toNat = o.toNat + n := by
  have := a.dstLen.isLt
  rw [BitVec.toNat_add, BitVec.toNat_ofNat]
  norm_num at this ⊢
  omega

theorem EmitsWords.nil {α : Type} (a : Args) (x : α) (lm : Memory) (w w' : EncWork)
    (hop : w.op.toNat ≤ a.dstLen.toNat) (hw : w'.op = w.op) :
    EmitsWords a [] x lm w w' (.ok x lm w') := by
  refine ⟨lm, ?_, LmKept.refl _ _, ?_⟩
  · rw [List.take_nil]; exact WordsWritten.nil _ _ _
  · rw [List.length_nil, if_pos (by omega)]
    congr 1
    cases w'
    simp_all

/-- `Emit(x)` (R81). -/
theorem emit_emits (a : Args) (x : Word16) (lm : Memory) (w : EncWork)
    (hop : w.op.toNat ≤ a.dstLen.toNat) : EmitsWords a [x] () lm w w (emit a x lm w) := by
  unfold emit
  rw [encDstWrite_natCast]
  by_cases h : w.op.toNat < a.dstLen.toNat
  · rw [if_pos h]
    refine ⟨lmWrite lm (a.dstBase.toNat + w.op.toNat) x, ?_, ?_, ?_⟩
    · rw [List.take_of_length_le (by simp; omega)]
      exact WordsWritten.single _ _ _ _
    · exact ⟨fun hw => wf_lmWrite _ _ hw, fun n hn hb => below_lmWrite _ _ (by omega) hb⟩
    · rw [List.length_singleton, if_pos (by omega)]
      rfl
  · rw [if_neg h]
    refine ⟨lm, ?_, LmKept.refl _ _, ?_⟩
    · rw [show a.dstLen.toNat - w.op.toNat = 0 from by omega, List.take_zero]
      exact WordsWritten.nil _ _ _
    · have he : w.op.toNat = a.dstLen.toNat := by omega
      rw [List.length_singleton, if_neg (by omega), ← he]

/-- Two procedures in sequence emit the words of both. -/
theorem EmitsWords.andThen {α β : Type} {a : Args} {xs ys : List Word16} {x : α} {y : β}
    {lm : Memory} {w w₁ w₂ : EncWork} {r : EncRes α} {f : α → Memory → EncWork → EncRes β}
    (hop : w.op.toNat ≤ a.dstLen.toNat) (h : EmitsWords a xs x lm w w₁ r)
    (h' : ∀ lm' w', w' = { w₁ with op := w.op + BitVec.ofNat 32 xs.length } →
      w'.op.toNat = w.op.toNat + xs.length → w'.op.toNat ≤ a.dstLen.toNat →
      EmitsWords a ys y lm' w' w₂ (f x lm' w')) :
    EmitsWords a (xs ++ ys) y lm w w₂ (r.andThen f) := by
  obtain ⟨lm₁, hw₁, hk₁, hr⟩ := h
  by_cases hfit : w.op.toNat + xs.length ≤ a.dstLen.toNat
  · rw [if_pos hfit] at hr
    have hadd := op_add_toNat hfit
    obtain ⟨lm₂, hw₂, hk₂, hr₂⟩ := h' lm₁ { w₁ with op := w.op + BitVec.ofNat 32 xs.length } rfl hadd
      (by change (w.op + _).toNat ≤ _; omega)
    refine ⟨lm₂, ?_, hk₁.trans hk₂, ?_⟩
    · rw [List.take_append, List.take_of_length_le (l := xs) (by omega)]
      rw [List.take_of_length_le (by omega)] at hw₁
      refine hw₁.append ?_
      rw [hadd] at hw₂
      rwa [show a.dstLen.toNat - w.op.toNat - xs.length = a.dstLen.toNat - (w.op.toNat + xs.length) from by
        omega]
    · rw [hr]
      change f x lm₁ _ = _
      rw [hr₂]
      change (if (w.op + _).toNat + _ ≤ _ then _ else _) = _
      rw [hadd, List.length_append]
      by_cases h2 : w.op.toNat + xs.length + ys.length ≤ a.dstLen.toNat
      · rw [if_pos h2, if_pos (by omega)]
        congr 2
        rw [BitVec.add_assoc]
        congr 1
        apply BitVec.eq_of_toNat_eq
        simp
      · rw [if_neg h2, if_neg (by omega)]
  · rw [if_neg hfit] at hr
    refine ⟨lm₁, ?_, hk₁, ?_⟩
    · rw [List.take_append, show a.dstLen.toNat - w.op.toNat - xs.length = 0 from by omega,
        List.take_zero, List.append_nil]
      exact hw₁
    · rw [hr, List.length_append, if_neg (by omega)]
      rfl

/-- The registers named on the way may differ in E.op only. -/
theorem EmitsWords.congr {α : Type} {a : Args} {ws : List Word16} {x : α} {lm : Memory}
    {w w₁ w₂ : EncWork} {r : EncRes α} (h : EmitsWords a ws x lm w w₁ r)
    (hw : { w₁ with op := 0 } = { w₂ with op := 0 }) : EmitsWords a ws x lm w w₂ r := by
  obtain ⟨lm', h1, h2, h3⟩ := h
  refine ⟨lm', h1, h2, ?_⟩
  rw [h3]
  cases w₁
  cases w₂
  simp only [EncWork.mk.injEq] at hw
  obtain ⟨rfl, rfl, rfl, rfl, rfl, rfl, rfl, _⟩ := hw
  rfl

/-- An emitted word rewritten in the same step is the new word emitted (R52, R82, R83). -/
theorem emit_rewrite_emits {α : Type} (a : Args) (x y : Word16) (v : α) (lm : Memory) (w : EncWork)
    (hop : w.op.toNat ≤ a.dstLen.toNat) :
    EmitsWords a [y] v lm w w ((emit a x lm w).andThen fun _ lm₁ w₁ =>
      (rewriteLast a y lm₁ w₁).andThen fun _ lm₂ w₂ => .ok v lm₂ w₂) := by
  unfold emit
  rw [encDstWrite_natCast]
  by_cases h : w.op.toNat < a.dstLen.toNat
  · rw [if_pos h]
    have hlen := a.dstLen.isLt
    have hadd : (w.op + 1).toNat = w.op.toNat + 1 := by
      have := op_add_toNat (a := a) (o := w.op) (n := 1) (by omega)
      simpa using this
    have hcast : (((w.op + 1).toNat : Int) - 1) = ((w.op.toNat : Nat) : Int) := by omega
    refine ⟨lmWrite (lmWrite lm (a.dstBase.toNat + w.op.toNat) x) (a.dstBase.toNat + w.op.toNat) y,
      ?_, ?_, ?_⟩
    · rw [List.take_of_length_le (by simp; omega)]
      refine ⟨fun j z hj => ?_, fun z hz => ?_⟩
      · cases j with
        | zero =>
          simp only [List.getElem?_cons_zero, Option.some.injEq] at hj
          rw [Nat.add_zero, lmRead_lmWrite_same, hj]
        | succ j => simp at hj
      · rw [List.length_singleton] at hz
        rw [lmRead_lmWrite_ne _ _ _ _ (by omega), lmRead_lmWrite_ne _ _ _ _ (by omega)]
    · exact ⟨fun hw => wf_lmWrite _ _ (wf_lmWrite _ _ hw),
        fun n hn hb => below_lmWrite _ _ (by omega) (below_lmWrite _ _ (by omega) hb)⟩
    · rw [List.length_singleton, if_pos (by omega)]
      simp only [EncRes.andThen, rewriteLast]
      rw [hcast, encDstWrite_natCast, if_pos h]
      rfl
  · rw [if_neg h]
    refine ⟨lm, ?_, LmKept.refl _ _, ?_⟩
    · rw [show a.dstLen.toNat - w.op.toNat = 0 from by omega, List.take_zero]
      exact WordsWritten.nil _ _ _
    · have he : w.op.toNat = a.dstLen.toNat := by omega
      rw [List.length_singleton, if_neg (by omega), ← he]
      rfl

/-! ### Chunks of a run (R83, R84) -/

/-- The data of the last word `emitChunks` writes. -/
def lastChunk (cap : Nat) : Nat → Nat → Nat → Nat
  | 0, _, last => last
  | fuel + 1, n, last => if n = 0 then last else lastChunk cap fuel (n - cap) (min cap n)

theorem emitChunks_emits (a : Args) (opc cap fuel n last : Nat) (lm : Memory) (w : EncWork)
    (hop : w.op.toNat ≤ a.dstLen.toNat) :
    EmitsWords a (chunkWords opc cap fuel n) (lastChunk cap fuel n last) lm w w
      (emitChunks a opc cap fuel n last lm w) := by
  induction fuel generalizing n last lm w with
  | zero => exact EmitsWords.nil a _ lm w w hop rfl
  | succ fuel ih =>
    unfold emitChunks chunkWords lastChunk
    by_cases hn : n = 0
    · simp only [hn, if_true]
      exact EmitsWords.nil a _ lm w w hop rfl
    · simp only [hn, if_false]
      refine EmitsWords.andThen (xs := [pack opc (min cap n)]) hop (emit_emits a _ lm w hop) ?_
      intro lm' w' hw' _ hle
      have := ih (n - cap) (min cap n) lm' w' hle
      exact this.congr (by subst hw'; rfl)

/-! ### The three procedures of Flush -/

/-- The words and the answer of EmitLevel for a change `dv` to `pv` (R82); none where VALUE_RANGE is
raised. -/
def levelEmission (h : Int) (pv : Pixel) (np nz : Int) : Option (List Word16 × Bool) :=
  let dv := pv.toInt - h
  if dv = 0 then some ([], false)
  else if deltaMax < dv.natAbs then
    if (maxShValue : Int) < pv.toInt then none
    else some ([pack 1 (pv.toNat % shWeight), bits16 (pv.toNat / shWeight : Nat)], false)
  else if np = 1 ∧ nz = 0 then some ([deltaWord dv ||| 0x4000], true)
  else some ([deltaWord dv], false)

/-- Everything EmitLevel can do (R82). -/
theorem emitLevel_emits (a : Args) (np nz : Int) (lm : Memory) (w : EncWork)
    (hop : w.op.toNat ≤ a.dstLen.toNat) :
    match levelEmission w.hi.toInt w.pv np nz with
    | none => emitLevel a np nz lm w = .raise .valueRange w.x1.toNat lm
    | some (ws, handled) =>
      EmitsWords a ws handled lm w { w with hi := w.pv } (emitLevel a np nz lm w) := by
  unfold levelEmission emitLevel
  by_cases h0 : w.pv.toInt - w.hi.toInt = 0
  · simp only [h0, if_true]
    refine (EmitsWords.nil a false lm w w hop rfl).congr ?_
    have : w.pv = w.hi := BitVec.eq_of_toInt_eq (by omega)
    rw [this]
  · simp only [h0, if_false]
    by_cases h1 : deltaMax < (w.pv.toInt - w.hi.toInt).natAbs
    · simp only [h1, if_true]
      by_cases h2 : (maxShValue : Int) < w.pv.toInt
      · simp only [h2, if_true]
      · simp only [h2, if_false]
        have e1 := emit_emits a (pack 1 (w.pv.toNat % shWeight)) lm { w with hi := w.pv } hop
        refine EmitsWords.andThen (w := w) (xs := [pack 1 (w.pv.toNat % shWeight)])
          (ys := [bits16 (w.pv.toNat / shWeight : Nat)]) hop e1 ?_
        intro lm' w' hw' _ hle
        rw [← List.append_nil [bits16 _]]
        refine EmitsWords.andThen hle (emit_emits a _ lm' w' hle) ?_
        intro lm'' w'' hw'' _ hle'
        exact (EmitsWords.nil a false lm'' w'' w'' hle' rfl).congr (by subst hw'' hw'; rfl)
    · simp only [h1, if_false]
      by_cases h3 : np = 1 ∧ nz = 0
      · simp only [h3, and_self, if_true]
        exact emit_rewrite_emits a _ _ true lm { w with hi := w.pv } hop
      · simp only [h3, if_false]
        rw [← List.append_nil [deltaWord _]]
        refine EmitsWords.andThen (w := w) hop (emit_emits a _ lm { w with hi := w.pv } hop) ?_
        intro lm' w' hw' _ hle
        exact (EmitsWords.nil a false lm' w' w' hle rfl).congr (by subst hw'; rfl)

/-- EmitHighs emits the words of `HIGHS np` (R75, R84). -/
theorem emitHighs_emits (a : Args) (np : Int) (lm : Memory) (w : EncWork)
    (hop : w.op.toNat ≤ a.dstLen.toNat) :
    EmitsWords a (highsWords np.toNat) () lm w w (emitHighs a np lm w) := by
  unfold emitHighs highsWords
  rw [← List.append_nil (chunkWords _ _ _ _)]
  refine EmitsWords.andThen hop (emitChunks_emits a 4 hnCap np.toNat np.toNat 0 lm w hop) ?_
  intro lm' w' hw' _ hle
  exact (EmitsWords.nil a () lm' w' w' hle rfl).congr (by subst hw'; rfl)

/-- EmitZeros without fusion emits the words of `ZEROS nz` (R75, R83). -/
theorem emitZeros_unfused_emits (a : Args) (nz np : Int) (lm : Memory) (w : EncWork)
    (hop : w.op.toNat ≤ a.dstLen.toNat) (hf : ¬(np = 1 ∧ 0 < w.pv.toInt)) :
    EmitsWords a (zerosWords nz.toNat) false lm w w (emitZeros a nz np lm w) := by
  unfold emitZeros zerosWords
  rw [← List.append_nil (chunkWords _ _ _ _)]
  refine EmitsWords.andThen hop (emitChunks_emits a 0 znCap nz.toNat nz.toNat 0 lm w hop) ?_
  intro lm' w' hw' _ hle
  rw [if_neg hf]
  exact (EmitsWords.nil a false lm' w' w' hle rfl).congr (by subst hw'; rfl)

/-- The chunk loop's words but for the last, where EmitZeros rewrites the last (R83). -/
theorem emitChunks_rewrite_emits (a : Args) (fuel n last : Nat) (lm : Memory) (w : EncWork)
    (hop : w.op.toNat ≤ a.dstLen.toNat) (hn : 0 < n) (hfuel : n ≤ fuel) :
    EmitsWords a ((chunkWords 0 znCap fuel n).dropLast ++ [pack 5 (lastZeros n + 1)]) true lm w w
      ((emitChunks a 0 znCap fuel n last lm w).andThen fun d lm₁ w₁ =>
        (rewriteLast a (pack 5 (d + 1)) lm₁ w₁).andThen fun _ lm₂ w₂ => .ok true lm₂ w₂) := by
  induction fuel generalizing n last lm w with
  | zero => omega
  | succ fuel ih =>
    have hn0 : n ≠ 0 := by omega
    unfold emitChunks chunkWords
    simp only [hn0, if_false]
    by_cases hle : n ≤ znCap
    · have hsub : n - znCap = 0 := by omega
      have hmin : min znCap n = n := by omega
      have hnil : chunkWords 0 znCap fuel (n - znCap) = [] := by
        rw [hsub]; cases fuel <;> simp [chunkWords]
      have hlast : lastZeros n = n := by
        unfold lastZeros znCap at *
        omega
      have hrec : ∀ lm' w', emitChunks a 0 znCap fuel (n - znCap) (min znCap n) lm' w' = .ok n lm' w' := by
        intro lm' w'
        rw [hsub, hmin]
        cases fuel <;> simp [emitChunks]
      rw [hnil, hlast]
      simp only [List.dropLast_singleton, List.nil_append]
      have := emit_rewrite_emits a (pack 0 (min znCap n)) (pack 5 (n + 1)) true lm w hop
      revert this
      cases he : emit a (pack 0 (min znCap n)) lm w with
      | ok u lm' w' => simp only [EncRes.andThen, hrec]; exact id
      | raise c i lm' => simp only [EncRes.andThen]; exact id
    · have hne : chunkWords 0 znCap fuel (n - znCap) ≠ [] := by
        cases fuel with
        | zero => unfold znCap at hle; omega
        | succ f =>
          have : n - znCap ≠ 0 := by omega
          simp [chunkWords, this]
      have hlast : lastZeros n = lastZeros (n - znCap) := by
        unfold lastZeros znCap at *
        omega
      rw [List.dropLast_cons_of_ne_nil hne, hlast, List.cons_append]
      have hassoc : ∀ (r : EncRes Unit) (f : Memory → EncWork → EncRes Nat)
          (g : Nat → Memory → EncWork → EncRes Bool),
          (r.andThen fun _ lm' w' => f lm' w').andThen g =
            r.andThen fun _ lm' w' => (f lm' w').andThen g := by
        intro r f g; cases r <;> rfl
      rw [hassoc]
      refine EmitsWords.andThen (xs := [pack 0 (min znCap n)]) hop (emit_emits a _ lm w hop) ?_
      intro lm' w' hw' _ hle'
      have hz : 1 ≤ znCap := by unfold znCap; omega
      exact (ih (n - znCap) (min znCap n) lm' w' hle' (by omega) (by omega)).congr (by subst hw'; rfl)

/-- EmitZeros with fusion emits the words of `ZEROSH nz` (R75, R83). -/
theorem emitZeros_fused_emits (a : Args) (nz np : Int) (lm : Memory) (w : EncWork)
    (hop : w.op.toNat ≤ a.dstLen.toNat) (hnz : 0 < nz) (hf : np = 1 ∧ 0 < w.pv.toInt) :
    EmitsWords a (zerosHighWords nz.toNat) true lm w w (emitZeros a nz np lm w) := by
  have h := emitChunks_rewrite_emits a nz.toNat nz.toNat 0 lm w hop (by omega) (Nat.le_refl _)
  unfold emitZeros zerosHighWords zerosWords
  revert h
  cases he : emitChunks a 0 znCap nz.toNat nz.toNat 0 lm w with
  | ok d lm₁ w₁ =>
    simp only [EncRes.andThen]
    rw [if_pos hf]
    exact id
  | raise c i lm' => simp only [EncRes.andThen]; exact id

end Sys2Proof.Machine
end

