-- ==== Sys2Proof/Laws/Encoding.lean ====
section
/-! SUPPORT. The fields of a packed word (R66, R67, R69). -/

namespace Sys2Proof

theorem pack_toNat {o d : Nat} (ho : o < 16) (hd : d < 4096) : (pack o d).toNat = o * 4096 + d := by
  unfold pack bits16
  rw [show ((o : Int) * 4096 + (d : Int)) = ((o * 4096 + d : Nat) : Int) from by push_cast; rfl,
    BitVec.ofInt_natCast, BitVec.toNat_ofNat]
  exact Nat.mod_eq_of_lt (by omega)

/-- The opcode of a packed word (R66, R67). -/
theorem opcodeOf_pack {o d : Nat} (ho : o < 16) (hd : d < 4096) :
    opcodeOf (pack o d) = BitVec.ofNat 4 o := by
  apply BitVec.eq_of_toNat_eq
  unfold opcodeOf
  rw [BitVec.extractLsb'_toNat, pack_toNat ho hd, BitVec.toNat_ofNat, Nat.shiftRight_eq_div_pow]
  omega

/-- The data of a packed word (R66, R67). -/
theorem dataOf_pack {o d : Nat} (ho : o < 16) (hd : d < 4096) :
    dataOf (pack o d) = BitVec.ofNat 12 d := by
  apply BitVec.eq_of_toNat_eq
  unfold dataOf
  rw [BitVec.extractLsb'_toNat, pack_toNat ho hd, BitVec.toNat_ofNat, Nat.shiftRight_eq_div_pow]
  omega

theorem lengthOf_pack {o d : Nat} (ho : o < 16) (hd : d < 4096) :
    lengthOf (pack o d) = if o = 1 then 2 else 1 := by
  unfold lengthOf
  rw [opcodeOf_pack ho hd]
  have : BitVec.ofNat 4 o = 1 ↔ o = 1 := by
    constructor
    · intro h
      have := congrArg BitVec.toNat h
      rw [BitVec.toNat_ofNat] at this
      change _ = 1 at this
      omega
    · rintro rfl; rfl
  simp only [this]

/-- A word is its fields packed (R65). -/
theorem pack_fields (w : Word16) : pack (opcodeOf w).toNat (dataOf w).toNat = w := by
  apply BitVec.eq_of_toNat_eq
  rw [pack_toNat (opcodeOf w).isLt (dataOf w).isLt]
  unfold opcodeOf dataOf
  rw [BitVec.extractLsb'_toNat, BitVec.extractLsb'_toNat, Nat.shiftRight_eq_div_pow,
    Nat.shiftRight_eq_div_pow]
  have := w.isLt
  omega

end Sys2Proof
end

