-- ==== Sys2Proof/Laws/PerInstr.lean ====
section
/-! SUPPORT. One lemma per instruction: the first word it encodes to carries its opcode of the table
(R71), and tells its length (R70). -/

namespace Sys2Proof.Laws.FirstWord

/-- The opcode the table gives an instruction (R71). -/
def tableOpcode : Instr → Nat
  | .zn _ => 0
  | .sh _ _ => 1
  | .ih _ => 2
  | .dh _ => 3
  | .hn _ => 4
  | .pn _ => 5
  | .is _ => 6
  | .ds _ => 7
  | .reserved op _ => op.toNat

/-- A well-formed instruction's first word has its opcode and tells how many words it has. -/
def Statement (i : Instr) : Prop :=
  i.wellFormed = true → ∃ w0 rest, encode i = w0 :: rest ∧ (opcodeOf w0).toNat = tableOpcode i ∧
    lengthOf w0 = (encode i).length

theorem pack_opcode {o d : Nat} (ho : o < 16) (hd : d < 4096) : (opcodeOf (pack o d)).toNat = o := by
  rw [opcodeOf_pack ho hd, BitVec.toNat_ofNat]
  exact Nat.mod_eq_of_lt ho

theorem zn (d : BitVec 12) : Statement (.zn d) := fun _ =>
  ⟨_, _, rfl, pack_opcode (by omega) d.isLt, lengthOf_pack (by omega) d.isLt⟩

theorem sh (d : BitVec 12) (w : Word16) : Statement (.sh d w) := fun _ =>
  ⟨_, _, rfl, pack_opcode (by omega) d.isLt, lengthOf_pack (by omega) d.isLt⟩

theorem ih (d : BitVec 12) : Statement (.ih d) := fun _ =>
  ⟨_, _, rfl, pack_opcode (by omega) d.isLt, lengthOf_pack (by omega) d.isLt⟩

theorem dh (d : BitVec 12) : Statement (.dh d) := fun _ =>
  ⟨_, _, rfl, pack_opcode (by omega) d.isLt, lengthOf_pack (by omega) d.isLt⟩

theorem hn (d : BitVec 12) : Statement (.hn d) := fun _ =>
  ⟨_, _, rfl, pack_opcode (by omega) d.isLt, lengthOf_pack (by omega) d.isLt⟩

theorem pn (d : BitVec 12) : Statement (.pn d) := fun _ =>
  ⟨_, _, rfl, pack_opcode (by omega) d.isLt, lengthOf_pack (by omega) d.isLt⟩

theorem is (d : BitVec 12) : Statement (.is d) := fun _ =>
  ⟨_, _, rfl, pack_opcode (by omega) d.isLt, lengthOf_pack (by omega) d.isLt⟩

theorem ds (d : BitVec 12) : Statement (.ds d) := fun _ =>
  ⟨_, _, rfl, pack_opcode (by omega) d.isLt, lengthOf_pack (by omega) d.isLt⟩

theorem reserved (op : BitVec 4) (x : BitVec 12) : Statement (.reserved op x) := fun hw => by
  have h8 : 8 ≤ op.toNat := by simpa [Instr.wellFormed] using hw
  refine ⟨_, _, rfl, pack_opcode op.isLt x.isLt, ?_⟩
  rw [lengthOf_pack op.isLt x.isLt, if_neg (by omega)]
  rfl

end Sys2Proof.Laws.FirstWord
end

