-- ==== Sys2Proof/Tests/Slice0.lean ====
section
/-! SUPPORT. The model's own tests. Expected values are the spec's (95_test_vectors.md and the rules'
examples, named in each comment), never the model's answer. A `witness_` theorem shows a state and
operands that meet all hypotheses of the statement it names. -/

namespace Sys2Proof.Tests

open Sys2Proof.Machine

/-! ### Well-formedness and decoding -/

theorem test_reserved_with_opcode_7_is_ill_formed : (Instr.reserved 7 0).wellFormed = false := by decide

theorem test_reserved_with_opcode_8_is_well_formed : (Instr.reserved 8 0).wellFormed = true := by decide

/-- R95: `0000 dddd dddd dddd`. -/
theorem test_decode_zn : decode [0b0000000000000010] = .ok (.zn 2, []) := by decide

/-- R96: `0001 dddd dddd dddd` and 16 more bits; V-F6. -/
theorem test_decode_sh : decode [0b0001011011010001, 0b0000000000000101, 0x4001] =
    .ok (.sh 1745 5, [0x4001]) := by decide

/-- R97: `0010 dddd dddd dddd`. -/
theorem test_decode_ih : decode [0b0010111111111111] = .ok (.ih 4095, []) := by decide

/-- R98: `0011 dddd dddd dddd`. -/
theorem test_decode_dh : decode [0b0011000000111111] = .ok (.dh 63, []) := by decide

/-- R99: `0100 dddd dddd dddd`. -/
theorem test_decode_hn : decode [0b0100000000000011] = .ok (.hn 3, []) := by decide

/-- R100: `0101 dddd dddd dddd`. -/
theorem test_decode_pn : decode [0b0101000000000101] = .ok (.pn 5, []) := by decide

/-- R101: `0110 dddd dddd dddd`; V-F1. -/
theorem test_decode_is : decode [0b0110110011010111] = .ok (.is 3287, []) := by decide

/-- R102: `0111 dddd dddd dddd`. -/
theorem test_decode_ds : decode [0b0111111111111111] = .ok (.ds 4095, []) := by decide

/-- R103: `1ooo xxxx xxxx xxxx`; V-F2. -/
theorem test_decode_reserved : decode [0b1000000000000101] = .ok (.reserved 8 5, []) := by decide

/-- R70: a set-high is two words. -/
theorem test_decode_refuses_half_a_set_high : decode [0x1005] = .error .noSecondWord := by decide

theorem test_decode_refuses_no_words : decode [] = .error .noWord := by decide

/-- V-F5, V-F7: Pack and the set-high pair. -/
theorem test_pack : pack 5 4095 = 0x5FFF ∧ setHighWords 8192 = [0x1000, 0x0002] ∧
    setHighWords 134217727 = [0x1FFF, 0x7FFF] := by decide

/-- The table numbers a set-high's second word in bits 31:16; shorter, it is 0. -/
theorem test_decode_table_word : decodeTableWord 32 0x000516D1 = some (.sh 1745 5) ∧
    decodeTableWord 16 0x16D1 = some (.sh 1745 0) ∧ decodeTableWord 16 0x9ABC = some (.reserved 9 0xABC) := by
  decide

/-! ### Small states -/

/-- Reset with memories of 65536 words. -/
def machine : State := { State.reset with pmLast := 0xFFFF, lmLast := 0xFFFF }

/-- A decode command over the window 2 .. 4, its source at LM 0, its destination at PM 16. -/
def latch (strict : Bool) : DecLatch :=
  { args := { start := 2, count := 3, srcBase := 0, srcLen := 20, dstBase := 16, dstLen := 3 }
    strict := strict }

/-- Working registers at logical position `x1` with the cursor R106 gives. -/
def work (x1 : Nat) (high : Pixel) : DecWork :=
  { ip := 7, L := 12, xe := 4, x1 := x1, op := BitVec.ofNat 32 (min x1 5 - 2), high := high }

/-- A running decode command. -/
def decoding (k : DecLatch) (w : DecWork) : State :=
  { machine with sched := [.dec], dec := { machine.dec with phase := .running k w } }

/-- The next state of an outcome. -/
def after (o : Host.Outcome State Fault Refusal) : State := (nextState o).getD State.reset

/-- DEC's working registers of a state. -/
def regs (s : State) : Option DecWork :=
  match s.dec.phase with
  | .running _ w => some w
  | _ => none

theorem work_cursorOk (b : Bool) (x1 : Nat) (high : Pixel) : (work x1 high).CursorOk (latch b).args where
  count_pos := by change 0 < (3#32).toNat; decide
  dst_fits := by change (3#32).toNat ≤ (3#32).toNat; decide
  xe_eq := rfl
  cursor := by
    change (BitVec.ofNat 32 (min x1 5 - 2)).toNat = min x1 (4 + 1) - 2
    rw [BitVec.toNat_ofNat]
    omega

/-! ### Instructions, one step each -/

/-- R95: a run crossing the window's start writes its in-window part only. -/
theorem test_zn_crosses_window_start :
    let s := after (exec (.zn 4) (decoding (latch false) (work 0 9)))
    pmRead s.pm 16 = 0 ∧ pmRead s.pm 17 = 0 ∧ s.pm.cells.length = 8 ∧ (regs s).map (·.op) = some 2 ∧
      (regs s).map (·.x1) = some 4 := by decide

/-- R95: d = 0 writes nothing and leaves D.x1. -/
theorem test_zn_of_no_pixels :
    let s := after (exec (.zn 0) (decoding (latch false) (work 3 9)))
    s.pm.cells = [] ∧ (regs s).map (·.x1) = some 3 ∧ (regs s).map (·.ip) = some 8 := by decide

/-- V-F6, R96's example. -/
theorem test_sh_loads_22225 :
    let s := after (exec (.sh 0x6D1 5) (decoding (latch false) (work 3 9)))
    (regs s).map (·.high) = some 22225 ∧ (regs s).map (·.ip) = some 9 := by decide

/-- V-F8: 0x1FFF 0x8000. -/
theorem test_sh_negative :
    let s := after (exec (.sh 0xFFF 0x8000) (decoding (latch false) (work 3 9)))
    (regs s).map (·.high.toInt) = some (-134213633) := by decide

/-- R97's example. -/
theorem test_ih_4095 :
    (regs (after (exec (.ih 4095) (decoding (latch false) (work 3 1))))).map (·.high) = some 4096 := by decide

/-- V-D23's last word: 2147483527 + 4095 overflows, FINFO is D.ip. -/
theorem test_ih_overflow :
    let s := after (exec (.ih 4095) (decoding (latch false) (work 3 2147483527)))
    s.dec.phase = .faulted .highOverflow ∧ s.dec.finfo = 7 := by decide

/-- R98: D.high = 1, `DH 3` gives -2. -/
theorem test_dh_below_zero :
    (regs (after (exec (.dh 3) (decoding (latch false) (work 3 1))))).map (·.high.toInt) = some (-2) := by
  decide

/-- R98's example. -/
theorem test_dh_63 :
    (regs (after (exec (.dh 63) (decoding (latch false) (work 3 66))))).map (·.high) = some 3 := by decide

/-- R99: a run crossing the window's end writes its in-window part only. -/
theorem test_hn_crosses_window_end :
    let s := after (exec (.hn 5) (decoding (latch false) (work 3 7)))
    pmRead s.pm 17 = 7 ∧ pmRead s.pm 18 = 7 ∧ s.pm.cells.length = 8 ∧ (regs s).map (·.x1) = some 8 := by
  decide

/-- V-D15: `PN 5` in the window 2 .. 4 gives 0, 0, 1. -/
theorem test_pn_last_in_window :
    let s := after (exec (.pn 5) (decoding (latch false) (work 0 1)))
    pmRead s.pm 16 = 0 ∧ pmRead s.pm 17 = 0 ∧ pmRead s.pm 18 = 1 := by decide

/-- C3: a run cut by the window's end writes only zeros. -/
theorem test_pn_cut_by_window_end :
    let s := after (exec (.pn 4) (decoding (latch false) (work 3 1)))
    pmRead s.pm 17 = 0 ∧ pmRead s.pm 18 = 0 := by decide

/-- R101's example, in the window. -/
theorem test_is_2 :
    let s := after (exec (.is 2) (decoding (latch false) (work 2 1)))
    pmRead s.pm 16 = 3 ∧ (regs s).map (·.op) = some 1 ∧ (regs s).map (·.high) = some 3 := by decide

/-- R101: a position before the window advances without writing. -/
theorem test_is_before_window :
    let s := after (exec (.is 2) (decoding (latch false) (work 1 1)))
    s.pm.cells = [] ∧ (regs s).map (·.op) = some 0 ∧ (regs s).map (·.x1) = some 2 := by decide

/-- R102's example: DS 4095 from 4096 stores 1. -/
theorem test_ds_4095 :
    let s := after (exec (.ds 4095) (decoding (latch false) (work 4 4096)))
    pmRead s.pm 18 = 1 ∧ (regs s).map (·.x1) = some 5 := by decide

/-- V-D9: STATUS 0x00000804, FINFO the index. -/
theorem test_reserved_strict :
    let s := after (exec (.reserved 8 5) (decoding (latch true) (work 2 1)))
    s.dec.phase.status = 0x804 ∧ s.dec.finfo = 7 := by decide

/-- V-D8: skipped. -/
theorem test_reserved_non_strict :
    (regs (after (exec (.reserved 8 5) (decoding (latch false) (work 2 1))))).map (·.ip) = some 8 := by decide

/-- V-X12: a set-high whose second word is at D.L. -/
theorem test_sh_truncated :
    let s := after (exec (.sh 5 0) (decoding (latch true) { work 2 1 with L := 8 }))
    s.dec.phase = .faulted .truncated ∧ s.dec.finfo = 7 := by decide

/-! ### Steps of the machine -/

/-- The very next step after `withFetchWord` runs the word: IS 7 from the high value 1. -/
theorem test_fetch_word_runs_first :
    pmRead (after (step (State.reset.withFetchWord 16 0x6007))).pm 0 = 8 := by decide

/-- LM with some words from an address on. -/
def lmOf (base : Nat) (ws : List Word16) : Memory :=
  (ws.zipIdx.map fun p => (base + p.2, p.1)).foldl (fun m p => lmWrite m p.1 p.2) ⟨[]⟩

/-- What GO latches for a decode of `count` pixels from the `n` words at LM 0 to PM 0. -/
def decodeLatch (strict : Bool) (count dstLen : Reg32) (n : Nat) : DecLatch :=
  { args := { start := 0, count := count, srcBase := 0, srcLen := BitVec.ofNat 32 n, dstBase := 0,
              dstLen := dstLen }
    strict := strict }

/-- An accepted decode command over a line list at LM 0. -/
def acceptedDecode (strict : Bool) (count dstLen : Reg32) (ws : List Word16) : State :=
  { machine with
    lm := lmOf 0 ws
    dec := { machine.dec with phase := .accepted (decodeLatch strict count dstLen ws.length) } }

/-- R90's example: hdr(19) gives D.L = 19, D.ip = 7 (with a source of 19 words). -/
theorem test_start_current :
    (regs (after (decStep (acceptedDecode true 9 9
      [0, 7, 0xFF9C, 0x13, 0, 0, 0, 0, 0, 0, 0, 0, 0, 0, 0, 0, 0, 0, 0])))).map
        (fun w => (w.ip, w.L, w.xe, w.high)) = some (7, 19, 8, 1) := by decide

/-- V-D7: a legacy header, data from element 3. -/
theorem test_start_legacy :
    (regs (after (decStep (acceptedDecode false 5 5 [0, 10, 5, 0x4003, 2])))).map
      (fun w => (w.ip, w.L)) = some (3, 5) := by decide

/-- V-D21, V-D22, V-D19, V-D20: strict checks S3, S5, S1, S2. -/
theorem test_strict_header_checks :
    let f := fun ws => (after (decStep (acceptedDecode true 2 2 ws))).dec
    (f [0, 7, 0xFF9C, 0xFFFF, 0, 0, 0, 0x4001]).finfo = 3 ∧
    (f [0, 7, 0xFF9C, 5, 0, 0, 0, 0x4001]).finfo = 3 ∧
    (f [0, 7, 0, 8, 0, 0, 0, 0x4001]).finfo = 2 ∧
    (f [0, 6, 0xFF9C, 8, 0, 0, 0x4002, 0x4001]).finfo = 1 := by decide

/-- V-D6: a nonpositive length returns 0 although DST_LEN < COUNT. -/
theorem test_nonpositive_length :
    let s := after (decStep (acceptedDecode false 3 2 [0, 7, 0xFF9C, 0, 0, 0, 0]))
    s.dec.phase = .done ∧ s.dec.result = 0 := by decide

/-- V-X10, V-X13: a short header; a destination that cannot hold COUNT pixels. -/
theorem test_start_faults :
    (after (decStep (acceptedDecode false 1 1 [0, 7]))).dec.finfo = 2 ∧
    (after (decStep (acceptedDecode false 1 1 [0, 7, 0xFF9C]))).dec.finfo = 3 ∧
    (after (decStep (acceptedDecode false 9 8 [0, 7, 0xFF9C, 8, 0, 0, 0, 0x4001]))).dec.phase =
      .faulted .dstBounds := by decide

/-- PM with some pixels from address 0 on. -/
def pmOf (ps : List Int) : Memory :=
  (ps.zipIdx.map fun p => (p.2, int32 p.1)).foldl (fun m p => pmWrite m p.1 p.2) ⟨[]⟩

/-- What GO latches for an encode of the `n` pixels at PM 0 to LM 0. -/
def encodeArgs (dstLen : Reg32) (n : Nat) : Args :=
  { start := 0, count := BitVec.ofNat 32 n, srcBase := 0, srcLen := BitVec.ofNat 32 n, dstBase := 0,
    dstLen := dstLen }

/-- An accepted encode command over pixels at PM 0, its destination at LM 0. -/
def acceptedEncode (dstLen : Reg32) (ps : List Int) : State :=
  { machine with
    sched := [.enc]
    pm := pmOf ps
    enc := { machine.enc with phase := .accepted (encodeArgs dstLen ps.length) } }

/-- The instruction words of an encode of `ps` that completes. -/
def encoded (ps : List Int) : List Word16 :=
  let s := encSteps (ps.length + 2) (acceptedEncode 60 ps)
  (List.range (s.enc.result.toNat - 7)).map fun i => lmRead s.lm (7 + i)

/-- V-E4, V-E5: IS fusion; clamp, IH before its zeros, PN fusion. -/
theorem test_encode_fusion : encoded [5] = [0x6004] ∧ encoded [-7, 3] = [0x2002, 0x5002] := by decide +kernel

/-- V-E19, V-E20: segment order; set-high then PN. -/
theorem test_encode_segments : encoded [0, 0, 3, 3, 0] = [0x2002, 0x0002, 0x4002, 0x0001] ∧
    encoded [0, 5000, 0] = [0x1388, 0x0001, 0x5002, 0x0001] := by decide +kernel

/-- V-E15, V-E18: DS 4095; above 2^27 - 1 by IS. -/
theorem test_encode_large : encoded [4096, 1] = [0x6FFF, 0x7FFF] ∧
    encoded [134217727, 134217728] = [0x1FFF, 0x7FFF, 0x4001, 0x6001] := by decide +kernel

/-- V-E6, V-E7, V-E8, V-E12: the words of long runs. -/
theorem test_segment_words :
    segmentWords 1 0 0 5000 = some [0x0FFE, 0x038A] ∧ segmentWords 1 1 1 4094 = some [0x5FFF] ∧
    segmentWords 1 1 1 4095 = some [0x0FFE, 0x5002] ∧
    segmentWords 1 7 4096 0 = some [0x2006, 0x4FFF, 0x4001] := by decide +kernel

/-- V-X2, V-X3, V-X5: DST_BOUNDS and VALUE_RANGE. -/
theorem test_encode_faults :
    let f := fun (n : Reg32) ps => (encSteps 3 (acceptedEncode n ps)).enc
    ((f 7 [5, 9]).phase, (f 7 [5, 9]).finfo) = (.faulted .dstBounds, 7) ∧
    ((f 8 [5, 9]).phase, (f 8 [5, 9]).finfo) = (.faulted .dstBounds, 8) ∧
    ((f 20 [134217728]).phase, (f 20 [134217728]).finfo) = (.faulted .valueRange, 0) := by decide +kernel

/-- V-E29's header words through the finish step: L = 8 for [1]. -/
theorem test_finish_writes_length :
    let s := encSteps 3 (acceptedEncode 60 [1])
    lmRead s.lm 3 = 8 ∧ lmRead s.lm 4 = 0 ∧ lmRead s.lm 2 = 0xFF9C ∧ s.enc.result = 8 := by decide +kernel

/-- V-F13: pseudo-instructions; R74's text form. -/
theorem test_assembler :
    assemble [.zeros 5000, .zerosHigh 4094, .levels 3] = some [0x0FFE, 0x038A, 0x5FFF, 0x6002] ∧
    assemble [.level 5000] = some [0x1388, 0x0001] ∧
    parseLine ['S', 'H', ' ', '0', 'x', '1', '0', ',', ' ', '7', ' ', ';', 'c'] =
      some (some (.setHighRaw 16 7)) := by decide +kernel

/-- R30, R32, V-X14, V-X15: GO, GO while BUSY, CLEAR. -/
theorem test_go_and_clear :
    let s := writeReg (writeReg machine 0x110 5) 0x100 1
    readReg s 0x104 = 1 ∧ writeReg (writeReg s 0x110 6) 0x100 1 = writeReg s 0x110 6 ∧
    readReg (writeReg (raiseFault .dec .dstBounds 8 s) 0x100 2) 0x104 = 0 := by decide

/-! ### Witnesses: the hypotheses of the statements can be met -/

/-- A running encode command on the third of three pixels. -/
def encArgs : Args := { start := 0, count := 3, srcBase := 0, srcLen := 3, dstBase := 0, dstLen := 16 }

/-- Its working registers between steps, at index `ip`. -/
def encWork (ip : BitVec 33) (pv : Pixel) : EncWork :=
  { ip := ip, xe := 2, x1 := ip, iz := ip, pv := pv, nv := 0, hi := 1, op := 7 }

/-- A running encode command. -/
def encoding (pm : Memory) (w : EncWork) : State :=
  { machine with sched := [.enc], pm := pm, enc := { machine.enc with phase := .running encArgs w } }

theorem encWork_ok (ip : BitVec 33) (pv : Pixel) (hip : ip.toNat ≤ 3) (hpv : 0 ≤ pv.toInt) :
    (encWork ip pv).Ok encArgs machine.pmWords machine.lmWords where
  mapped := by decide
  count_pos := by decide
  src_fits := by decide
  header_fits := by decide
  xe_eq := rfl
  start_le_iz := Nat.zero_le _
  iz_le_x1 := Nat.le_refl _
  x1_le_ip := Nat.le_refl _
  ip_le := hip
  zero_run := fun _ => rfl
  op_ge := Nat.le_refl 7
  op_le := by change 7 ≤ 16; decide
  op_bound := by
    change 7 + 3 * 0 ≤ 7 + 3 * ip.toNat
    omega
  hi_pos := by change 1 ≤ (1#32).toInt; decide
  pv_nonneg := hpv
  nv_nonneg := by change (0 : Int) ≤ (0#32).toInt; decide

theorem work_ok (b : Bool) (x1 : Nat) (high : Pixel) (hx : x1 ≤ 8) :
    (work x1 high).Ok (latch b) machine.lmWords machine.pmWords where
  mapped := by cases b <;> decide
  cursorOk := work_cursorOk b x1 high
  len_pos := by change 0 < (12#32).toInt; decide
  len_le := by change (12#32).toInt ≤ _; decide
  ip_ge := by change _ ≤ (7#32).toInt; decide
  ip_le := by change (7#32).toInt ≤ max ((12#32).toInt + 1) 32767; decide
  x1_le := by change x1 ≤ 4 + 4095; omega
  strict_len := fun _ => by change 0 ≤ (7#32).toInt ∧ (12#32).toInt ≤ (20#32).toNat; decide

theorem witness_EncodedInstructionsDecodeBack :
    (Instr.reserved 8 0).wellFormed = true ∧ (Instr.reserved 15 4095).wellFormed = true := by decide

theorem witness_SplitValuesReassemble : 134217727 ≤ maxShValue ∧ 1073741823 ≤ maxLen := by decide

theorem witness_StepIsTheChosenAgentsStep :
    machine.inReset = false ∧
    (∃ s : State, s.inReset = false ∧ s.sched = [.host] ∧ nextAgent s = .host) ∧
    (∃ s : State, s.inReset = false ∧ s.sched = [.enc] ∧ nextAgent s = .enc) ∧
    ∃ s : State, s.inReset = false ∧ s.sched = [.dec] ∧ nextAgent s = .dec :=
  ⟨rfl, ⟨{ machine with sched := [.host] }, rfl, rfl, rfl⟩, ⟨{ machine with sched := [.enc] }, rfl, rfl, rfl⟩,
    ⟨{ machine with sched := [.dec] }, rfl, rfl, rfl⟩⟩

/-- Two words in the buffer; the buffer's last word, a one-word instruction; its last word, a set-high. -/
theorem witness_StepRunsDecodedInstruction :
    let s := fun (ip : BitVec 32) (x : Word16) =>
      ({ decoding (latch false) { work 2 1 with ip := ip, L := 20 } with lm := lmOf ip.toNat [x, 5] } : State)
    (nextAgent (s 7 0x16D1) = .dec ∧ (s 7 0x16D1).inReset = false ∧
      loopEnded { work 2 1 with ip := 7, L := 20 } = false ∧
      decSrcRead (latch false).args (s 7 0x16D1).lm 7 = some 0x16D1 ∧
      decSrcRead (latch false).args (s 7 0x16D1).lm 8 = some 5 ∧
      decode [0x16D1, 5] = .ok (.sh 0x6D1 5, [])) ∧
    (loopEnded { work 2 1 with ip := 19, L := 20 } = false ∧
      decSrcRead (latch false).args (s 19 0x4001).lm 19 = some 0x4001 ∧
      decSrcRead (latch false).args (s 19 0x4001).lm 20 = none ∧
      decode [0x4001] = .ok (.hn 1, [])) ∧
    (decSrcRead (latch false).args (s 19 0x1005).lm 19 = some 0x1005 ∧
      decSrcRead (latch false).args (s 19 0x1005).lm 20 = none ∧
      decode [0x1005] = .error .noSecondWord) := by decide

theorem witness_FetchOutsideSourceFaults :
    let w := fun (ip : BitVec 32) => ({ work 2 1 with ip := ip, L := 30 } : DecWork)
    let s := fun ip => decoding (latch false) (w ip)
    nextAgent (s 20) = .dec ∧ (s 20).inReset = false ∧ (s 20).dec.phase = .running (latch false) (w 20) ∧
    loopEnded (w 20) = false ∧ ((latch false).args.srcLen.toNat : Int) ≤ (w 20).ip.toInt ∧
    loopEnded (w (-1)) = false ∧ (w (-1)).ip.toInt < 0 := by decide

/-- The loop ended at D.L, and past the window. -/
theorem witness_FillStepZeroesTheTail :
    (∃ s : State, s.dec.phase = .running (latch false) { work 3 1 with ip := 12 } ∧
      ({ work 3 1 with ip := 12 } : DecWork).CursorOk (latch false).args ∧
      ({ work 3 1 with ip := 12 } : DecWork).L.toInt ≤ ({ work 3 1 with ip := 12 } : DecWork).ip.toInt) ∧
    ∃ s : State, s.dec.phase = .running (latch false) (work 5 1) ∧ (work 5 1).CursorOk (latch false).args ∧
      (work 5 1).xe < (work 5 1).x1 :=
  ⟨⟨decoding (latch false) { work 3 1 with ip := 12 }, rfl,
      { count_pos := by decide, dst_fits := by decide, xe_eq := by decide, cursor := by decide }, by decide⟩,
    ⟨decoding (latch false) (work 5 1), rfl, work_cursorOk _ _ _, by decide⟩⟩

/-- Hypotheses of ZeroRunWritesZeros, HighRunWritesHighValue, ZeroRunPlusOneEndsHigh and
DecoderNeverOverrunsDestination, with some position covered and with none. -/
theorem witness_PixelRuns :
    (∃ (s : State) (w : DecWork), s.dec.phase = .running (latch false) w ∧ w.CursorOk (latch false).args ∧
      runCovers (latch false).args w 1 4 ∧ (∃ s' : State, decStep s = .next s')) ∧
    ∃ (s : State) (w : DecWork), s.dec.phase = .running (latch false) w ∧ w.CursorOk (latch false).args ∧
      ¬runCovers (latch false).args w 0 4 :=
  ⟨⟨{ decoding (latch false) (work 4 1) with lm := lmOf 7 [0x4001, 0] }, work 4 1, rfl, work_cursorOk _ _ _,
      ⟨by decide, by decide, by decide, by decide⟩, ⟨_, rfl⟩⟩,
    ⟨decoding (latch false) (work 4 1), work 4 1, rfl, work_cursorOk _ _ _, fun h => by
      have := h.2.1; change 4 < 4 + 0 at this; omega⟩⟩

/-- The three clauses of SetHighLoadsTheHighValue at their boundaries. -/
theorem witness_SetHighLoadsTheHighValue :
    let w := fun (ip L : BitVec 32) => ({ work 2 1 with ip := ip, L := L } : DecWork)
    (((latch true).strict = true ∧ (w 11 12).L.toInt ≤ (w 11 12).ip.toInt + 1) ∧
      (decoding (latch true) (w 11 12)).dec.phase = .running (latch true) (w 11 12)) ∧
    (¬((latch false).strict = true ∧ (w 19 20).L.toInt ≤ (w 19 20).ip.toInt + 1) ∧
      decSrcRead (latch false).args (decoding (latch false) (w 19 20)).lm ((w 19 20).ip.toInt + 1) = none) ∧
    (¬((latch true).strict = true ∧ (w 10 12).L.toInt ≤ (w 10 12).ip.toInt + 1) ∧
      decSrcRead (latch true).args ({ decoding (latch true) (w 10 12) with lm := lmOf 11 [5] } : State).lm
        ((w 10 12).ip.toInt + 1) = some 5) := by decide

/-- IncHighAddsExactly and IncStoreAddsAndStores: the last sum that fits and the first that does not. -/
theorem witness_IncreasesAtTheBoundary :
    ((work 2 2147479552).high.toInt + (4095 : BitVec 12).toNat ≤ 2147483647 ∧
      ¬((work 2 2147479553).high.toInt + (4095 : BitVec 12).toNat ≤ 2147483647)) ∧
    (decoding (latch false) (work 2 2147479552)).dec.phase = .running (latch false) (work 2 2147479552) ∧
    (decoding (latch false) (work 2 2147479553)).dec.phase = .running (latch false) (work 2 2147479553) := by
  decide

/-- DecHighSubtractsExactly and DecStoreSubtractsAndStores: the last difference that fits and the first that
does not. -/
theorem witness_DecreasesAtTheBoundary :
    (-2147483648 ≤ (work 2 (-2147479553)).high.toInt - (4095 : BitVec 12).toNat ∧
      ¬(-2147483648 ≤ (work 2 (-2147479554)).high.toInt - (4095 : BitVec 12).toNat)) ∧
    (decoding (latch false) (work 2 (-2147479553))).dec.phase = .running (latch false) (work 2 (-2147479553)) ∧
    (decoding (latch false) (work 2 (-2147479554))).dec.phase =
      .running (latch false) (work 2 (-2147479554)) := by decide

/-- The window clauses of IncStoreAddsAndStores and DecStoreSubtractsAndStores: first position, last
position, one before, one after; with the cursor. -/
theorem witness_StoresAtTheWindowEnds :
    ((latch false).args.start.toNat ≤ (work 2 1).x1 ∧ (work 2 1).x1 ≤ (work 2 1).xe) ∧
    ((latch false).args.start.toNat ≤ (work 4 1).x1 ∧ (work 4 1).x1 ≤ (work 4 1).xe) ∧
    ¬((latch false).args.start.toNat ≤ (work 1 1).x1) ∧ ¬((work 5 1).x1 ≤ (work 5 1).xe) ∧
    (work 2 1).CursorOk (latch false).args ∧ (work 4 1).CursorOk (latch false).args ∧
    (work 1 1).CursorOk (latch false).args ∧ (work 5 1).CursorOk (latch false).args :=
  ⟨by decide, by decide, by decide, by decide, work_cursorOk _ _ _, work_cursorOk _ _ _, work_cursorOk _ _ _,
    work_cursorOk _ _ _⟩

/-- ReservedOpcodeSkipsOrFaults and StrictModeOnlyAddsFaults: both modes. -/
theorem witness_BothModes :
    (∃ (s : State) (k : DecLatch) (w : DecWork), s.dec.phase = .running k w ∧ k.strict = false) ∧
    ∃ (s : State) (k : DecLatch) (w : DecWork), s.dec.phase = .running k w ∧ k.strict = true :=
  ⟨⟨decoding (latch false) (work 2 1), _, _, rfl, rfl⟩, ⟨decoding (latch true) (work 2 1), _, _, rfl, rfl⟩⟩

/-- InstructionsReachOnlyTheirBuffer and InstructionsAdvanceByTheirLength. -/
theorem witness_AnInstructionGoesOn :
    ∃ (s s' : State) (k k' : DecLatch) (w w' : DecWork), s.dec.phase = .running k w ∧ exec (.sh 1 2) s = .next s' ∧
      s'.dec.phase = .running k' w' :=
  ⟨decoding (latch false) (work 2 1), _, _, latch false, _, { work 2 1 with high := 8193, ip := 9 }, rfl, rfl,
    by decide⟩

/-- ZeroCountCompletesAtOnce. -/
theorem witness_ZeroCountCompletesAtOnce :
    (∃ (s : State) (a : Args), s.enc.phase = .accepted a ∧ a.count = 0) ∧
    ∃ (s : State) (k : DecLatch), s.dec.phase = .accepted k ∧ k.args.count = 0 :=
  ⟨⟨acceptedEncode 0 [], _, rfl, rfl⟩, ⟨acceptedDecode false 0 0 [], _, rfl, rfl⟩⟩

/-- UnmappedBufferFaults: a source and a destination one word too long, for either unit. -/
theorem witness_UnmappedBufferFaults :
    let src : Args := { start := 0, count := 1, srcBase := 0xFFFF, srcLen := 2, dstBase := 0, dstLen := 8 }
    let dst : Args := { start := 0, count := 1, srcBase := 0, srcLen := 8, dstBase := 0xFFFF, dstLen := 2 }
    machine.pmWords < src.srcBase.toNat + src.srcLen.toNat ∧
    machine.lmWords < dst.dstBase.toNat + dst.dstLen.toNat ∧
    machine.lmWords < src.srcBase.toNat + src.srcLen.toNat ∧
    machine.pmWords < dst.dstBase.toNat + dst.dstLen.toNat ∧ src.count ≠ 0 ∧ dst.count ≠ 0 := by decide

/-- LegacyHeaderStartsTheDecode: a strict command over a list of five words whose version word `v` passes
(v = 5, all five words, and v = 3), fails S4 (v = 6) and fails S5 (v = 2). -/
theorem witness_LegacyHeaderStartsTheDecode (v : Word16) (hv : v = 5 ∨ v = 3 ∨ v = 6 ∨ v = 2) :
    let s := acceptedDecode true 5 5 [0, 10, v, 0x4003, 2]
    ∃ k, s.dec.phase = .accepted k ∧ k.strict = true ∧ k.args.count ≠ 0 ∧
      k.args.mapped s.lmWords s.pmWords = true ∧ k.args.srcLen.toNat = 5 ∧
      (lmRead s.lm (k.args.srcBase.toNat + 2)).toInt = v.toInt ∧ 0 < v.toInt := by
  obtain rfl | rfl | rfl | rfl := hv <;>
    exact ⟨_, rfl, rfl, by decide, by decide, by decide, by decide, by decide⟩

/-- CurrentHeaderStartsTheDecode and StrictHeaderChecksInOrder: hdr(8), in both modes. -/
theorem witness_CurrentHeaders (b : Bool) :
    let s := acceptedDecode b 2 2 [0, 7, 0xFF9C, 8, 0, 0, 0, 0x4001]
    ∃ k, s.dec.phase = .accepted k ∧ k.strict = b ∧ k.args.count ≠ 0 ∧
      k.args.mapped s.lmWords s.pmWords = true ∧ 5 ≤ k.args.srcLen.toNat ∧
      (lmRead s.lm (k.args.srcBase.toNat + 2)).toInt = -100 ∧
      (lmRead s.lm (k.args.srcBase.toNat + 1)).toInt = 7 ∧
      (lmRead s.lm (k.args.srcBase.toNat + 3)).toInt = 8 ∧
      (lmRead s.lm (k.args.srcBase.toNat + 4)).toInt = 0 := by
  cases b <;> exact ⟨_, rfl, rfl, by decide, by decide, by decide, by decide, by decide, by decide, by decide⟩

/-- ShortHeaderFaults: sources of two, three and four words. -/
theorem witness_ShortHeaderFaults :
    let s := fun ws => acceptedDecode false 1 1 ws
    (∃ k, (s [0, 7]).dec.phase = .accepted k ∧ k.args.count ≠ 0 ∧
      k.args.mapped (s [0, 7]).lmWords (s [0, 7]).pmWords = true ∧ k.args.srcLen.toNat ≤ 2) ∧
    (∃ k, (s [0, 7, 0xFF9C]).dec.phase = .accepted k ∧ k.args.srcLen.toNat = 3 ∧
      (lmRead (s [0, 7, 0xFF9C]).lm (k.args.srcBase.toNat + 2)).toInt ≤ 0) ∧
    ∃ k, (s [0, 7, 0xFF9C, 8]).dec.phase = .accepted k ∧ k.args.srcLen.toNat = 4 ∧
      (lmRead (s [0, 7, 0xFF9C, 8]).lm (k.args.srcBase.toNat + 2)).toInt ≤ 0 :=
  ⟨⟨_, rfl, by decide, by decide, by decide⟩, ⟨_, rfl, by decide, by decide⟩, ⟨_, rfl, by decide, by decide⟩⟩

/-- StrictDecodeNeverReadsOutside. -/
theorem witness_StrictDecodeNeverReadsOutside :
    ∃ (s s' : State) (k : DecLatch) (w : DecWork), s.dec.phase = .running k w ∧ k.strict = true ∧ 0 ≤ w.ip.toInt ∧
      w.L.toInt ≤ k.args.srcLen.toNat ∧ decStep s = .next s' :=
  ⟨{ decoding (latch true) (work 2 1) with lm := lmOf 7 [0x4001, 0] }, _, latch true, work 2 1, rfl, rfl,
    by decide, by decide, rfl⟩

/-- EncoderStartFaultsInOrder: one command for each clause. -/
theorem witness_EncoderStartFaultsInOrder :
    let m : Args := { start := 0, count := 1, srcBase := 0xFFFF, srcLen := 2, dstBase := 0, dstLen := 8 }
    let r : Args := { start := 3, count := 1, srcBase := 0, srcLen := 2, dstBase := 0, dstLen := 8 }
    let d : Args := { start := 0, count := 1, srcBase := 0, srcLen := 1, dstBase := 0, dstLen := 6 }
    m.mapped machine.pmWords machine.lmWords = false ∧
    (r.mapped machine.pmWords machine.lmWords = true ∧ r.srcLen.toNat < r.start.toNat + r.count.toNat) ∧
    (d.mapped machine.pmWords machine.lmWords = true ∧ d.start.toNat + d.count.toNat ≤ d.srcLen.toNat ∧
      d.dstLen.toNat < 7) ∧ m.count ≠ 0 ∧ r.count ≠ 0 ∧ d.count ≠ 0 := by decide

/-- EncoderStartWritesTheHeader, EncodeTakesCountPlusTwoSteps and WorstCaseBufferNeverOverflows. -/
theorem witness_AnEncodeStarts :
    let s := acceptedEncode 10 [5]
    ∃ a, s.enc.phase = .accepted a ∧ a.count ≠ 0 ∧ a.mapped s.pmWords s.lmWords = true ∧
      a.start.toNat + a.count.toNat ≤ a.srcLen.toNat ∧ 7 ≤ a.dstLen.toNat ∧
      3 * a.count.toNat + 7 ≤ a.dstLen.toNat :=
  ⟨_, rfl, by decide, by decide, by decide, by decide, by decide⟩

/-- ScanStepExtendsOrFlushesTheRun before the last pixel: an equal pixel, a nonzero one after a zero run, and
one that ends a nonzero run. -/
theorem witness_ScanStepExtendsOrFlushesTheRun :
    let s := fun (p : Pixel) => encoding (pmOf [0, 0, 4]) (encWork 1 p)
    (∀ p : Pixel, 0 ≤ p.toInt → (encWork 1 p).Ok encArgs (s p).pmWords (s p).lmWords) ∧
    (encWork 1 4).ip.toNat < (encWork 1 4).xe.toNat ∧
    (4 : Pixel).toInt = max 0 (pmRead (s 4).pm (encArgs.srcBase.toNat + (encWork 1 4).ip.toNat + 1)).toInt ∧
    (4 : Pixel) = (encWork 1 4).pv ∧ ((4 : Pixel) ≠ (encWork 1 0).pv ∧ (encWork 1 0).pv = 0) ∧
    ((4 : Pixel) ≠ (encWork 1 9).pv ∧ (encWork 1 9).pv ≠ 0) :=
  ⟨fun p hp => encWork_ok 1 p (by decide) hp, by decide, by decide, by decide, by decide, by decide⟩

/-- ScanStepExtendsOrFlushesTheRun at the last pixel: with a zero run and with a nonzero one; a flush that
goes on and one that faults. -/
theorem witness_ScanStepAtTheLastPixel :
    let s := fun (p : Pixel) => encoding (pmOf [0, 0, 4]) (encWork 2 p)
    (∀ p : Pixel, 0 ≤ p.toInt → (encWork 2 p).Ok encArgs (s p).pmWords (s p).lmWords) ∧
    (encWork 2 4).ip.toNat = (encWork 2 4).xe.toNat ∧ (encWork 2 0).pv = 0 ∧ (encWork 2 4).pv ≠ 0 ∧
    (∃ lm' w', flush encArgs 2 ⟨[]⟩ (encWork 2 4) = .ok () lm' w') ∧
    ∃ c i lm', flush { encArgs with dstLen := 7 } 2 ⟨[]⟩ (encWork 2 4) = .raise c i lm' :=
  ⟨fun p hp => encWork_ok 2 p (by decide) hp, by decide, by decide, by decide, ⟨_, _, rfl⟩, ⟨_, _, _, rfl⟩⟩

/-- FlushEmitsTheSegment: a segment that fits, one that does not, one that needs too large a set-high. -/
theorem witness_FlushEmitsTheSegment :
    let w := fun (p : Pixel) (op : BitVec 32) => ({ encWork 0 p with op := op } : EncWork)
    ((w 5 7).iz.toNat + 0 = (w 5 7).x1.toNat ∧ (w 5 7).x1.toNat + 1 = (0 : BitVec 33).toNat + 1 ∧
      (1 = 0 ↔ (w 5 7).pv = 0) ∧ 0 ≤ (w 5 7).pv.toInt ∧ (w 5 7).op.toNat ≤ encArgs.dstLen.toNat ∧
      segmentWords (w 5 7).hi.toInt (w 5 7).pv.toNat 1 0 = some [0x6004]) ∧
    ((w 5 16).op.toNat ≤ encArgs.dstLen.toNat ∧ ¬((w 5 16).op.toNat + 1 ≤ encArgs.dstLen.toNat)) ∧
    segmentWords (w 134217728 7).hi.toInt (w 134217728 7).pv.toNat 1 0 = none := by decide

/-- FinishStepWritesTheLength, on both sides of MAX_LEN. -/
theorem witness_FinishStepWritesTheLength :
    let w := fun (op : BitVec 32) => ({ encWork 3 5 with op := op } : EncWork)
    (encoding ⟨[]⟩ (w 8)).enc.phase = .running encArgs (w 8) ∧ (w 8).xe.toNat < (w 8).ip.toNat ∧
    7 ≤ encArgs.dstLen.toNat ∧ (w 1073741823).op.toNat ≤ 1073741823 ∧
    ¬((w 1073741824).op.toNat ≤ 1073741823) := by decide

/-- EncodedLengthIsBounded and DecodeOfEncodeIsTheClampedRow: an encode of [-7, 3] that completes; then the
host writes DEC's registers and GO, as R126 has it. -/
theorem witness_DecodeOfEncodeIsTheClampedRow :
    let k : DecLatch :=
      { args := { start := 0, count := 2, srcBase := 0, srcLen := 9, dstBase := 8, dstLen := 2 }, strict := false }
    let s₁ := encSteps 4 (acceptedEncode 20 [-7, 3])
    let t := ([(0x110, 2), (0x118, 9), (0x11C, 8), (0x120, 2), (0x100, 1)] : List (Nat × Reg32)).foldl
      (fun s p => writeReg s p.1 p.2) s₁
    s₁.enc.phase = .done ∧ s₁.enc.result = 9 ∧ s₁.dec.phase = .idle ∧ t.dec.phase = .accepted k ∧
      (∀ i, i < 9 → lmRead t.lm (k.args.srcBase.toNat + i) = lmRead s₁.lm i) ∧
      k.args.mapped t.lmWords t.pmWords = true ∧
      s₁.enc.result.toNat ≤ k.args.srcLen.toNat ∧ k.args.count.toNat ≤ k.args.dstLen.toNat := by
  decide +kernel

/-- DecodeEndsWithinItsBound. -/
theorem witness_DecodeEndsWithinItsBound :
    let s := acceptedDecode false 2 2 [0, 7, 0xFF9C, 8, 0, 0, 0, 0x4001]
    ∃ k h, s.dec.phase = .accepted k ∧ k.args.count ≠ 0 ∧ readHeader k.args s.lm = .ok h :=
  ⟨_, { fmt := .current, version := -100, hl := 7, lo := 8, hi := 0 }, rfl, by decide, by decide⟩

/-- UnitsApartCommute: both units run, apart. -/
theorem witness_UnitsApartCommute :
    ∃ s s' : State, UnitsApart s ∧ encLatched s = some encArgs ∧ (decLatched s).isSome = true ∧
      decStep s = .next s' :=
  ⟨{ decoding (latch false) (work 5 1) with
      dec := { machine.dec with
        phase := .running { latch false with args := { (latch false).args with srcBase := 0x100 } } (work 5 1) }
      enc := { machine.enc with phase := .running encArgs (encWork 1 4) } }, _,
    fun a b ha hb => by
      cases ha; cases hb
      exact ⟨.inl (by decide), .inr (by decide)⟩, rfl, rfl, rfl⟩

/-- GoStartsAnIdleUnit, ClearReturnsAUnitToIdle and RegisterWritesCannotDisturbACommand: both units BUSY, and
neither. -/
theorem witness_BusyAndIdleUnits :
    (machine.inReset = false ∧ machine.enc.phase.busy = false ∧ machine.dec.phase.busy = false ∧
      (1 : Reg32).getLsbD 0 = true ∧ (2 : Reg32).getLsbD 0 = false ∧ (2 : Reg32).getLsbD 1 = true) ∧
    (decoding (latch false) (work 2 1)).dec.phase.busy = true ∧
    (encoding ⟨[]⟩ (encWork 1 4)).enc.phase.busy = true := by decide

/-- ArgumentRegistersReadBack and ReservedAndReadOnlyRegistersAreInert. -/
theorem witness_Offsets :
    (isArgOffset 0x0C ∧ isArgOffset 0x20 ∧ isArgOffset 0x10C ∧ isArgOffset 0x120) ∧
    isReservedOffset 0x30 ∧ isReservedOffset 0x22 ∧ isReservedOffset 0x200 ∧ machine.inReset = false := by
  unfold isArgOffset isReservedOffset
  decide

/-- ResetStopsUnitsAndSetsRegisters and StepKeepsAssertedReset. -/
theorem witness_AssertedReset :
    let s : State := { assertReset machine with sched := [.enc] }
    s.inReset = true ∧ nextAgent s ≠ .host ∧ ResetHolds s ∧ ∃ s' : State, step s = .next s' :=
  ⟨rfl, by decide, fun _ => ⟨rfl, rfl, rfl⟩, ⟨_, rfl⟩⟩

/-- HostAccessesReadAndWriteWords, HostAccessesRaiseNoFault and OnlyAbsentWordsStopTheMachine: the last word of a
memory, and the first that does not exist. -/
theorem witness_HostAccesses :
    (0xFFFF < machine.pmWords ∧ 0xFFFF < machine.lmWords) ∧
    (∃ s' : State, hostAct (.writePm 0xFFFF 5) machine = .next s') ∧
    (∃ s' : State, hostAct (.writeLm 0xFFFF 5) machine = .next s') ∧
    step { machine with sched := [.host], hostOps := [.readPm 0x10000] } = .fault .absentPmWord ∧
    step { machine with sched := [.host], hostOps := [.writeLm 0x10000 1] } = .fault .absentLmWord :=
  ⟨by decide, ⟨_, rfl⟩, ⟨_, rfl⟩, rfl, rfl⟩

/-- A state in which nothing but the choice of the agent goes on: no command runs and the host has no action. -/
def Quiet (s : State) : Prop :=
  s.hostOps = [] ∧ s.inReset = false ∧ s.enc.phase = .idle ∧ s.dec.phase = .done

theorem step_quiet {s : State} (h : Quiet s) : step s = .next (afterChoice s) := by
  obtain ⟨h1, h2, h3, h4⟩ := h
  unfold step agentStep
  cases nextAgent s <;> simp [hostStep, encStep, decStep, h1, h2, h3, h4]

theorem quiet_afterChoice {s : State} (h : Quiet s) : Quiet (afterChoice s) := by
  simpa [Quiet] using h

/-- The execution that goes on from a state by choices of the agent alone. -/
def quietRun (s : State) : Nat → State
  | 0 => s
  | n + 1 => afterChoice (quietRun s n)

theorem quiet_quietRun {s : State} (h : Quiet s) : ∀ n, Quiet (quietRun s n)
  | 0 => h
  | n + 1 => quiet_afterChoice (quiet_quietRun h n)

/-- FinishedUnitsRestAndBusyUnitsEnd: an execution from a BUSY decode command, and its fill step. -/
theorem witness_FinishedUnitsRestAndBusyUnitsEnd :
    ∃ r : Nat → State, IsRun r ∧ EncoderOk (r 0) ∧ DecoderOk (r 0) ∧ ResetHolds (r 0) ∧
      unitBusy (r 0) .dec = true :=
  let s₀ := decoding (latch false) (work 5 1)
  let s₁ := after (step s₀)
  have hq : Quiet s₁ := ⟨rfl, rfl, rfl, rfl⟩
  ⟨fun n => match n with
    | 0 => s₀
    | n + 1 => quietRun s₁ n,
    fun n => match n with
      | 0 => rfl
      | n + 1 => step_quiet (quiet_quietRun hq n),
    trivial, work_ok false 5 1 (by decide), fun h => (by cases h), rfl⟩

/-- The invariants' statements: a running decode command and a running encode command that step. -/
theorem witness_InvariantsHoldWhileRunning :
    (∃ s s' : State, DecoderOk s ∧ EncoderOk s ∧ MemoriesCanonical s ∧ CellsExist s ∧ RegistersOk s ∧
      s.dec.phase.busy = true ∧ step s = .next s') ∧
    ∃ s s' : State, DecoderOk s ∧ EncoderOk s ∧ MemoriesCanonical s ∧ CellsExist s ∧ RegistersOk s ∧
      s.enc.phase.busy = true ∧ step s = .next s' :=
  ⟨⟨decoding (latch true) (work 5 1), _, work_ok true 5 1 (by decide), trivial, ⟨rfl, rfl⟩, ⟨rfl, rfl⟩,
      ⟨rfl, rfl, rfl⟩, rfl, rfl⟩,
    ⟨encoding (pmOf [0, 0, 4]) (encWork 1 4), _, trivial, encWork_ok 1 4 (by decide) (by decide),
      ⟨by decide, rfl⟩, ⟨by decide, rfl⟩, ⟨⟨rfl, rfl⟩, rfl⟩, rfl, rfl⟩⟩

end Sys2Proof.Tests
end

section
/-! The start step's map check (R41), said once for both units. -/

namespace Sys2Proof.Machine

/-- The map check fails exactly where one of the two buffers reaches past its memory's end (R41). -/
theorem Args.mapped_eq_false_iff (a : Args) (srcWords dstWords : Nat) :
    a.mapped srcWords dstWords = false ↔
      srcWords < a.srcBase.toNat + a.srcLen.toNat ∨ dstWords < a.dstBase.toNat + a.dstLen.toNat := by
  simp only [Args.mapped, Bool.and_eq_false_iff, decide_eq_false_iff_not, Nat.not_le]

/-- The first step of an accepted encode command is its start step (R30). -/
theorem encStep_of_accepted {s : State} {a : Args} (h : s.enc.phase = .accepted a) :
    encStep s = encStart a s := by
  simp [encStep, h]

/-- The first step of an accepted decode command is its start step (R30). -/
theorem decStep_of_accepted {s : State} {k : DecLatch} (h : s.dec.phase = .accepted k) :
    decStep s = .next (decStart k s) := by
  simp [decStep, h]

/-- ENC's map check comes right after the zero-count check (R41, R78). -/
theorem encStart_of_not_mapped {s : State} {a : Args} (hcount : a.count ≠ 0)
    (hmap : a.mapped s.pmWords s.lmWords = false) : encStart a s = raiseFault .enc .map 0 s := by
  rw [encStart, if_neg hcount, if_pos (by simp [hmap])]

/-- DEC's map check comes right after the zero-count check (R41, R90). -/
theorem decStart_of_not_mapped {s : State} {k : DecLatch} (hcount : k.args.count ≠ 0)
    (hmap : k.args.mapped s.lmWords s.pmWords = false) : decStart k s = raiseFault .dec .map 0 s := by
  rw [decStart, if_neg hcount, if_pos (by simp [hmap])]

/-- Settles O22: either unit's first step is its start step, whose map check fails. -/
theorem unmappedBufferFaults : Obligations.UnmappedBufferFaults := by
  intro s
  refine ⟨fun a hphase hcount hout => ?enc, fun k hphase hcount hout => ?dec⟩
  case enc =>
    have hmap : a.mapped s.pmWords s.lmWords = false := (a.mapped_eq_false_iff _ _).mpr hout
    rw [encStep_of_accepted hphase, encStart_of_not_mapped hcount hmap]
  case dec =>
    have hmap : k.args.mapped s.lmWords s.pmWords = false := (k.args.mapped_eq_false_iff _ _).mpr hout
    rw [decStep_of_accepted hphase, decStart_of_not_mapped hcount hmap]

end Sys2Proof.Machine
end

section
/-! The finish step of ENC (R85): the encoded length goes to header elements 3 and 4. -/

namespace Sys2Proof.Machine

/-- A natural number below 2^16 is the unsigned value of its word (R7). -/
theorem bits16_natCast_toNat {n : Nat} (h : n < 65536) : (bits16 (n : Int)).toNat = n := by
  rw [bits16, BitVec.ofInt_natCast, BitVec.toNat_ofNat, Nat.mod_eq_of_lt h]

/-- A destination write inside the buffer is done, and the writes after it follow (R43). -/
theorem encWriteAll_cons_of_lt {a : Args} {i : Int} (h0 : 0 ≤ i) (hi : i < a.dstLen.toNat) (v : Word16)
    (rest : List (Int × Word16)) (lm : Memory) :
    encWriteAll a ((i, v) :: rest) lm =
      encWriteAll a rest (lmWrite lm (a.dstBase.toNat + i.toNat) v) := by
  rw [encWriteAll, encDstWrite, if_pos ((inBuffer_iff _ _).2 ⟨h0, hi⟩)]

/-- A running command whose cursor is past its last pixel takes the finish step (R79, R85). -/
theorem encStep_of_scanned {s : State} {a : Args} {w : EncWork} (h : s.enc.phase = .running a w)
    (hip : w.xe.toNat < w.ip.toNat) : encStep s = encFinish a w s := by
  simp [encStep, h, hip]

/-- LM with the length in header elements 3 and 4 of the destination buffer (R62, R85). -/
def writeLength (a : Args) (len : Nat) (lm : Memory) : Memory :=
  lmWrite (lmWrite lm (a.dstBase.toNat + 3) (bits16 (len % lenSplit : Nat)))
    (a.dstBase.toNat + 4) (bits16 (len / lenSplit : Nat))

theorem lmRead_writeLength_lo (a : Args) (len : Nat) (lm : Memory) :
    (lmRead (writeLength a len lm) (a.dstBase.toNat + 3)).toNat = len % 32768 := by
  rw [writeLength, lmRead_lmWrite_ne _ _ _ _ (by omega), lmRead_lmWrite_same, lenSplit,
    bits16_natCast_toNat (by omega)]

theorem lmRead_writeLength_hi (a : Args) {len : Nat} (hlen : len ≤ maxLen) (lm : Memory) :
    (lmRead (writeLength a len lm) (a.dstBase.toNat + 4)).toNat = len / 32768 := by
  rw [maxLen] at hlen
  rw [writeLength, lmRead_lmWrite_same, lenSplit, bits16_natCast_toNat (by omega)]

theorem lmRead_writeLength_ne (a : Args) (len : Nat) (lm : Memory) {x : Nat}
    (h3 : x ≠ a.dstBase.toNat + 3) (h4 : x ≠ a.dstBase.toNat + 4) :
    lmRead (writeLength a len lm) x = lmRead lm x := by
  rw [writeLength, lmRead_lmWrite_ne _ _ _ _ h4, lmRead_lmWrite_ne _ _ _ _ h3]

/-- The finish step of a length that fits completes the command: its two writes are inside the buffer. -/
theorem encFinish_of_le_maxLen {a : Args} {w : EncWork} (s : State) (hlen : w.op.toNat ≤ maxLen)
    (hdst : headerLen ≤ a.dstLen.toNat) :
    encFinish a w s = completeCommand .enc w.op { s with lm := writeLength a w.op.toNat s.lm } := by
  rw [headerLen] at hdst
  rw [encFinish, if_neg (Nat.not_lt.2 hlen), encWriteAll_cons_of_lt (by omega) (by omega),
    encWriteAll_cons_of_lt (by omega) (by omega)]
  rfl

/-- The finish step checks the length before it writes (R85, R113). -/
theorem encFinish_of_maxLen_lt {a : Args} {w : EncWork} (s : State) (hlen : maxLen < w.op.toNat) :
    encFinish a w s = raiseFault .enc .lengthRange w.op.toNat s := by
  rw [encFinish, if_pos hlen]

/-- Settles O33: the step is the finish step, and the length decides which of its two ends it takes. -/
theorem finishStepWritesTheLength : Obligations.FinishStepWritesTheLength := by
  intro s a w hphase hip hdst
  rw [encStep_of_scanned hphase hip]
  split
  case isTrue hlen =>
    exact ⟨writeLength a w.op.toNat s.lm, encFinish_of_le_maxLen s hlen hdst,
      lmRead_writeLength_lo a _ _, lmRead_writeLength_hi a hlen _,
      fun x h3 h4 => lmRead_writeLength_ne a _ _ h3 h4⟩
  case isFalse hlen => exact encFinish_of_maxLen_lt s (Nat.not_le.1 hlen)

end Sys2Proof.Machine
end

section
/-! What every instruction of DEC rests on: its first word as bit fields (R65, R71), and its meaning where
a decode command runs (R92). -/

namespace Sys2Proof.Machine

/-! ### Encodings -/

/-- Packing is putting the opcode field before the data field (R65, R67). -/
theorem pack_eq_append (op : BitVec 4) (d : BitVec 12) : pack op.toNat d.toNat = op ++ d := by
  apply BitVec.eq_of_toNat_eq
  rw [pack_toNat op.isLt d.isLt, BitVec.toNat_append, ← Nat.shiftLeft_add_eq_or_of_lt d.isLt,
    Nat.shiftLeft_eq]

/-- The form in which a one-word instruction's encoding meets its bit fields (R71). -/
theorem singleton_pack_eq_append (op : BitVec 4) (d : BitVec 12) : [pack op.toNat d.toNat] = [op ++ d] :=
  congrArg (fun w0 => [w0]) (pack_eq_append op d)

/-! ### Meanings under a running command -/

section
variable {s : State} {k : DecLatch} {w : DecWork} (hrun : s.dec.phase = .running k w)
include hrun

theorem exec_zn_running (d : BitVec 12) : exec (.zn d) s = .next (runPixels k w d 0 s) :=
  inCommand_running _ hrun

theorem exec_hn_running (d : BitVec 12) : exec (.hn d) s = .next (runPixels k w d w.high s) :=
  inCommand_running _ hrun

theorem exec_pn_running (d : BitVec 12) : exec (.pn d) s = .next (runZerosThenHigh k w d s) :=
  inCommand_running _ hrun

theorem exec_sh_running (d : BitVec 12) (w1 : Word16) :
    exec (.sh d w1) s = .next
      (if k.strict ∧ w.L.toInt ≤ w.ip.toInt + 1 then raiseFault .dec .truncated w.ip.toInt s
      else if inBuffer k.args.srcLen (w.ip.toInt + 1) then
        s.decGoOn k { w with high := int32 (shValue d w1), ip := w.ip + 2 } s.pm
      else raiseFault .dec .srcBounds (w.ip.toInt + 1) s) :=
  inCommand_running _ hrun

theorem exec_ih_running (d : BitVec 12) :
    exec (.ih d) s = .next (changeHigh w (w.high.toInt + d.toNat) s fun w' =>
      s.decGoOn k { w' with ip := w.ip + 1 } s.pm) :=
  inCommand_running _ hrun

theorem exec_dh_running (d : BitVec 12) :
    exec (.dh d) s = .next (changeHigh w (w.high.toInt - d.toNat) s fun w' =>
      s.decGoOn k { w' with ip := w.ip + 1 } s.pm) :=
  inCommand_running _ hrun

theorem exec_is_running (d : BitVec 12) :
    exec (.is d) s = .next (changeHigh w (w.high.toInt + d.toNat) s fun w' => emitPixel k w' s) :=
  inCommand_running _ hrun

theorem exec_ds_running (d : BitVec 12) :
    exec (.ds d) s = .next (changeHigh w (w.high.toInt - d.toNat) s fun w' => emitPixel k w' s) :=
  inCommand_running _ hrun

theorem exec_reserved_running (op : BitVec 4) (x : BitVec 12) :
    exec (.reserved op x) s = .next
      (if k.strict then raiseFault .dec .badOpcode w.ip.toInt s
      else s.decGoOn k { w with ip := w.ip + 1 } s.pm) :=
  inCommand_running _ hrun

end

/-- Settles O17: the latched STRICT decides between the two. -/
theorem reservedOpcodeSkipsOrFaults : Obligations.ReservedOpcodeSkipsOrFaults := by
  intro s k w op x hrun
  refine ⟨singleton_pack_eq_append op x, fun hstrict => ?skip, fun hstrict => ?fault⟩
  case skip => rw [exec_reserved_running hrun, if_neg (by simp [hstrict])]
  case fault => rw [exec_reserved_running hrun, if_pos hstrict]

end Sys2Proof.Machine
end

section
/-! The instructions that change the high value and write no pixel: SH, IH, DH (R94, R96 to R98). -/

namespace Sys2Proof.Machine

/-! ### The second word of a set-high (R42, R96) -/

theorem inBuffer_eq_decSrcRead_isSome (a : Args) (lm : Memory) (i : Int) :
    inBuffer a.srcLen i = (decSrcRead a lm i).isSome := by
  unfold decSrcRead
  split <;> simp [*]

/-- Settles O12: TRUNCATED is checked first, then the read of the second word; a set-high's value always
fits the register (R94). -/
theorem setHighLoadsTheHighValue : Obligations.SetHighLoadsTheHighValue := by
  intro s k w d w1 hrun
  refine ⟨congrArg (fun w0 => [w0, w1]) (pack_eq_append 1#4 d), ?_⟩
  rw [exec_sh_running hrun, inBuffer_eq_decSrcRead_isSome k.args s.lm]
  split
  case isTrue hcut => rfl
  case isFalse hwhole =>
    refine ⟨fun hnone => ?outside, fun hsome => ?inside⟩
    case outside => rw [hnone]; rfl
    case inside =>
      have hrange := shValue_range d w1
      have hvalue : (int32 (shValue d w1)).toInt = w1.toInt * 4096 + d.toNat :=
        int32_toInt _ (by omega)
      exact ⟨int32 (shValue d w1), hvalue, by rw [hsome]; rfl⟩

/-! ### Changes of the high value (R94) -/

/-- A change that stays in the 32-bit signed range is exact. -/
theorem changeHigh_of_fits (w : DecWork) {t : Int} (s : State) (f : DecWork → State)
    (ht : -2147483648 ≤ t ∧ t ≤ 2147483647) :
    (int32 t).toInt = t ∧ changeHigh w t s f = f { w with high := int32 t } := by
  rcases changeHigh_cases w t s f with ⟨_, hvalue, hgo⟩ | ⟨hout, _⟩
  · exact ⟨hvalue, hgo⟩
  · exact absurd ht hout

/-- A change that leaves the 32-bit signed range raises HIGH_OVERFLOW before anything changes. -/
theorem changeHigh_of_overflow (w : DecWork) {t : Int} (s : State) (f : DecWork → State)
    (ht : ¬(-2147483648 ≤ t ∧ t ≤ 2147483647)) :
    changeHigh w t s f = raiseFault .dec .highOverflow w.ip.toInt s := by
  rcases changeHigh_cases w t s f with ⟨hin, _⟩ | ⟨_, hfault⟩
  · exact absurd hin ht
  · exact hfault

/-- An increase can leave the range upwards only. -/
theorem high_add_fits_iff (h : Pixel) (d : Nat) :
    (-2147483648 ≤ h.toInt + d ∧ h.toInt + d ≤ 2147483647) ↔ h.toInt + d ≤ 2147483647 := by
  have hlow := BitVec.le_toInt h
  norm_num at hlow
  omega

/-- A decrease can leave the range downwards only. -/
theorem high_sub_fits_iff (h : Pixel) (d : Nat) :
    (-2147483648 ≤ h.toInt - d ∧ h.toInt - d ≤ 2147483647) ↔ -2147483648 ≤ h.toInt - d := by
  have hhigh := BitVec.toInt_lt (x := h)
  norm_num at hhigh
  omega

/-- Settles O13: the sum fits exactly where it does not pass the upper end of the range. -/
theorem incHighAddsExactly : Obligations.IncHighAddsExactly := by
  intro s k w d hrun
  refine ⟨singleton_pack_eq_append 2#4 d, ?_⟩
  rw [exec_ih_running hrun]
  split
  case isTrue hle =>
    obtain ⟨hvalue, hgo⟩ := changeHigh_of_fits w s _ ((high_add_fits_iff _ _).2 hle)
    exact ⟨_, hvalue, congrArg _ hgo⟩
  case isFalse hgt =>
    exact congrArg _ (changeHigh_of_overflow w s _ (mt (high_add_fits_iff _ _).1 hgt))

/-- Settles O14: the difference fits exactly where it does not pass the lower end of the range. -/
theorem decHighSubtractsExactly : Obligations.DecHighSubtractsExactly := by
  intro s k w d hrun
  refine ⟨singleton_pack_eq_append 3#4 d, ?_⟩
  rw [exec_dh_running hrun]
  split
  case isTrue hge =>
    obtain ⟨hvalue, hgo⟩ := changeHigh_of_fits w s _ ((high_sub_fits_iff _ _).2 hge)
    exact ⟨_, hvalue, congrArg _ hgo⟩
  case isFalse hlt =>
    exact congrArg _ (changeHigh_of_overflow w s _ (mt (high_sub_fits_iff _ _).1 hlt))

end Sys2Proof.Machine
end

section
/-! One pixel at the high value: IS, DS (R94, R101, R102). -/

namespace Sys2Proof.Machine

theorem inWindow_iff (start : Reg32) (w : DecWork) :
    inWindow start w = true ↔ start.toNat ≤ w.x1 ∧ w.x1 ≤ w.xe := by
  simp [inWindow]

/-- R106 does not speak of the high value. -/
theorem DecWork.CursorOk.setHigh {a : Args} {w : DecWork} (hc : w.CursorOk a) (h : Pixel) :
    ({ w with high := h } : DecWork).CursorOk a :=
  ⟨hc.count_pos, hc.dst_fits, hc.xe_eq, hc.cursor⟩

/-- In the window the cursor is D.x1's own destination element (R106), which the buffer holds (R90). -/
theorem DecWork.CursorOk.op_of_inWindow {a : Args} {w : DecWork} (hc : w.CursorOk a)
    (hin : a.start.toNat ≤ w.x1 ∧ w.x1 ≤ w.xe) :
    w.op.toNat = w.x1 - a.start.toNat ∧ w.op.toNat < a.dstLen.toNat := by
  obtain ⟨_, hdst, hxe, hop⟩ := hc
  omega

/-- A pixel in the window is written to its position's word and the cursor goes on. -/
theorem emitPixel_of_inWindow {k : DecLatch} {w : DecWork} (s : State) (hc : w.CursorOk k.args)
    (hin : k.args.start.toNat ≤ w.x1 ∧ w.x1 ≤ w.xe) :
    emitPixel k w s = s.decGoOn k { w with x1 := w.x1 + 1, ip := w.ip + 1, op := w.op + 1 }
      (pmWrite s.pm (windowAddr k.args w.x1) w.high) := by
  obtain ⟨hop, hfits⟩ := hc.op_of_inWindow hin
  rcases emitPixel_cases k w s with ⟨hout, _⟩ | ⟨_, _, hgo⟩ | ⟨_, hfull, _⟩
  · rw [(inWindow_iff _ _).2 hin] at hout; cases hout
  · rw [hgo, hop, windowAddr]
  · omega

/-- A pixel outside the window is not written. -/
theorem emitPixel_of_not_inWindow (k : DecLatch) {w : DecWork} (s : State)
    (hout : ¬(k.args.start.toNat ≤ w.x1 ∧ w.x1 ≤ w.xe)) :
    emitPixel k w s = s.decGoOn k { w with x1 := w.x1 + 1, ip := w.ip + 1 } s.pm := by
  rcases emitPixel_cases k w s with ⟨_, hgo⟩ | ⟨hin, _⟩ | ⟨hin, _⟩
  · exact hgo
  · exact absurd ((inWindow_iff _ _).1 hin) hout
  · exact absurd ((inWindow_iff _ _).1 hin) hout

/-- What IS and DS answer once the high value is `h`: it is in the window position's word, the only word of
PM that changes, where the window holds D.x1, and nothing is written elsewhere. -/
def PixelStored (k : DecLatch) (w : DecWork) (h : Pixel) (s : State)
    (o : Host.Outcome State Fault Refusal) : Prop :=
  if k.args.start.toNat ≤ w.x1 ∧ w.x1 ≤ w.xe then
    ∃ pm', o = .next (s.decGoOn k
        { w with high := h, x1 := w.x1 + 1, ip := w.ip + 1, op := w.op + 1 } pm') ∧
      pmRead pm' (windowAddr k.args w.x1) = h ∧
      ∀ x, x ≠ windowAddr k.args w.x1 → pmRead pm' x = pmRead s.pm x
  else o = .next (s.decGoOn k { w with high := h, x1 := w.x1 + 1, ip := w.ip + 1 } s.pm)

theorem emitPixel_stored {k : DecLatch} {w : DecWork} (h : Pixel) (s : State) (hc : w.CursorOk k.args) :
    PixelStored k w h s (.next (emitPixel k { w with high := h } s)) := by
  unfold PixelStored
  split
  case isTrue hin =>
    exact ⟨_, congrArg _ (emitPixel_of_inWindow s (hc.setHigh h) hin), pmRead_pmWrite_same _ _ _,
      fun x hx => pmRead_pmWrite_ne _ _ _ _ hx⟩
  case isFalse hout => exact congrArg _ (emitPixel_of_not_inWindow k s hout)

/-- A change of the high value that fits, then one pixel. -/
theorem changeHigh_emitPixel_stored {k : DecLatch} {w : DecWork} {t : Int} (s : State)
    (hc : w.CursorOk k.args) (ht : -2147483648 ≤ t ∧ t ≤ 2147483647) :
    ∃ h : Pixel, h.toInt = t ∧
      PixelStored k w h s (.next (changeHigh w t s fun w' => emitPixel k w' s)) := by
  obtain ⟨hvalue, hgo⟩ := changeHigh_of_fits w s (fun w' => emitPixel k w' s) ht
  exact ⟨int32 t, hvalue, by rw [hgo]; exact emitPixel_stored _ s hc⟩

/-- Settles O15: the sum as in IH, then one pixel. -/
theorem incStoreAddsAndStores : Obligations.IncStoreAddsAndStores := by
  intro s k w d hrun hc
  refine ⟨singleton_pack_eq_append 6#4 d, ?_⟩
  rw [exec_is_running hrun]
  split
  case isTrue hle => exact changeHigh_emitPixel_stored s hc ((high_add_fits_iff _ _).2 hle)
  case isFalse hgt =>
    exact congrArg _ (changeHigh_of_overflow w s _ (mt (high_add_fits_iff _ _).1 hgt))

/-- Settles O16: the difference as in DH, then one pixel. -/
theorem decStoreSubtractsAndStores : Obligations.DecStoreSubtractsAndStores := by
  intro s k w d hrun hc
  refine ⟨singleton_pack_eq_append 7#4 d, ?_⟩
  rw [exec_ds_running hrun]
  split
  case isTrue hge => exact changeHigh_emitPixel_stored s hc ((high_sub_fits_iff _ _).2 hge)
  case isFalse hlt =>
    exact congrArg _ (changeHigh_of_overflow w s _ (mt (high_sub_fits_iff _ _).1 hlt))

end Sys2Proof.Machine
end

section
/-! The pixel runs ZN, HN and PN (R93, R95, R99, R100): the elements a run writes are the window positions
it covers, since the cursor counts the positions already passed (R106). -/

namespace Sys2Proof.Machine

/-! ### A run's elements and positions -/

/-- The in-window part of a run fits the destination buffer. -/
theorem DecWork.CursorOk.run_fits {a : Args} {w : DecWork} (hc : w.CursorOk a) (d : BitVec 12) :
    (spanOf a.start w d).n.toNat = 0 ∨
      w.op.toNat + (spanOf a.start w d).n.toNat ≤ a.dstLen.toNat := by
  obtain ⟨_, hdst, hxe, hop⟩ := hc
  rw [spanOf_n]
  omega

/-- A position the run covers is one of the elements it writes. -/
theorem DecWork.CursorOk.windowAddr_of_runCovers {a : Args} {w : DecWork} (hc : w.CursorOk a)
    {d : BitVec 12} {p : Nat} (hp : runCovers a w d p) :
    ∃ j, j < (spanOf a.start w d).n.toNat ∧ windowAddr a p = a.dstBase.toNat + w.op.toNat + j := by
  obtain ⟨_, _, hxe, hop⟩ := hc
  obtain ⟨hfirst, hlast, hstart, hend⟩ := hp
  rw [spanOf_n, windowAddr]
  exact ⟨p - max w.x1 a.start.toNat, by omega, by omega⟩

/-- An element the run writes is that of a position it covers. -/
theorem DecWork.CursorOk.runCovers_of_element {a : Args} {w : DecWork} (hc : w.CursorOk a)
    {d : BitVec 12} {j : Nat} (hj : j < (spanOf a.start w d).n.toNat) :
    ∃ p, runCovers a w d p ∧ windowAddr a p = a.dstBase.toNat + w.op.toNat + j := by
  obtain ⟨_, _, hxe, hop⟩ := hc
  rw [spanOf_n] at hj
  unfold runCovers windowAddr
  exact ⟨max w.x1 a.start.toNat + j, by omega, by omega⟩

/-- The registers after a run, read from R106 instead of the span. -/
theorem DecWork.CursorOk.afterRun_eq_pastRun {a : Args} {w : DecWork} (hc : w.CursorOk a)
    (d : BitVec 12) : w.afterRun (spanOf a.start w d) = w.pastRun a d := by
  obtain ⟨_, _, hxe, hop⟩ := hc
  have hcount : w.op.toNat + (spanOf a.start w d).n.toNat =
      min (w.x1 + d.toNat) (w.xe + 1) - a.start.toNat := by
    rw [spanOf_n]; omega
  rw [DecWork.afterRun, DecWork.pastRun, spanOf_x2, hcount]

/-- A run of one value writes it at the window positions the run covers and nothing else. -/
theorem DecWork.CursorOk.storeRun_runWritten {a : Args} {w : DecWork} (hc : w.CursorOk a)
    (d : BitVec 12) (v : Pixel) (pm : Memory) :
    ∃ pm', storeRun a v (spanOf a.start w d).n.toNat w.op.toNat pm = .ok pm' ∧
      RunWritten a w d (fun _ => v) pm pm' := by
  obtain ⟨pm', hstore, hvalue, hframe⟩ := storeRun_of_fits a v _ w.op.toNat pm (hc.run_fits d)
  refine ⟨pm', hstore, fun p hp => ?covered, fun x hx => hframe x ?other⟩
  case covered =>
    obtain ⟨j, hj, haddr⟩ := hc.windowAddr_of_runCovers hp
    rw [haddr]
    exact hvalue j hj
  case other =>
    by_contra hinside
    obtain ⟨p, hp, haddr⟩ := hc.runCovers_of_element
      (d := d) (j := x - (a.dstBase.toNat + w.op.toNat)) (by omega)
    exact hx p hp (by omega)

/-! ### Runs of one value (R95, R99) -/

/-- A run of one value goes on past its positions, with its in-window part written. -/
theorem runPixels_writes {k : DecLatch} {w : DecWork} (hc : w.CursorOk k.args) (d : BitVec 12)
    (v : Pixel) (s : State) :
    ∃ pm', runPixels k w d v s = s.decGoOn k (w.pastRun k.args d) pm' ∧
      RunWritten k.args w d (fun _ => v) s.pm pm' := by
  obtain ⟨pm', hstore, hwritten⟩ := hc.storeRun_runWritten d v s.pm
  refine ⟨pm', ?_, hwritten⟩
  simp only [runPixels, hstore, hc.afterRun_eq_pastRun]

/-- Settles O9: a run of zeros. -/
theorem zeroRunWritesZeros : Obligations.ZeroRunWritesZeros := by
  intro s k w d hrun hc
  obtain ⟨pm', hgo, hwritten⟩ := runPixels_writes hc d 0 s
  exact ⟨singleton_pack_eq_append 0#4 d, pm',
    by rw [exec_zn_running hrun, hgo], hwritten⟩

/-- Settles O10: a run of the high value. -/
theorem highRunWritesHighValue : Obligations.HighRunWritesHighValue := by
  intro s k w d hrun hc
  obtain ⟨pm', hgo, hwritten⟩ := runPixels_writes hc d w.high s
  exact ⟨singleton_pack_eq_append 4#4 d, pm',
    by rw [exec_hn_running hrun, hgo], hwritten⟩

/-! ### A zero run with a high end (R100) -/

/-- The run's end is inside the window exactly where the run covers its own last position. -/
theorem spanOf_ends_inside_iff (a : Args) (w : DecWork) (d : BitVec 12) :
    (0 < (spanOf a.start w d).n ∧ (spanOf a.start w d).i2 = (spanOf a.start w d).x2) ↔
      ∃ p, runCovers a w d p ∧ p + 1 = w.x1 + d.toNat := by
  simp only [spanOf, runCovers]
  constructor
  · rintro ⟨hpos, hend⟩
    exact ⟨w.x1 + d.toNat - 1, by omega, by omega⟩
  · rintro ⟨p, hp, hlast⟩
    omega

/-- The last element a run with its end inside the window writes is its last position's, and that write is
done. -/
theorem DecWork.CursorOk.decDstWrite_lastPosition {a : Args} {w : DecWork} (hc : w.CursorOk a)
    {d : BitVec 12} {p : Nat} (hp : runCovers a w d p) (hlast : p + 1 = w.x1 + d.toNat) (pm : Memory)
    (v : Pixel) :
    decDstWrite a pm (w.op.toNat + (spanOf a.start w d).n - 1) v =
      some (pmWrite pm (windowAddr a p) v) := by
  obtain ⟨_, hdst, hxe, hop⟩ := hc
  obtain ⟨hfirst, _, hstart, hend⟩ := hp
  have helement : (w.op.toNat : Int) + (spanOf a.start w d).n - 1 = ((p - a.start.toNat : Nat) : Int) := by
    simp only [spanOf]; omega
  rw [helement, decDstWrite_natCast, if_pos (by omega), windowAddr]

/-- Writing one covered position again changes the run's value there only. -/
theorem RunWritten.pmWrite {a : Args} {w : DecWork} {d : BitVec 12} {f : Nat → Pixel} {pm pm' : Memory}
    (h : RunWritten a w d f pm pm') {p : Nat} (hp : runCovers a w d p) (v : Pixel) :
    RunWritten a w d (Function.update f p v) pm (pmWrite pm' (windowAddr a p) v) := by
  obtain ⟨hvalue, hframe⟩ := h
  refine ⟨fun q hq => ?covered, fun x hx => ?other⟩
  case covered =>
    by_cases hqp : q = p
    · subst hqp
      rw [pmRead_pmWrite_same, Function.update_self]
    · have haddr : windowAddr a q ≠ windowAddr a p := by
        obtain ⟨_, _, hp_start, _⟩ := hp
        obtain ⟨_, _, hq_start, _⟩ := hq
        unfold windowAddr
        omega
      rw [pmRead_pmWrite_ne _ _ _ _ haddr, Function.update_of_ne hqp, hvalue q hq]
  case other => rw [pmRead_pmWrite_ne _ _ _ _ (hx p hp), hframe x hx]

/-- Only covered positions' values count. -/
theorem RunWritten.congr {a : Args} {w : DecWork} {d : BitVec 12} {f g : Nat → Pixel} {pm pm' : Memory}
    (h : RunWritten a w d f pm pm') (hfg : ∀ p, runCovers a w d p → f p = g p) :
    RunWritten a w d g pm pm' := by
  obtain ⟨hvalue, hframe⟩ := h
  exact ⟨fun p hp => (hvalue p hp).trans (hfg p hp), hframe⟩

/-- A zero run with a high end goes on past its positions; its last position takes the high value where the
window holds it. -/
theorem runZerosThenHigh_writes {k : DecLatch} {w : DecWork} (hc : w.CursorOk k.args) (d : BitVec 12)
    (s : State) :
    ∃ pm', runZerosThenHigh k w d s = s.decGoOn k (w.pastRun k.args d) pm' ∧
      RunWritten k.args w d (fun p => if p + 1 = w.x1 + d.toNat then w.high else 0) s.pm pm' := by
  obtain ⟨pm₀, hstore, hzeros⟩ := hc.storeRun_runWritten d 0 s.pm
  unfold runZerosThenHigh
  simp only [hstore, hc.afterRun_eq_pastRun]
  split
  case isTrue hends =>
    obtain ⟨p, hp, hlast⟩ := (spanOf_ends_inside_iff k.args w d).1 hends
    rw [hc.decDstWrite_lastPosition hp hlast]
    refine ⟨_, rfl, (hzeros.pmWrite hp w.high).congr fun q _ => ?_⟩
    simp only [Function.update_apply, ← hlast, Nat.add_right_cancel_iff]
  case isFalse hcut =>
    refine ⟨pm₀, rfl, hzeros.congr fun q hq => (if_neg fun hlast => hcut ?_).symm⟩
    exact (spanOf_ends_inside_iff k.args w d).2 ⟨q, hq, hlast⟩

/-- Settles O11: a zero run with a high end. -/
theorem zeroRunPlusOneEndsHigh : Obligations.ZeroRunPlusOneEndsHigh := by
  intro s k w d hrun hc
  obtain ⟨pm', hgo, hwritten⟩ := runZerosThenHigh_writes hc d s
  exact ⟨singleton_pack_eq_append 5#4 d, pm',
    by rw [exec_pn_running hrun, hgo], hwritten⟩

end Sys2Proof.Machine
end

section
/-! The fill step of DEC (R91, R104). -/

namespace Sys2Proof.Machine

theorem loopEnded_iff (w : DecWork) : loopEnded w = true ↔ w.L.toInt ≤ w.ip.toInt ∨ w.xe < w.x1 := by
  simp [loopEnded]

/-- A running command whose loop has ended takes the fill step (R91). -/
theorem decStep_of_loopEnded {s : State} {k : DecLatch} {w : DecWork}
    (hrun : s.dec.phase = .running k w) (hend : loopEnded w = true) :
    decStep s = .next (decFill k w s) := by
  simp only [decStep, hrun, decRun, if_pos hend]

/-- The elements the loop has not written fit the destination buffer. -/
theorem DecWork.CursorOk.tail_fits {a : Args} {w : DecWork} (hc : w.CursorOk a) :
    a.count.toNat - w.op.toNat = 0 ∨ w.op.toNat + (a.count.toNat - w.op.toNat) ≤ a.dstLen.toNat := by
  obtain ⟨_, hdst, hxe, hop⟩ := hc
  omega

/-- Settles O8: the step is the fill step, whose run of zeros fits the destination buffer. -/
theorem fillStepZeroesTheTail : Obligations.FillStepZeroesTheTail := by
  intro s k w hrun hc hend
  obtain ⟨pm', hstore, hzeros, hframe⟩ :=
    storeRun_of_fits k.args 0 (k.args.count.toNat - w.op.toNat) w.op.toNat s.pm hc.tail_fits
  refine ⟨pm', ?step, fun j hop hj => ?zeroed, fun x hx => hframe x ?other⟩
  case step =>
    rw [decStep_of_loopEnded hrun ((loopEnded_iff w).2 hend), decFill, hstore]
    rfl
  case zeroed =>
    have hzero := hzeros (j - w.op.toNat) (by omega)
    rwa [Nat.add_assoc, Nat.add_sub_cancel' hop] at hzero
  case other =>
    by_contra hinside
    exact hx (x - k.args.dstBase.toNat) (by omega) (by omega) (by omega)

end Sys2Proof.Machine
end

section
/-! Decoding and encoding of instructions (R65 to R72), and the values split over two words (R62, R69). -/

namespace Sys2Proof

/-! ### What a first word decodes to -/

/-- The word after it matters to a set-high alone (R70). -/
theorem decodeWords_of_length_one {w0 : Word16} (h : lengthOf w0 ≠ 2) (w1 w1' : Word16) :
    decodeWords w0 w1 = decodeWords w0 w1' := by
  have hop : (opcodeOf w0).toNat ≠ 1 := fun h1 =>
    h (by rw [lengthOf, if_pos (BitVec.eq_of_toNat_eq h1)])
  unfold decodeWords
  split <;> first | rfl | contradiction

/-- A one-word instruction takes its word off the list (R70). -/
theorem decode_one {w0 : Word16} (h : lengthOf w0 ≠ 2) (rest : List Word16) :
    decode (w0 :: rest) = .ok (decodeWords w0 0, rest) := by
  cases rest with
  | nil => rw [decode, if_neg h]
  | cons w1 rest => rw [decode, if_neg h, decodeWords_of_length_one h w1 0]

/-- A set-high takes two words off the list (R69, R70). -/
theorem decode_two {w0 : Word16} (h : lengthOf w0 = 2) (w1 : Word16) (rest : List Word16) :
    decode (w0 :: w1 :: rest) = .ok (decodeWords w0 w1, rest) := by
  rw [decode, if_pos h]

/-- Reading the fields of a packed word back (R66, R67). -/
theorem decodeWords_pack {o : Nat} (ho : o < 16) (d : BitVec 12) (w1 : Word16) :
    decodeWords (pack o d.toNat) w1 =
      if o = 0 then .zn d
      else if o = 1 then .sh d w1
      else if o = 2 then .ih d
      else if o = 3 then .dh d
      else if o = 4 then .hn d
      else if o = 5 then .pn d
      else if o = 6 then .is d
      else if o = 7 then .ds d
      else .reserved (BitVec.ofNat 4 o) d := by
  rw [decodeWords, dataOf_pack ho d.isLt, opcodeOf_pack ho d.isLt, BitVec.ofNat_toNat,
    BitVec.setWidth_eq, BitVec.toNat_ofNat, Nat.mod_eq_of_lt ho]
  split
  case h_9 h0 h1 h2 h3 h4 h5 h6 h7 =>
    rw [if_neg h0, if_neg h1, if_neg h2, if_neg h3, if_neg h4, if_neg h5, if_neg h6, if_neg h7]
  all_goals rfl

/-- A packed word whose opcode is not set-high's is an instruction of its own. -/
theorem decode_pack {o : Nat} (ho : o < 16) (h1 : o ≠ 1) (d : BitVec 12) (rest : List Word16) :
    decode (pack o d.toNat :: rest) = .ok (decodeWords (pack o d.toNat) 0, rest) :=
  decode_one (by rw [lengthOf_pack ho d.isLt, if_neg h1]; decide) rest

/-- A reserved word decodes to its fields (R103). -/
theorem decodeWords_pack_reserved {op : BitVec 4} (h : 8 ≤ op.toNat) (x : BitVec 12) (w1 : Word16) :
    decodeWords (pack op.toNat x.toNat) w1 = .reserved op x := by
  rw [decodeWords_pack op.isLt, BitVec.ofNat_toNat, BitVec.setWidth_eq]
  iterate 8 rw [if_neg (by omega)]

/-- Settles O1: each constructor's words carry its opcode and its operands. -/
theorem encodedInstructionsDecodeBack : Obligations.EncodedInstructionsDecodeBack := by
  intro i rest hwf
  cases i with
  | sh d w =>
    rw [encode, List.cons_append, List.singleton_append,
      decode_two (by rw [lengthOf_pack (by decide) d.isLt, if_pos rfl]), decodeWords_pack (by decide)]
    rfl
  | reserved op x =>
    have h8 : 8 ≤ op.toNat := by simpa [Instr.wellFormed] using hwf
    rw [encode, List.singleton_append, decode_pack op.isLt (by omega), decodeWords_pack_reserved h8]
  | zn d | ih d | dh d | hn d | pn d | is d | ds d =>
    rw [encode, List.singleton_append, decode_pack (by decide) (by decide),
      decodeWords_pack (by decide)]
    rfl

/-! ### Words to instruction and back -/

/-- The opcode's number decides the instruction, which has the word's own fields. -/
theorem encode_decodeWords (w0 w1 : Word16) :
    encode (decodeWords w0 w1) = if lengthOf w0 = 2 then [w0, w1] else [w0] := by
  have hfields := pack_fields w0
  have hlen : lengthOf w0 = 2 ↔ (opcodeOf w0).toNat = 1 := by
    rw [← hfields, lengthOf_pack (opcodeOf w0).isLt (dataOf w0).isLt, hfields]
    split <;> simp [*]
  simp only [hlen]
  rw [decodeWords]
  split
  case h_9 h1 _ _ _ _ _ _ => rw [if_neg h1, encode, hfields]
  all_goals rename_i hop; rw [hop] at hfields ⊢; simp [encode, hfields]

/-- Words decode to well-formed instructions: only opcodes 8 to 15 give a reserved term (R72). -/
theorem decodeWords_wellFormed (w0 w1 : Word16) : (decodeWords w0 w1).wellFormed = true := by
  rw [decodeWords]
  split
  case h_9 h0 h1 h2 h3 h4 h5 h6 h7 =>
    change _ ≠ _ at h0 h1 h2 h3 h4 h5 h6 h7
    exact decide_eq_true (by omega)
  all_goals rfl

/-- Settles O2. -/
theorem decodedWordsEncodeBack : Obligations.DecodedWordsEncodeBack := fun w0 w1 =>
  ⟨decodeWords_wellFormed w0 w1, encode_decodeWords w0 w1⟩

/-- Settles O3: ten fixed words. -/
theorem sampleWordsDecode : Obligations.SampleWordsDecode := by
  unfold Obligations.SampleWordsDecode
  decide

end Sys2Proof

namespace Sys2Proof.Machine

/-! ### Values split over two words -/

/-- A natural number below 2^15 is the signed value of its word (R7). -/
theorem sext16_bits16 {n : Nat} (h : n < 32768) : sext16 (bits16 (n : Int)) = n := by
  rw [sext16, bits16, BitVec.ofInt_natCast, BitVec.toInt_ofNat']
  exact Int.bmod_eq_of_le (by omega) (by omega)

/-- The set-high pair of a value up to MAX_SH_VALUE loads it back (R69). -/
theorem shValue_setHighWords {v : Nat} (h : v ≤ maxShValue) :
    shValue (BitVec.ofNat 12 (v % shWeight)) (bits16 (v / shWeight : Nat)) = v := by
  unfold maxShValue at h
  unfold shValue shWeight
  rw [sext16_bits16 (by omega), BitVec.toNat_ofNat]
  omega

/-- The two length words of a length up to MAX_LEN give it back (R62). -/
theorem sext16_length_words {len : Nat} (h : len ≤ maxLen) :
    sext16 (bits16 (len % 32768 : Nat)) = (len % 32768 : Nat) ∧
      sext16 (bits16 (len / 32768 : Nat)) = (len / 32768 : Nat) := by
  unfold maxLen at h
  exact ⟨sext16_bits16 (by omega), sext16_bits16 (by omega)⟩

/-- Settles O4: both halves are below 2^15, where a word's signed value is its unsigned one. -/
theorem splitValuesReassemble : Obligations.SplitValuesReassemble := by
  refine ⟨fun v hv => ⟨_, _, rfl, ?opcode, ?value⟩, fun len hlen => ?length⟩
  case opcode => exact opcodeOf_pack (by decide) (Nat.mod_lt _ (by decide))
  case value =>
    have hdata : dataOf (pack 1 (v % shWeight)) = BitVec.ofNat 12 (v % shWeight) :=
      dataOf_pack (by decide) (Nat.mod_lt v (by decide))
    rw [hdata]
    exact shValue_setHighWords hv
  case length =>
    obtain ⟨hlo, hhi⟩ := sext16_length_words hlen
    rw [hlo, hhi]
    omega

end Sys2Proof.Machine
end

section
/-! The register space (R21 to R29): which offset is which register, and what a write leaves in each. -/

namespace Sys2Proof.Machine

/-! ### Offsets (R21) -/

/-- The offset of a register within its block (R21). -/
def regOffset : RegName → Nat
  | .control => 0x00
  | .status => 0x04
  | .config => 0x08
  | .start => 0x0C
  | .count => 0x10
  | .srcBase => 0x14
  | .srcLen => 0x18
  | .dstBase => 0x1C
  | .dstLen => 0x20
  | .result => 0x24
  | .finfo => 0x28
  | .id => 0x2C

theorem regAt_eq_some_iff (off : Nat) (r : RegName) : regAt off = some r ↔ off = regOffset r := by
  constructor
  · intro h
    unfold regAt at h
    split at h
    case h_13 => cases h
    all_goals cases h; rfl
  · rintro rfl
    cases r <;> rfl

theorem regOffset_le (r : RegName) : regOffset r ≤ 0x2C := by
  cases r <;> decide

/-- A register's offset is its block's plus its own. -/
theorem regOf_eq_some_iff (off : Nat) (u : UnitId) (r : RegName) :
    regOf off = some (u, r) ↔ off = blockOffset u + regOffset r := by
  have hr := regOffset_le r
  unfold regOf
  split
  case isTrue hlow =>
    cases u with
    | enc => simp [regAt_eq_some_iff, blockOffset]
    | dec => simp [blockOffset]; omega
  case isFalse hhigh =>
    cases u with
    | enc => simp [blockOffset]; omega
    | dec => simp [regAt_eq_some_iff, blockOffset]; omega

@[simp] theorem regOf_offset (u : UnitId) (r : RegName) :
    regOf (blockOffset u + regOffset r) = some (u, r) := (regOf_eq_some_iff _ u r).2 rfl

theorem readReg_offset (s : State) (u : UnitId) (r : RegName) :
    readReg s (blockOffset u + regOffset r) = readUnitReg s u r := by
  rw [readReg, regOf_offset]

theorem writeReg_offset {s : State} (hr : s.inReset = false) (u : UnitId) (r : RegName) (v : Reg32) :
    writeReg s (blockOffset u + regOffset r) v = writeUnitReg s u r v := by
  rw [writeReg, regOf_offset, hr]
  rfl

/-- A reserved offset is no register's (R21, R22). -/
theorem regOf_of_reserved {off : Nat} (h : isReservedOffset off) : regOf off = none := by
  cases hreg : regOf off with
  | none => rfl
  | some p =>
    obtain ⟨u, r⟩ := p
    have hoff := (regOf_eq_some_iff off u r).1 hreg
    unfold isReservedOffset at h
    cases u <;> cases r <;> simp only [blockOffset, regOffset] at hoff <;> omega

/-! ### Argument registers (R26) -/

/-- Whether a register is one of START to DST_LEN (R26). -/
def RegName.isArg : RegName → Bool
  | .start | .count | .srcBase | .srcLen | .dstBase | .dstLen => true
  | .control | .status | .config | .result | .finfo | .id => false

/-- The twelve argument offsets are those of the argument registers. -/
theorem isArgOffset_register {off : Nat} (h : isArgOffset off) :
    ∃ u r, RegName.isArg r = true ∧ off = blockOffset u + regOffset r := by
  unfold isArgOffset at h
  have hcases : (off = 0x0C ∨ off = 0x10 ∨ off = 0x14 ∨ off = 0x18 ∨ off = 0x1C ∨ off = 0x20) ∨
      (off = 0x10C ∨ off = 0x110 ∨ off = 0x114 ∨ off = 0x118 ∨ off = 0x11C ∨ off = 0x120) := by omega
  rcases hcases with (rfl | rfl | rfl | rfl | rfl | rfl) | (rfl | rfl | rfl | rfl | rfl | rfl)
  · exact ⟨.enc, .start, rfl, rfl⟩
  · exact ⟨.enc, .count, rfl, rfl⟩
  · exact ⟨.enc, .srcBase, rfl, rfl⟩
  · exact ⟨.enc, .srcLen, rfl, rfl⟩
  · exact ⟨.enc, .dstBase, rfl, rfl⟩
  · exact ⟨.enc, .dstLen, rfl, rfl⟩
  · exact ⟨.dec, .start, rfl, rfl⟩
  · exact ⟨.dec, .count, rfl, rfl⟩
  · exact ⟨.dec, .srcBase, rfl, rfl⟩
  · exact ⟨.dec, .srcLen, rfl, rfl⟩
  · exact ⟨.dec, .dstBase, rfl, rfl⟩
  · exact ⟨.dec, .dstLen, rfl, rfl⟩

/-- What the units' registers read after an argument register was written: its own value there, every other
register as before. -/
theorem readUnitReg_writeUnitReg_arg (s : State) (u u' : UnitId) {r : RegName} (hr : r.isArg = true)
    (r' : RegName) (v : Reg32) :
    readUnitReg (writeUnitReg s u r v) u' r' =
      if u' = u ∧ r' = r then v else readUnitReg s u' r' := by
  cases r <;> first | (cases hr; done) | (cases u <;> cases u' <;> cases r' <;> rfl)

/-- Settles O46: the offsets of two registers differ where the registers do. -/
theorem argumentRegistersReadBack : Obligations.ArgumentRegistersReadBack := by
  intro s off v hreset hoff
  obtain ⟨u, r, hr, rfl⟩ := isArgOffset_register hoff
  rw [writeReg_offset hreset]
  refine ⟨?same, fun off' hne => ?other⟩
  case same => rw [readReg_offset, readUnitReg_writeUnitReg_arg s u u hr r v, if_pos ⟨rfl, rfl⟩]
  case other =>
    cases hreg : regOf off' with
    | none => simp only [readReg, hreg]
    | some p =>
      obtain ⟨u', r'⟩ := p
      obtain rfl := (regOf_eq_some_iff off' u' r').1 hreg
      rw [readReg_offset, readReg_offset, readUnitReg_writeUnitReg_arg s u u' hr r' v, if_neg]
      rintro ⟨rfl, rfl⟩
      exact hne rfl

/-! ### Registers a write leaves alone (R22 to R25) -/

/-- STATUS, RESULT, FINFO and ID take no write. -/
theorem writeUnitReg_readOnly (s : State) (u : UnitId) {r : RegName}
    (h : r = .status ∨ r = .result ∨ r = .finfo ∨ r = .id) (v : Reg32) : writeUnitReg s u r v = s := by
  rcases h with rfl | rfl | rfl | rfl <;> cases u <;> rfl

/-- A write of a register that takes none has no effect, in reset or out of it. -/
theorem writeReg_of_inert {s : State} {u : UnitId} {r : RegName} {v : Reg32}
    (h : writeUnitReg s u r v = s) : writeReg s (blockOffset u + regOffset r) v = s := by
  unfold writeReg
  rw [regOf_offset]
  split
  · rfl
  · exact h

/-- Settles O47: a clause for each kind of offset. -/
theorem reservedAndReadOnlyRegistersAreInert : Obligations.ReservedAndReadOnlyRegistersAreInert := by
  intro s off v
  refine ⟨fun hoff => ?reserved, fun u hoff => ?readOnly, fun u => ?control, ⟨rfl, ?encConfig⟩,
    fun hreset => ?decConfig⟩
  case reserved => simp [readReg, writeReg, regOf_of_reserved hoff]
  case readOnly =>
    rcases hoff with rfl | rfl | rfl | rfl
    · exact writeReg_of_inert (r := .status) (writeUnitReg_readOnly s u (by simp) v)
    · exact writeReg_of_inert (r := .result) (writeUnitReg_readOnly s u (by simp) v)
    · exact writeReg_of_inert (r := .finfo) (writeUnitReg_readOnly s u (by simp) v)
    · exact writeReg_of_inert (r := .id) (writeUnitReg_readOnly s u (by simp) v)
  case control =>
    rw [show blockOffset u = blockOffset u + regOffset .control from rfl, readReg_offset]
    cases u <;> rfl
  case encConfig => exact writeReg_of_inert (u := .enc) (r := .config) rfl
  case decConfig =>
    have hwrite := writeReg_offset hreset .dec .config v
    have hread := readReg_offset (writeUnitReg s .dec .config v) .dec .config
    change readReg _ 0x108 = _ at hread
    change writeReg s 0x108 v = _ at hwrite
    rw [hwrite, hread]
    change ((BitVec.ofBool (v.getLsbD 0)).setWidth 32).toNat = _
    rw [BitVec.toNat_setWidth, BitVec.toNat_ofBool, BitVec.getLsbD, Nat.testBit_zero]
    rcases Nat.mod_two_eq_zero_or_one v.toNat with h | h <;> simp [h]

/-! ### Registers at reset (R29, R36) -/

/-- What the registers hold depends on the units and DEC's CONFIG alone. -/
theorem readReg_congr {s s' : State} (henc : s.enc = s'.enc) (hdec : s.dec = s'.dec)
    (hstrict : s.decStrict = s'.decStrict) (off : Nat) : readReg s off = readReg s' off := by
  have h : ∀ u r, readUnitReg s u r = readUnitReg s' u r := fun u r => by
    cases u <;> cases r <;> simp only [readUnitReg, henc, hdec, hstrict]
  unfold readReg
  split <;> simp [h]

/-- Settles O48: offset by offset of R21's table. -/
theorem resetValuesOfEveryRegister : Obligations.ResetValuesOfEveryRegister := by
  intro off
  cases hreg : regOf off with
  | none =>
    have hencId : off ≠ 0x02C := fun h => by rw [h] at hreg; cases hreg
    have hdecId : off ≠ 0x12C := fun h => by rw [h] at hreg; cases hreg
    rw [readReg, hreg, if_neg hencId, if_neg hdecId]
  | some p =>
    obtain ⟨u, r⟩ := p
    obtain rfl := (regOf_eq_some_iff off u r).1 hreg
    cases u <;> cases r <;> rfl

/-- Settles O49: asserted reset makes every register what it is after power-on, and release leaves them. -/
theorem resetStopsUnitsAndSetsRegisters : Obligations.ResetStopsUnitsAndSetsRegisters := by
  intro s
  refine ⟨⟨assertReset s, rfl, rfl, rfl, rfl, fun _ => ⟨rfl, rfl, rfl⟩, readReg_congr rfl rfl rfl⟩,
    fun hreset hagent => ?units, fun hreset hholds => ?release⟩
  case units =>
    unfold step
    cases hnext : nextAgent s with
    | host => exact absurd hnext hagent
    | enc => simp [agentStep, hreset]
    | dec => simp [agentStep, hreset]
  case release =>
    obtain ⟨henc, hdec, hstrict⟩ := hholds hreset
    exact ⟨releaseReset s, rfl, rfl, by simp [henc, CodecUnit.reset], by simp [hdec, CodecUnit.reset],
      readReg_congr henc hdec hstrict⟩

/-! ### STATUS and fault entry (R24, R110, R114) -/

/-- The number STATUS reads in a phase, by R110's table. -/
def Phase.statusNumber {κ ω : Type} : Phase κ ω → Nat
  | .idle => 0
  | .done => 2
  | .faulted c => 4 + 256 * faultNumber c
  | .accepted _ => 1
  | .running _ _ => 1

theorem status_toNat {κ ω : Type} (p : Phase κ ω) : p.status.toNat = p.statusNumber := by
  cases p with
  | faulted c => cases c <;> rfl
  | idle | done | accepted | running => rfl

/-- The shape of STATUS: its low bits name the state, bits 11:8 the fault of a FAULTED unit (R24). -/
def StatusShape (st : Reg32) (busy : Bool) : Prop :=
  st.getLsbD 0 = busy ∧
    (st.toNat % 8 = 0 ∨ st.toNat % 8 = 1 ∨ st.toNat % 8 = 2 ∨ st.toNat % 8 = 4) ∧
    (st.toNat / 8 % 32 = 0) ∧ (st.toNat < 4096) ∧ (st.toNat % 8 ≠ 4 → st.toNat / 256 = 0) ∧
    (st.toNat % 8 = 4 → 1 ≤ st.toNat / 256 ∧ st.toNat / 256 ≤ 9)

theorem statusShape_fault (c : FaultCode) : StatusShape ((c.code.setWidth 32 <<< 8) ||| 4) false := by
  unfold StatusShape
  cases c <;> decide

theorem status_shape {κ ω : Type} (p : Phase κ ω) : StatusShape p.status p.busy := by
  have hidle : StatusShape 0 false := by unfold StatusShape; decide
  have hbusy : StatusShape 1 true := by unfold StatusShape; decide
  have hdone : StatusShape 2 false := by unfold StatusShape; decide
  cases p with
  | idle => exact hidle
  | done => exact hdone
  | faulted c => exact statusShape_fault c
  | accepted k => exact hbusy
  | running k w => exact hbusy

/-- Settles O42: STATUS is the view of the phase. -/
theorem statusShowsOneOfFourStates : Obligations.StatusShowsOneOfFourStates := by
  intro s
  have henc : readReg s 0x004 = s.enc.phase.status := readReg_offset s .enc .status
  have hdec : readReg s 0x104 = s.dec.phase.status := readReg_offset s .dec .status
  refine ⟨?enc, ?dec, fun u => ?fields⟩
  case enc => rw [henc, status_toNat]; cases s.enc.phase <;> rfl
  case dec => rw [hdec, status_toNat]; cases s.dec.phase <;> rfl
  case fields =>
    cases u with
    | enc => exact ⟨rfl, status_shape s.enc.phase⟩
    | dec => exact ⟨rfl, status_shape s.dec.phase⟩

/-- FINFO is the information modulo 2^32 (log entry 19). -/
theorem int32_toNat (info : Int) : ((int32 info).toNat : Int) = info % 4294967296 := by
  rw [int32, BitVec.toNat_ofInt]
  omega

/-- Settles O41. -/
theorem faultEntryReportsCodeAndInfo : Obligations.FaultEntryReportsCodeAndInfo := by
  refine ⟨fun c info s => ⟨int32 info, int32_toNat info, rfl, rfl, ?_, ?_, rfl, rfl⟩, by decide⟩
  · exact status_toNat (s.enc.raise c info).phase
  · exact status_toNat (s.dec.raise c info).phase

/-! ### CONTROL (R23, R30 to R32) -/

/-- Settles O43: GO is bit 0 of CONTROL. -/
theorem goStartsAnIdleUnit : Obligations.GoStartsAnIdleUnit := by
  intro s v hreset hgo
  have hwrite : ∀ u, writeReg s (blockOffset u + regOffset .control) v = acceptGo u s := fun u => by
    rw [writeReg_offset hreset]
    cases u <;> exact if_pos hgo
  refine ⟨(hwrite .enc).trans ?encoder, (hwrite .dec).trans ?decoder⟩
  case encoder =>
    split
    case isTrue hbusy => rw [acceptGo, go_of_busy _ hbusy]
    case isFalse hbusy => rw [acceptGo, go_of_not_busy _ (by simpa using hbusy)]
  case decoder =>
    split
    case isTrue hbusy => rw [acceptGo, go_of_busy _ hbusy]
    case isFalse hbusy => rw [acceptGo, go_of_not_busy _ (by simpa using hbusy)]

/-- Settles O44: CLEAR is bit 1 of CONTROL, where bit 0 is not set. -/
theorem clearReturnsAUnitToIdle : Obligations.ClearReturnsAUnitToIdle := by
  intro s v hreset hgo
  have hwrite : ∀ u, writeReg s (blockOffset u + regOffset .control) v =
      if v.getLsbD 1 = true then clearCommand u s else s := fun u => by
    rw [writeReg_offset hreset]
    cases u <;> exact if_neg (by rw [hgo]; decide)
  refine ⟨(hwrite .enc).trans ?encoder, (hwrite .dec).trans ?decoder⟩
  case encoder =>
    cases hbusy : s.enc.phase.busy with
    | true => simp [clearCommand, clear_of_busy hbusy]
    | false => simp [clearCommand, clear_of_not_busy hbusy]
  case decoder =>
    cases hbusy : s.dec.phase.busy with
    | true => simp [clearCommand, clear_of_busy hbusy]
    | false => simp [clearCommand, clear_of_not_busy hbusy]

/-- GO and CLEAR leave a BUSY unit's phase, and the other unit's. -/
theorem acceptGo_phase_of_busy (u : UnitId) (s : State) :
    (s.enc.phase.busy = true → (acceptGo u s).enc.phase = s.enc.phase) ∧
      (s.dec.phase.busy = true → (acceptGo u s).dec.phase = s.dec.phase) := by
  cases u with
  | enc => exact ⟨fun hbusy => by rw [acceptGo_enc_enc, go_of_busy _ hbusy], fun _ => rfl⟩
  | dec => exact ⟨fun _ => rfl, fun hbusy => by rw [acceptGo_dec_dec, go_of_busy _ hbusy]⟩

theorem clearCommand_phase_of_busy (u : UnitId) (s : State) :
    (s.enc.phase.busy = true → (clearCommand u s).enc.phase = s.enc.phase) ∧
      (s.dec.phase.busy = true → (clearCommand u s).dec.phase = s.dec.phase) := by
  cases u with
  | enc => exact ⟨fun hbusy => by rw [clearCommand_enc_enc, clear_of_busy hbusy], fun _ => rfl⟩
  | dec => exact ⟨fun _ => rfl, fun hbusy => by rw [clearCommand_dec_dec, clear_of_busy hbusy]⟩

/-- Settles O45: of what a register write can do, only GO and CLEAR name a phase, and a BUSY unit ignores
both. -/
theorem registerWritesCannotDisturbACommand : Obligations.RegisterWritesCannotDisturbACommand := by
  intro s off v
  rcases writeReg_cases s off v with h | ⟨u, r, _, _, h⟩
  · rw [h]; exact ⟨fun _ => rfl, fun _ => rfl⟩
  rw [h]
  rcases writeUnitReg_cases s u r v with h | h | h | h | h | h <;> rw [h]
  · exact ⟨fun _ => rfl, fun _ => rfl⟩
  · exact acceptGo_phase_of_busy u s
  · exact clearCommand_phase_of_busy u s
  all_goals exact ⟨fun _ => rfl, fun _ => rfl⟩

end Sys2Proof.Machine
end

section
/-! One step of one agent (R10, R49), and what a step of the host can do (R22, R37, R124). -/

namespace Sys2Proof.Machine

/-! ### The chosen agent's step -/

theorem step_of_host {s : State} (h : nextAgent s = .host) : step s = hostStep (afterChoice s) := by
  rw [step, h, agentStep]

theorem step_of_enc {s : State} (h : nextAgent s = .enc) (hr : s.inReset = false) :
    step s = .next (encStep (afterChoice s)) := by
  simp [step, h, agentStep, hr]

theorem step_of_dec {s : State} (h : nextAgent s = .dec) (hr : s.inReset = false) :
    step s = decStep (afterChoice s) := by
  simp [step, h, agentStep, hr]

/-- While reset is asserted a unit's turn passes (R124). -/
theorem step_of_unit_inReset {s : State} (h : nextAgent s ≠ .host) (hr : s.inReset = true) :
    step s = .next (afterChoice s) :=
  (resetStopsUnitsAndSetsRegisters s).2.1 hr h

/-- Settles O5. -/
theorem stepIsTheChosenAgentsStep : Obligations.StepIsTheChosenAgentsStep := fun s hr =>
  ⟨step_of_host, fun h => step_of_enc h hr, fun h => step_of_dec h hr,
    fun g rest h => ⟨nextAgent_cons s g rest h, afterChoice_cons s g rest h⟩⟩

/-- What a step that answers a next state was: the turn of a unit in reset, or a step of one agent. -/
theorem step_cases {s s' : State} (h : step s = .next s') :
    (s.inReset = true ∧ s' = afterChoice s) ∨
    (nextAgent s = .host ∧ hostStep (afterChoice s) = .next s') ∨
    (nextAgent s = .enc ∧ s.inReset = false ∧ s' = encStep (afterChoice s)) ∨
    (nextAgent s = .dec ∧ s.inReset = false ∧ decStep (afterChoice s) = .next s') := by
  cases hnext : nextAgent s with
  | host => exact .inr (.inl ⟨rfl, by rw [← step_of_host hnext, h]⟩)
  | enc =>
    cases hr : s.inReset with
    | true =>
      rw [step_of_unit_inReset (by simp [hnext]) hr] at h
      exact .inl ⟨rfl, (Host.Outcome.next.inj h).symm⟩
    | false =>
      rw [step_of_enc hnext hr] at h
      exact .inr (.inr (.inl ⟨rfl, rfl, (Host.Outcome.next.inj h).symm⟩))
  | dec =>
    cases hr : s.inReset with
    | true =>
      rw [step_of_unit_inReset (by simp [hnext]) hr] at h
      exact .inl ⟨rfl, (Host.Outcome.next.inj h).symm⟩
    | false => exact .inr (.inr (.inr ⟨rfl, rfl, by rw [← step_of_dec hnext hr, h]⟩))

/-- An invariant that does not speak of the schedule is kept by every step where the host's actions and the
units' steps keep it. -/
theorem step_keeps {P : State → Prop} (hchoice : ∀ s, P s → P (afterChoice s))
    (hhost : ∀ s s', P s → hostStep s = .next s' → P s')
    (henc : ∀ s, s.inReset = false → P s → P (encStep s))
    (hdec : ∀ s s', s.inReset = false → P s → decStep s = .next s' → P s') :
    ∀ s s', P s → step s = .next s' → P s' := by
  intro s s' hP hstep
  rcases step_cases hstep with ⟨_, rfl⟩ | ⟨_, h⟩ | ⟨_, hr, rfl⟩ | ⟨_, hr, h⟩
  · exact hchoice s hP
  · exact hhost _ _ (hchoice s hP) h
  · exact henc _ (by simpa using hr) (hchoice s hP)
  · exact hdec _ _ (by simpa using hr) (hchoice s hP) h

/-! ### What the host's step can do -/

/-- Everything a step of the host can make of the machine. -/
inductive HostMove (s : State) : State → Prop
  /-- No action, a read, a poll, or a write that has no effect: the core is as before. -/
  | lists (ops : List HostOp) (saw : List Reg32) : HostMove s { s with hostOps := ops, hostSaw := saw }
  /-- GO (R30). -/
  | go (u : UnitId) (ops : List HostOp) (hr : s.inReset = false) :
      HostMove s (acceptGo u { s with hostOps := ops })
  /-- CLEAR (R32). -/
  | clear (u : UnitId) (ops : List HostOp) (hr : s.inReset = false) :
      HostMove s (clearCommand u { s with hostOps := ops })
  /-- DEC's CONFIG (R25). -/
  | config (b : Bool) (ops : List HostOp) (hr : s.inReset = false) :
      HostMove s { s with hostOps := ops, decStrict := b }
  /-- ENC's argument registers (R26). -/
  | encArgs (a : Args) (ops : List HostOp) (hr : s.inReset = false) :
      HostMove s { s with hostOps := ops, enc := { s.enc with args := a } }
  /-- DEC's argument registers (R26). -/
  | decArgs (a : Args) (ops : List HostOp) (hr : s.inReset = false) :
      HostMove s { s with hostOps := ops, dec := { s.dec with args := a } }
  /-- A write of a PM word that exists (R37). -/
  | writePm (a : Nat) (v : Pixel) (ops : List HostOp) (ha : a < s.pmWords) :
      HostMove s { s with hostOps := ops, pm := pmWrite s.pm a v }
  /-- A write of an LM word that exists (R37). -/
  | writeLm (a : Nat) (v : Word16) (ops : List HostOp) (ha : a < s.lmWords) :
      HostMove s { s with hostOps := ops, lm := lmWrite s.lm a v }
  /-- Reset asserted (R124). -/
  | assertReset (ops : List HostOp) : HostMove s (assertReset { s with hostOps := ops })
  /-- Reset released (R124). -/
  | releaseReset (ops : List HostOp) : HostMove s (releaseReset { s with hostOps := ops })

theorem writeReg_move (s : State) (ops : List HostOp) (off : Nat) (v : Reg32) :
    HostMove s (writeReg { s with hostOps := ops } off v) := by
  rcases writeReg_cases { s with hostOps := ops } off v with h | ⟨u, r, hr, _, h⟩
  · rw [h]; exact .lists ops s.hostSaw
  rw [h]
  rcases writeUnitReg_cases { s with hostOps := ops } u r v with h | h | h | h | h | h <;> rw [h]
  · exact .lists ops s.hostSaw
  · exact .go u ops hr
  · exact .clear u ops hr
  · exact .config _ ops hr
  · exact .encArgs _ ops hr
  · exact .decArgs _ ops hr

theorem hostAct_move {s s' : State} {op : HostOp} {rest : List HostOp}
    (h : hostAct op { s with hostOps := rest } = .next s') : HostMove s s' := by
  cases op with
  | readReg off => cases h; exact .lists rest _
  | writeReg off v => cases h; exact writeReg_move s rest off v
  | readPm a =>
    simp only [hostAct] at h
    split at h
    · cases h; exact .lists rest _
    · cases h
  | writePm a v =>
    simp only [hostAct] at h
    split at h
    case isTrue ha => cases h; exact .writePm a v rest ha
    case isFalse => cases h
  | readLm a =>
    simp only [hostAct] at h
    split at h
    · cases h; exact .lists rest _
    · cases h
  | writeLm a v =>
    simp only [hostAct] at h
    split at h
    case isTrue ha => cases h; exact .writeLm a v rest ha
    case isFalse => cases h
  | pollStatus u =>
    cases h
    split
    · exact .lists (.pollStatus u :: rest) _
    · exact .lists rest _
  | assertReset => cases h; exact .assertReset rest
  | releaseReset => cases h; exact .releaseReset rest

theorem hostStep_move {s s' : State} (h : hostStep s = .next s') : HostMove s s' := by
  unfold hostStep at h
  split at h
  · cases h; exact .lists s.hostOps s.hostSaw
  · exact hostAct_move h

/-- The host moves no schedule and no size. -/
theorem HostMove.frame {s s' : State} (h : HostMove s s') :
    s'.sched = s.sched ∧ s'.draws = s.draws ∧ s'.pmLast = s.pmLast ∧ s'.lmLast = s.lmLast := by
  cases h with
  | go u => cases u <;> exact ⟨rfl, rfl, rfl, rfl⟩
  | clear u => cases u <;> exact ⟨rfl, rfl, rfl, rfl⟩
  | _ => exact ⟨rfl, rfl, rfl, rfl⟩

/-- What the host can make of ENC: no command but by GO, and none ended but by CLEAR of a unit that is not BUSY
and by reset. -/
theorem HostMove.enc_cases {s s' : State} (h : HostMove s s') :
    s'.enc = s.enc ∨ s'.enc = CodecUnit.reset ∨ (∃ a, s'.enc = { s.enc with args := a }) ∨
      s.inReset = false ∧ (s'.enc = s.enc.go s.enc.args ∨ s'.enc = s.enc.clear) := by
  cases h with
  | go u ops hr =>
    cases u with
    | enc => exact .inr (.inr (.inr ⟨hr, .inl rfl⟩))
    | dec => exact .inl rfl
  | clear u ops hr =>
    cases u with
    | enc => exact .inr (.inr (.inr ⟨hr, .inr rfl⟩))
    | dec => exact .inl rfl
  | encArgs a => exact .inr (.inr (.inl ⟨a, rfl⟩))
  | assertReset => exact .inr (.inl rfl)
  | _ => exact .inl rfl

/-- What the host can make of DEC. -/
theorem HostMove.dec_cases {s s' : State} (h : HostMove s s') :
    s'.dec = s.dec ∨ s'.dec = CodecUnit.reset ∨ (∃ a, s'.dec = { s.dec with args := a }) ∨
      s.inReset = false ∧ ((∃ k, s'.dec = s.dec.go k) ∨ s'.dec = s.dec.clear) := by
  cases h with
  | go u ops hr =>
    cases u with
    | dec => exact .inr (.inr (.inr ⟨hr, .inl ⟨_, rfl⟩⟩))
    | enc => exact .inl rfl
  | clear u ops hr =>
    cases u with
    | dec => exact .inr (.inr (.inr ⟨hr, .inr rfl⟩))
    | enc => exact .inl rfl
  | decArgs a => exact .inr (.inr (.inl ⟨a, rfl⟩))
  | assertReset => exact .inr (.inl rfl)
  | _ => exact .inl rfl

/-- What a unit's GO, CLEAR, argument write and reset make of its phase. -/
theorem go_phase_cases {κ ω : Type} (u : CodecUnit κ ω) (k : κ) :
    (u.go k).phase = u.phase ∨ u.phase.busy = false ∧ (u.go k).phase = .accepted k := by
  cases hbusy : u.phase.busy with
  | true => exact .inl (by rw [go_of_busy k hbusy])
  | false => exact .inr ⟨rfl, by rw [go_of_not_busy k hbusy]⟩

theorem clear_phase_cases {κ ω : Type} (u : CodecUnit κ ω) :
    u.clear.phase = u.phase ∨ u.phase.busy = false ∧ u.clear.phase = .idle := by
  cases hbusy : u.phase.busy with
  | true => exact .inl (by rw [clear_of_busy hbusy])
  | false => exact .inr ⟨rfl, by rw [clear_of_not_busy hbusy]⟩

/-- The host leaves ENC's phase, makes it IDLE, or makes a unit that is not BUSY begin a command. -/
theorem HostMove.enc_phase {s s' : State} (h : HostMove s s') :
    s'.enc.phase = s.enc.phase ∨ s'.enc.phase = .idle ∨
      s.enc.phase.busy = false ∧ ∃ a, s'.enc.phase = .accepted a := by
  rcases h.enc_cases with h | h | ⟨a, h⟩ | ⟨_, h | h⟩ <;> rw [h]
  · exact .inl rfl
  · exact .inr (.inl rfl)
  · exact .inl rfl
  · exact (go_phase_cases s.enc s.enc.args).imp_right fun h => .inr ⟨h.1, _, h.2⟩
  · exact (clear_phase_cases s.enc).imp_right fun h => .inl h.2

/-- The host leaves DEC's phase, makes it IDLE, or makes a unit that is not BUSY begin a command. -/
theorem HostMove.dec_phase {s s' : State} (h : HostMove s s') :
    s'.dec.phase = s.dec.phase ∨ s'.dec.phase = .idle ∨
      s.dec.phase.busy = false ∧ ∃ k, s'.dec.phase = .accepted k := by
  rcases h.dec_cases with h | h | ⟨a, h⟩ | ⟨_, ⟨k, h⟩ | h⟩ <;> rw [h]
  · exact .inl rfl
  · exact .inr (.inl rfl)
  · exact .inl rfl
  · exact (go_phase_cases s.dec k).imp_right fun h => .inr ⟨h.1, _, h.2⟩
  · exact (clear_phase_cases s.dec).imp_right fun h => .inl h.2

/-- Settles O52: a phase the host makes is IDLE or an accepted command's, never FAULTED. -/
theorem hostAccessesRaiseNoFault : Obligations.HostAccessesRaiseNoFault := by
  intro op s s' hact
  have hmove : HostMove s s' := hostAct_move (rest := s.hostOps) hact
  refine ⟨fun c hc => ?encoder, fun c hc => ?decoder⟩
  case encoder =>
    rcases hmove.enc_phase with h | h | ⟨_, a, h⟩
    · rw [← h, hc]
    · rw [h] at hc; cases hc
    · rw [h] at hc; cases hc
  case decoder =>
    rcases hmove.dec_phase with h | h | ⟨_, k, h⟩
    · rw [← h, hc]
    · rw [h] at hc; cases hc
    · rw [h] at hc; cases hc

/-- Settles O51: one clause per access. -/
theorem hostAccessesReadAndWriteWords : Obligations.HostAccessesReadAndWriteWords := by
  intro s
  refine ⟨fun a v ha => ⟨pmWrite s.pm a v, if_pos ha, pmRead_pmWrite_same _ _ _,
      fun b hb => pmRead_pmWrite_ne _ _ _ _ hb⟩,
    fun a v ha => ⟨lmWrite s.lm a v, if_pos ha, lmRead_lmWrite_same _ _ _,
      fun b hb => lmRead_lmWrite_ne _ _ _ _ hb⟩,
    fun a ha => if_pos ha, fun a ha => ⟨(lmRead s.lm a).setWidth 32, ?zeroExtended, if_pos ha⟩,
    fun off => rfl, fun off v => rfl, fun u => ?poll, fun op rest hops => ?oldest⟩
  case zeroExtended =>
    rw [BitVec.toNat_setWidth]
    exact Nat.mod_eq_of_lt (by have := (lmRead s.lm a).isLt; omega)
  case poll =>
    have hstatus : unitStatus s u = readReg s (blockOffset u + 0x04) :=
      (readReg_offset s u .status).symm
    rw [hostAct, hstatus]
    cases unitBusy s u <;> rfl
  case oldest => rw [hostStep, hops]

end Sys2Proof.Machine
end

section
/-! What an instruction and a step of DEC can do (R90 to R106). -/

namespace Sys2Proof.Machine

/-! ### One instruction -/

/-- The word after D.ip is outside the source buffer, and no strict check comes before its read (R96). -/
def SecondWordOutside (k : DecLatch) (w : DecWork) : Prop :=
  ¬(k.strict = true ∧ w.L.toInt ≤ w.ip.toInt + 1) ∧ inBuffer k.args.srcLen (w.ip.toInt + 1) = false

/-- Everything an instruction can make of a running decode command: it goes on with pixels written in the
destination buffer and D.ip past its words, or it faults, with SRC_BOUNDS for a second word alone. -/
inductive ExecMove (len : Nat) (k : DecLatch) (w : DecWork) (s : State) : State → Prop
  | goOn (w' : DecWork) (pm' : Memory) (outside : PmSameOutside k.args s.pm pm')
      (kept : PmKept k.args s.pm pm') (hip : w'.ip = w.ip + BitVec.ofNat 32 len)
      (hL : w'.L = w.L) (hxe : w'.xe = w.xe) : ExecMove len k w s (s.decGoOn k w' pm')
  | fault (c : FaultCode) (info : Int) (pm' : Memory) (outside : PmSameOutside k.args s.pm pm')
      (kept : PmKept k.args s.pm pm') (hsrc : c = .srcBounds → SecondWordOutside k w) :
      ExecMove len k w s (raiseFault .dec c info { s with pm := pm' })

/-- A fault before any write. -/
theorem ExecMove.faultAtOnce {len : Nat} {k : DecLatch} {w : DecWork} {s : State} (c : FaultCode)
    (info : Int) (hsrc : c = .srcBounds → SecondWordOutside k w) :
    ExecMove len k w s (raiseFault .dec c info s) :=
  .fault c info s.pm (.refl _ _) (.refl _ _) hsrc

/-- Going on without a write. -/
theorem ExecMove.goOnUnwritten {len : Nat} {k : DecLatch} {w : DecWork} {s : State} (w' : DecWork)
    (hip : w'.ip = w.ip + BitVec.ofNat 32 len) (hL : w'.L = w.L) (hxe : w'.xe = w.xe) :
    ExecMove len k w s (s.decGoOn k w' s.pm) :=
  .goOn w' s.pm (.refl _ _) (.refl _ _) hip hL hxe

theorem runPixels_move (k : DecLatch) (w : DecWork) (d : BitVec 12) (v : Pixel) (s : State) :
    ExecMove 1 k w s (runPixels k w d v s) := by
  rcases runPixels_cases k w d v s with ⟨pm, hout, hkept, _, h⟩ | ⟨pm, i, hout, hkept, _, h⟩ <;> rw [h]
  · exact .goOn _ pm hout hkept rfl rfl rfl
  · exact .fault _ _ pm hout hkept nofun

theorem runZerosThenHigh_move (k : DecLatch) (w : DecWork) (d : BitVec 12) (s : State) :
    ExecMove 1 k w s (runZerosThenHigh k w d s) := by
  rcases runZerosThenHigh_cases k w d s with ⟨pm, hout, hkept, h⟩ | ⟨pm, i, hout, hkept, h⟩ <;> rw [h]
  · exact .goOn _ pm hout hkept rfl rfl rfl
  · exact .fault _ _ pm hout hkept nofun

theorem changeHigh_move {len : Nat} {k : DecLatch} {w : DecWork} {s : State} {f : DecWork → State}
    (t : Int) (hf : ∀ h, ExecMove len k w s (f { w with high := h })) :
    ExecMove len k w s (changeHigh w t s f) := by
  rcases changeHigh_cases w t s f with ⟨_, _, h⟩ | ⟨_, h⟩ <;> rw [h]
  · exact hf _
  · exact .faultAtOnce _ _ nofun

theorem emitPixel_move (k : DecLatch) (w : DecWork) (s : State) :
    ExecMove 1 k w s (emitPixel k w s) := by
  rcases emitPixel_cases k w s with ⟨_, h⟩ | ⟨_, hop, h⟩ | ⟨_, _, h⟩ <;> rw [h]
  · exact .goOnUnwritten _ rfl rfl rfl
  · have hwrite : decDstWrite k.args s.pm w.op.toNat w.high = some _ :=
      (decDstWrite_natCast _ _ _ _).trans (if_pos hop)
    obtain ⟨hout, hkept⟩ := decDstWrite_frame hwrite
    exact .goOn _ _ hout hkept rfl rfl rfl
  · exact .faultAtOnce _ _ nofun

/-- The registers' high value plays no part in a move. -/
theorem ExecMove.ofSetHigh {len : Nat} {k : DecLatch} {w : DecWork} {s s' : State} {h : Pixel}
    (hm : ExecMove len k { w with high := h } s s') : ExecMove len k w s s' := by
  cases hm with
  | goOn w' pm' hout hkept hip hL hxe => exact .goOn w' pm' hout hkept hip hL hxe
  | fault c info pm' hout hkept hsrc => exact .fault c info pm' hout hkept hsrc

/-- Every instruction of a running decode command answers a next state, by one of its moves. -/
theorem exec_move_running {s : State} {k : DecLatch} {w : DecWork} (hrun : s.dec.phase = .running k w)
    (i : Instr) : ∃ s', exec i s = .next s' ∧ ExecMove (encode i).length k w s s' := by
  cases i with
  | zn d => exact ⟨_, exec_zn_running hrun d, runPixels_move k w d 0 s⟩
  | hn d => exact ⟨_, exec_hn_running hrun d, runPixels_move k w d w.high s⟩
  | pn d => exact ⟨_, exec_pn_running hrun d, runZerosThenHigh_move k w d s⟩
  | ih d => exact ⟨_, exec_ih_running hrun d, changeHigh_move _ fun h => .goOnUnwritten _ rfl rfl rfl⟩
  | dh d => exact ⟨_, exec_dh_running hrun d, changeHigh_move _ fun h => .goOnUnwritten _ rfl rfl rfl⟩
  | is d => exact ⟨_, exec_is_running hrun d, changeHigh_move _ fun h => (emitPixel_move k _ s).ofSetHigh⟩
  | ds d => exact ⟨_, exec_ds_running hrun d, changeHigh_move _ fun h => (emitPixel_move k _ s).ofSetHigh⟩
  | sh d w1 =>
    refine ⟨_, exec_sh_running hrun d w1, ?_⟩
    split
    · exact .faultAtOnce _ _ nofun
    case isFalse hwhole =>
      split
      · exact .goOnUnwritten _ rfl rfl rfl
      case isFalse hout => exact .faultAtOnce _ _ fun _ => ⟨hwhole, by simpa using hout⟩
  | reserved op x =>
    refine ⟨_, exec_reserved_running hrun op x, ?_⟩
    split
    · exact .faultAtOnce _ _ nofun
    · exact .goOnUnwritten _ rfl rfl rfl

theorem exec_running_of_next {i : Instr} {s s' : State} (h : exec i s = .next s') :
    ∃ k w, s.dec.phase = .running k w := by
  cases i <;> exact (inCommand_next h).imp fun k h => h.imp fun w h => h.1

theorem exec_move {i : Instr} {s s' : State} {k : DecLatch} {w : DecWork}
    (hrun : s.dec.phase = .running k w) (h : exec i s = .next s') :
    ExecMove (encode i).length k w s s' := by
  obtain ⟨s'', hexec, hmove⟩ := exec_move_running hrun i
  rw [hexec] at h
  cases h
  exact hmove

/-- Settles O18: both moves change PM in the destination buffer and DEC's phase and FINFO only. -/
theorem instructionsReachOnlyTheirBuffer : Obligations.InstructionsReachOnlyTheirBuffer := by
  intro i s s' h
  obtain ⟨k, w, hrun⟩ := exec_running_of_next h
  refine ⟨k, w, hrun, ?_⟩
  cases exec_move hrun h with
  | goOn w' pm' hout _ _ hL hxe => exact ⟨rfl, hout, rfl, rfl, .inl ⟨w', rfl, hL, hxe, rfl⟩⟩
  | fault c info pm' hout _ _ => exact ⟨rfl, hout, rfl, rfl, .inr ⟨c, rfl⟩⟩

/-- Settles O19. -/
theorem instructionsAdvanceByTheirLength : Obligations.InstructionsAdvanceByTheirLength := by
  intro i s s' k k' w w' hrun h hrun'
  cases exec_move hrun h with
  | goOn w'' pm' _ _ hip _ _ => cases hrun'; exact hip
  | fault c info pm' _ _ _ => cases hrun'

/-! ### The faults of an instruction -/

/-- R106 holds after one pixel, in the window or not. -/
theorem emitPixel_phase {k : DecLatch} {w : DecWork} (s : State) (hc : w.CursorOk k.args) :
    ∃ w', (emitPixel k w s).dec.phase = .running k w' ∧ w'.CursorOk k.args ∧ w'.x1 = w.x1 + 1 := by
  by_cases hin : k.args.start.toNat ≤ w.x1 ∧ w.x1 ≤ w.xe
  · rw [emitPixel_of_inWindow s hc hin]
    obtain ⟨hcount, hdst, hxe, hop⟩ := hc
    refine ⟨_, rfl, ⟨hcount, hdst, hxe, ?_⟩, rfl⟩
    have hlt := k.args.count.isLt
    have hone : (w.op + 1).toNat = w.op.toNat + 1 := by
      rw [BitVec.toNat_add]
      exact Nat.mod_eq_of_lt (by change w.op.toNat + 1 < _; omega)
    change (w.op + 1).toNat = min (w.x1 + 1) (w.xe + 1) - k.args.start.toNat
    omega
  · rw [emitPixel_of_not_inWindow k s hin]
    obtain ⟨hcount, hdst, hxe, hop⟩ := hc
    refine ⟨_, rfl, ⟨hcount, hdst, hxe, ?_⟩, rfl⟩
    change w.op.toNat = min (w.x1 + 1) (w.xe + 1) - k.args.start.toNat
    omega

/-- What a change of the high value and one pixel at it end in, where the cursor is as R106 says. -/
theorem changeHigh_emitPixel_phase {k : DecLatch} {w : DecWork} (s : State) (hc : w.CursorOk k.args)
    (t : Int) {s' : State} (hs' : s' = changeHigh w t s fun w' => emitPixel k w' s) :
    (∃ w', s'.dec.phase = .running k w' ∧ w'.CursorOk k.args ∧ w'.x1 ≤ w.x1 + 4095) ∨
      ∃ c, c ≠ .dstBounds ∧ s'.dec.phase = .faulted c := by
  subst hs'
  rcases changeHigh_cases w t s (fun w' => emitPixel k w' s) with ⟨_, _, h⟩ | ⟨_, h⟩ <;> rw [h]
  · obtain ⟨w', hphase, hc', hx1⟩ := emitPixel_phase s (hc.setHigh (int32 t))
    exact .inl ⟨w', hphase, hc', by simp [hx1]⟩
  · exact .inr ⟨.highOverflow, nofun, rfl⟩

/-- R106 holds after a run. -/
theorem DecWork.CursorOk.pastRun {a : Args} {w : DecWork} (hc : w.CursorOk a) (d : BitVec 12) :
    (w.pastRun a d).CursorOk a := by
  obtain ⟨hcount, hdst, hxe, hop⟩ := hc
  refine ⟨hcount, hdst, hxe, ?_⟩
  have hlt := a.count.isLt
  change (BitVec.ofNat 32 _).toNat = min (w.x1 + d.toNat) (w.xe + 1) - a.start.toNat
  rw [BitVec.toNat_ofNat]
  exact Nat.mod_eq_of_lt (by omega)

/-- R106 does not speak of D.ip and the high value. -/
theorem DecWork.CursorOk.setIpHigh {a : Args} {w : DecWork} (hc : w.CursorOk a) (ip : BitVec 32)
    (h : Pixel) : ({ w with ip := ip, high := h } : DecWork).CursorOk a :=
  ⟨hc.count_pos, hc.dst_fits, hc.xe_eq, hc.cursor⟩

/-- Where the cursor is as R106 says, an instruction goes on with the cursor as R106 says, or faults with
another code than DST_BOUNDS. -/
theorem exec_phase {s s' : State} {k : DecLatch} {w : DecWork} {i : Instr}
    (hrun : s.dec.phase = .running k w) (hc : w.CursorOk k.args) (h : exec i s = .next s') :
    (∃ w', s'.dec.phase = .running k w' ∧ w'.CursorOk k.args ∧ w'.x1 ≤ w.x1 + 4095) ∨
      ∃ c, c ≠ .dstBounds ∧ s'.dec.phase = .faulted c := by
  cases i with
  | zn d =>
    rw [exec_zn_running hrun] at h
    obtain ⟨pm', hgo, _⟩ := runPixels_writes hc d 0 s
    cases h
    rw [hgo]
    exact .inl ⟨_, rfl, hc.pastRun d, by simp [DecWork.pastRun]; omega⟩
  | hn d =>
    rw [exec_hn_running hrun] at h
    obtain ⟨pm', hgo, _⟩ := runPixels_writes hc d w.high s
    cases h
    rw [hgo]
    exact .inl ⟨_, rfl, hc.pastRun d, by simp [DecWork.pastRun]; omega⟩
  | pn d =>
    rw [exec_pn_running hrun] at h
    obtain ⟨pm', hgo, _⟩ := runZerosThenHigh_writes hc d s
    cases h
    rw [hgo]
    exact .inl ⟨_, rfl, hc.pastRun d, by simp [DecWork.pastRun]; omega⟩
  | is d =>
    rw [exec_is_running hrun] at h
    exact changeHigh_emitPixel_phase s hc _ (Host.Outcome.next.inj h).symm
  | ds d =>
    rw [exec_ds_running hrun] at h
    exact changeHigh_emitPixel_phase s hc _ (Host.Outcome.next.inj h).symm
  | ih d =>
    rw [exec_ih_running hrun] at h
    cases h
    rcases changeHigh_cases w (w.high.toInt + d.toNat) s
      (fun w' => s.decGoOn k { w' with ip := w.ip + 1 } s.pm) with ⟨_, _, h⟩ | ⟨_, h⟩ <;> rw [h]
    · exact .inl ⟨_, rfl, hc.setIpHigh _ _, by simp⟩
    · exact .inr ⟨.highOverflow, nofun, rfl⟩
  | dh d =>
    rw [exec_dh_running hrun] at h
    cases h
    rcases changeHigh_cases w (w.high.toInt - d.toNat) s
      (fun w' => s.decGoOn k { w' with ip := w.ip + 1 } s.pm) with ⟨_, _, h⟩ | ⟨_, h⟩ <;> rw [h]
    · exact .inl ⟨_, rfl, hc.setIpHigh _ _, by simp⟩
    · exact .inr ⟨.highOverflow, nofun, rfl⟩
  | sh d w1 =>
    rw [exec_sh_running hrun] at h
    cases h
    split
    · exact .inr ⟨.truncated, nofun, rfl⟩
    · split
      · exact .inl ⟨_, rfl, hc.setIpHigh _ _, by simp⟩
      · exact .inr ⟨.srcBounds, nofun, rfl⟩
  | reserved op x =>
    rw [exec_reserved_running hrun] at h
    cases h
    split
    · exact .inr ⟨.badOpcode, nofun, rfl⟩
    · exact .inl ⟨_, rfl, hc.setIpHigh _ _, by simp⟩

/-! ### A step of the running command (R91, R92) -/

section
variable {s : State} {k : DecLatch} {w : DecWork} (hrun : s.dec.phase = .running k w)
  (hloop : loopEnded w = false)
include hrun hloop

theorem decStep_of_fetched {w0 : Word16} (h0 : decSrcRead k.args s.lm w.ip.toInt = some w0) :
    decStep s =
      exec (decodeWords w0 ((decSrcRead k.args s.lm (w.ip.toInt + 1)).getD 0)) s := by
  simp [decStep, hrun, decRun, hloop, fetch, h0]

theorem decStep_of_not_fetched (h0 : decSrcRead k.args s.lm w.ip.toInt = none) :
    decStep s = .next (raiseFault .dec .srcBounds w.ip.toInt s) := by
  simp [decStep, hrun, decRun, hloop, fetch, h0]

end

/-- What a step of the running command is: the fill step, a fetch outside the source, or an instruction. -/
theorem decStep_running_cases {s : State} {k : DecLatch} {w : DecWork}
    (hrun : s.dec.phase = .running k w) :
    (loopEnded w = true ∧ decStep s = .next (decFill k w s)) ∨
    (loopEnded w = false ∧ inBuffer k.args.srcLen w.ip.toInt = false ∧
      decStep s = .next (raiseFault .dec .srcBounds w.ip.toInt s)) ∨
    (loopEnded w = false ∧ inBuffer k.args.srcLen w.ip.toInt = true ∧
      ∃ i, decStep s = exec i s) := by
  cases hloop : loopEnded w with
  | true => exact .inl ⟨rfl, decStep_of_loopEnded hrun hloop⟩
  | false =>
    rw [inBuffer_eq_decSrcRead_isSome k.args s.lm]
    cases h0 : decSrcRead k.args s.lm w.ip.toInt with
    | none => exact .inr (.inl ⟨rfl, rfl, decStep_of_not_fetched hrun hloop h0⟩)
    | some w0 => exact .inr (.inr ⟨rfl, rfl, _, decStep_of_fetched hrun hloop h0⟩)

/-- Settles O6: the state with the choice made has the same command and the same LM. -/
theorem stepRunsDecodedInstruction : Obligations.StepRunsDecodedInstruction := by
  intro s k w w0 hnext hreset hrun hloop h0
  have hrun' : (afterChoice s).dec.phase = .running k w := by simpa using hrun
  have hstep : step s =
      exec (decodeWords w0 ((decSrcRead k.args s.lm (w.ip.toInt + 1)).getD 0)) (afterChoice s) := by
    rw [step_of_dec hnext hreset, decStep_of_fetched hrun' hloop (by simpa using h0), afterChoice_lm]
  refine ⟨fun w1 i rest h1 hdec => ?two, fun i rest h1 hdec => ?last, fun h1 hdec => ?half⟩
  case two =>
    rw [hstep, h1]
    cases hdec
    rfl
  case last =>
    rw [decode] at hdec
    split at hdec
    · cases hdec
    · rw [hstep, h1]
      cases hdec
      rfl
  case half =>
    rw [decode] at hdec
    split at hdec
    case isFalse => cases hdec
    case isTrue hlen =>
      have hsh : decodeWords w0 0 = .sh (dataOf w0) 0 := by
        have hop : opcodeOf w0 = 1 := by
          by_contra hne
          rw [lengthOf, if_neg hne] at hlen
          cases hlen
        simp [decodeWords, hop]
      rw [hstep, h1, Option.getD_none, hsh, exec_sh_running hrun',
        inBuffer_eq_decSrcRead_isSome k.args s.lm, h1]
      rfl

/-- Settles O7: no element is outside both ends. -/
theorem fetchOutsideSourceFaults : Obligations.FetchOutsideSourceFaults := by
  intro s k w hnext hreset hrun hloop hout
  have h0 : decSrcRead k.args (afterChoice s).lm w.ip.toInt = none :=
    (decSrcRead_eq_none _ _ _).2 (by omega)
  rw [step_of_dec hnext hreset, decStep_of_not_fetched (by simpa using hrun) hloop h0]

/-- The fill step completes where the cursor is as R106 says. -/
theorem decFill_completes {k : DecLatch} {w : DecWork} (hc : w.CursorOk k.args) (s : State) :
    ∃ pm', decFill k w s = completeCommand .dec k.args.count { s with pm := pm' } := by
  obtain ⟨pm', hstore, _⟩ := storeRun_of_fits k.args 0 _ w.op.toNat s.pm hc.tail_fits
  exact ⟨pm', by rw [decFill, hstore]⟩

/-- Settles O20: neither the fill step, nor a fetch, nor an instruction raises it. -/
theorem decoderNeverOverrunsDestination : Obligations.DecoderNeverOverrunsDestination := by
  intro s s' k w hrun hc h hfault
  rcases decStep_running_cases hrun with ⟨_, hstep⟩ | ⟨_, _, hstep⟩ | ⟨_, _, i, hstep⟩ <;> rw [hstep] at h
  · obtain ⟨pm', hfill⟩ := decFill_completes hc s
    cases h
    rw [hfill] at hfault
    cases hfault
  · cases h
    cases hfault
  · rcases exec_phase hrun hc h with ⟨w', hw', _⟩ | ⟨c, hne, hc⟩
    · rw [hw'] at hfault; cases hfault
    · rw [hc] at hfault; cases hfault; exact hne rfl

end Sys2Proof.Machine
end

section
/-! The start step of DEC: the header's words (R57 to R63, R90) and the strict checks (R105), in the order of
R113. -/

namespace Sys2Proof.Machine

/-! ### Reading the header -/

/-- A destination element's index read as R42 has it; a header's elements are numerals. -/
theorem decSrcRead_element {a : Args} (lm : Memory) {e : Nat} (h : e < a.srcLen.toNat) {i : Int}
    (hi : i = (e : Nat)) : decSrcRead a lm i = some (lmRead lm (a.srcBase.toNat + e)) := by
  rw [hi, decSrcRead_of_lt a lm e h]

theorem decSrcRead_pastEnd {a : Args} (lm : Memory) {i : Int} (h : (a.srcLen.toNat : Int) ≤ i) :
    decSrcRead a lm i = none :=
  (decSrcRead_eq_none _ _ _).2 (by omega)

/-- A positive version word makes a legacy header (R58, R60). -/
theorem readHeader_legacy {a : Args} {lm : Memory} (hlen : 3 ≤ a.srcLen.toNat)
    (hv : 0 < (lmRead lm (a.srcBase.toNat + 2)).toInt) :
    readHeader a lm = .ok { fmt := .legacy, version := (lmRead lm (a.srcBase.toNat + 2)).toInt,
                            hl := 0, lo := 0, hi := 0 } := by
  rw [readHeader, decSrcRead_element lm (i := 2) (e := 2) (by omega) rfl]
  exact if_pos hv

/-- Any other version word makes a current header, whose other fields are read in turn (R59, R60). -/
theorem readHeader_of_version_nonpos {a : Args} {lm : Memory} (hlen : 3 ≤ a.srcLen.toNat)
    (hv : (lmRead lm (a.srcBase.toNat + 2)).toInt ≤ 0) :
    readHeader a lm =
      match decSrcRead a lm 3 with
      | none => .error 3
      | some w3 =>
        match decSrcRead a lm 4 with
        | none => .error 4
        | some w4 =>
          .ok { fmt := .current, version := (lmRead lm (a.srcBase.toNat + 2)).toInt,
                hl := (lmRead lm (a.srcBase.toNat + 1)).toInt, lo := w3.toInt, hi := w4.toInt } := by
  rw [readHeader, decSrcRead_element lm (i := 2) (e := 2) (by omega) rfl,
    decSrcRead_element lm (i := 1) (e := 1) (by omega) rfl]
  exact if_neg (by simpa [sext16] using hv)

theorem readHeader_current {a : Args} {lm : Memory} (hlen : 5 ≤ a.srcLen.toNat)
    (hv : (lmRead lm (a.srcBase.toNat + 2)).toInt ≤ 0) :
    readHeader a lm =
      .ok { fmt := .current, version := (lmRead lm (a.srcBase.toNat + 2)).toInt,
            hl := (lmRead lm (a.srcBase.toNat + 1)).toInt, lo := (lmRead lm (a.srcBase.toNat + 3)).toInt,
            hi := (lmRead lm (a.srcBase.toNat + 4)).toInt } := by
  rw [readHeader_of_version_nonpos (by omega) hv, decSrcRead_element lm (i := 3) (e := 3) (by omega) rfl,
    decSrcRead_element lm (i := 4) (e := 4) (by omega) rfl]

/-- A field of a header is a word's signed value. -/
def Header.FieldsOk (h : Header) : Prop :=
  (-32768 ≤ h.version ∧ h.version ≤ 32767) ∧ (-32768 ≤ h.hl ∧ h.hl ≤ 32767) ∧
    (-32768 ≤ h.lo ∧ h.lo ≤ 32767) ∧ (-32768 ≤ h.hi ∧ h.hi ≤ 32767)

theorem sext16_range (w : Word16) : -32768 ≤ sext16 w ∧ sext16 w ≤ 32767 := by
  have h1 := BitVec.le_toInt w
  have h2 := BitVec.toInt_lt (x := w)
  norm_num at h1 h2
  rw [sext16]
  omega

theorem readHeader_fieldsOk {a : Args} {lm : Memory} {h : Header} (hread : readHeader a lm = .ok h) :
    h.FieldsOk := by
  have hzero : -32768 ≤ (0 : Int) ∧ (0 : Int) ≤ 32767 := by decide
  unfold readHeader at hread
  split at hread
  · cases hread
  split at hread
  · cases hread
    exact ⟨sext16_range _, hzero, hzero, hzero⟩
  split at hread
  · cases hread
  split at hread
  · cases hread
  split at hread
  · cases hread
  cases hread
  exact ⟨sext16_range _, sext16_range _, sext16_range _, sext16_range _⟩

/-- A length lies well inside a 32-bit register, and a positive one is at most MAX_LEN (R62, R63). -/
theorem Header.FieldsOk.length_le {h : Header} (hf : h.FieldsOk) :
    -2147483648 ≤ h.length ∧ h.length ≤ maxLen := by
  obtain ⟨hv, _, hlo, hhi⟩ := hf
  unfold Header.length lenSplit maxLen
  split <;> omega

theorem Header.FieldsOk.dataStart_range {h : Header} (hf : h.FieldsOk) :
    -32768 ≤ h.dataStart ∧ h.dataStart ≤ 32767 := by
  obtain ⟨_, hhl, _, _⟩ := hf
  unfold Header.dataStart legacyHeaderLen
  split <;> omega

/-! ### The start step of a command whose header is read -/

section
variable {s : State} {k : DecLatch} (hacc : s.dec.phase = .accepted k) (hcount : k.args.count ≠ 0)
  (hmap : k.args.mapped s.lmWords s.pmWords = true)
include hacc hcount hmap

theorem decStep_of_header {h : Header} (hread : readHeader k.args s.lm = .ok h) :
    decStep s = .next (decStartChecked k h s) := by
  rw [decStep_of_accepted hacc, decStart, if_neg hcount, if_neg (by simp [hmap]), hread]

theorem decStep_of_headerError {e : Int} (hread : readHeader k.args s.lm = .error e) :
    decStep s = .next (raiseFault .dec .srcBounds e s) := by
  rw [decStep_of_accepted hacc, decStart, if_neg hcount, if_neg (by simp [hmap]), hread]

end

/-- The checks of a legacy header: S4 and S5 in strict mode, then the destination (R58, R105; log entry 18). -/
theorem decStartChecked_legacy (k : DecLatch) {v : Int} (hv : 0 < v) (s : State) :
    decStartChecked k { fmt := .legacy, version := v, hl := 0, lo := 0, hi := 0 } s =
      if k.strict = true ∧ ((k.args.srcLen.toNat : Int) < v ∨ v < 3) then raiseFault .dec .badHeader 2 s
      else if k.args.dstLen.toNat < k.args.count.toNat then
        raiseFault .dec .dstBounds k.args.dstLen.toNat s
      else s.decGoOn k
        { ip := 3, L := int32 v, xe := k.args.start.toNat + k.args.count.toNat - 1, x1 := 0, op := 0,
          high := 1 } s.pm := by
  have hstrict : Header.strictHeader { fmt := .legacy, version := v, hl := 0, lo := 0, hi := 0 } = none := by
    simp [Header.strictHeader, hv.ne']
  have hlength : Header.strictLength { fmt := .legacy, version := v, hl := 0, lo := 0, hi := 0 } k.args.srcLen =
      if (k.args.srcLen.toNat : Int) < v ∨ v < 3 then some 2 else none := by
    by_cases hlong : (k.args.srcLen.toNat : Int) < v <;>
      simp [Header.strictLength, Header.length, Header.dataStart, Header.lengthElement, legacyHeaderLen, hlong]
  simp only [decStartChecked, hstrict, hlength, ite_self, Header.length, if_neg (not_le.2 hv)]
  cases k.strict
  · simp; rfl
  · by_cases hbad : (k.args.srcLen.toNat : Int) < v ∨ v < 3
    · simp [hbad]
    · simp [hbad]; rfl

/-- The checks of a current header without strict mode: the length's sign, then the destination (R90). -/
theorem decStartChecked_current {k : DecLatch} (hk : k.strict = false) (v hl lo hi : Int) (s : State) :
    decStartChecked k { fmt := .current, version := v, hl := hl, lo := lo, hi := hi } s =
      if lo + hi * 32768 ≤ 0 then completeCommand .dec 0 s
      else if k.args.dstLen.toNat < k.args.count.toNat then
        raiseFault .dec .dstBounds k.args.dstLen.toNat s
      else s.decGoOn k
        { ip := int32 hl, L := int32 (lo + hi * 32768),
          xe := k.args.start.toNat + k.args.count.toNat - 1, x1 := 0, op := 0, high := 1 } s.pm := by
  simp only [decStartChecked, hk]
  rfl

/-- The checks of a current header in strict mode (R105), in the order of R113. -/
theorem decStartChecked_strict {k : DecLatch} (hk : k.strict = true) (v hl lo hi : Int) (s : State) :
    decStartChecked k { fmt := .current, version := v, hl := hl, lo := lo, hi := hi } s =
      if v = 0 then raiseFault .dec .badHeader 2 s
      else if hl ≠ 7 then raiseFault .dec .badHeader 1 s
      else if lo < 0 then raiseFault .dec .badHeader 3 s
      else if hi < 0 then raiseFault .dec .badHeader 4 s
      else if lo + hi * 32768 ≤ 0 then completeCommand .dec 0 s
      else if (k.args.srcLen.toNat : Int) < lo + hi * 32768 ∨ lo + hi * 32768 < 7 then
        raiseFault .dec .badHeader 3 s
      else if k.args.dstLen.toNat < k.args.count.toNat then
        raiseFault .dec .dstBounds k.args.dstLen.toNat s
      else s.decGoOn k
        { ip := 7, L := int32 (lo + hi * 32768),
          xe := k.args.start.toNat + k.args.count.toNat - 1, x1 := 0, op := 0, high := 1 } s.pm := by
  simp only [decStartChecked, hk, if_true, Header.strictHeader, Header.strictLength, Header.length,
    Header.dataStart, Header.lengthElement, lenSplit, headerLen, true_and]
  by_cases h1 : v = 0
  · simp [h1]
  by_cases h2 : hl = 7
  case neg => simp [h1, h2]
  subst h2
  by_cases h3 : lo < 0
  · simp [h1, h3]
  by_cases h4 : hi < 0
  · simp [h1, h3, h4]
  by_cases h5 : lo + hi * 32768 ≤ 0
  · simp [h1, h3, h4, h5]
  by_cases h6 : (k.args.srcLen.toNat : Int) < lo + hi * 32768
  · simp [h1, h3, h4, h5, h6]
  by_cases h7 : lo + hi * 32768 < 7
  · simp [h1, h3, h4, h5, h6, h7]
  simp [h1, h3, h4, h5, h6, h7]
  rfl

/-- Settles O23. -/
theorem legacyHeaderStartsTheDecode : Obligations.LegacyHeaderStartsTheDecode := by
  rintro s k v hacc hcount hmap hlen rfl hv
  rw [decStep_of_header hacc hcount hmap (readHeader_legacy hlen hv), decStartChecked_legacy k hv]

/-- Settles O24. -/
theorem currentHeaderStartsTheDecode : Obligations.CurrentHeaderStartsTheDecode := by
  rintro s k hl lo hi hacc hk hcount hmap hlen hv rfl rfl rfl
  rw [decStep_of_header hacc hcount hmap (readHeader_current hlen hv), decStartChecked_current hk]

/-- Settles O25. -/
theorem strictHeaderChecksInOrder : Obligations.StrictHeaderChecksInOrder := by
  rintro s k v hl lo hi hacc hk hcount hmap hlen rfl hv rfl rfl rfl
  rw [decStep_of_header hacc hcount hmap (readHeader_current hlen hv), decStartChecked_strict hk]

/-- Settles O26: the elements are read in the order 2, 1, 3, 4, so element 1 is never the one that is lacking. -/
theorem shortHeaderFaults : Obligations.ShortHeaderFaults := by
  intro s k hacc hcount hmap
  refine ⟨fun hlen => decStep_of_headerError hacc hcount hmap ?none,
    fun hv => ⟨fun hlen => decStep_of_headerError hacc hcount hmap ?three,
      fun hlen => decStep_of_headerError hacc hcount hmap ?four⟩⟩
  case none => rw [readHeader, decSrcRead_pastEnd _ (by omega)]
  case three =>
    rw [readHeader_of_version_nonpos (by omega) hv, decSrcRead_pastEnd _ (by omega)]
  case four =>
    rw [readHeader_of_version_nonpos (by omega) hv, decSrcRead_element _ (i := 3) (e := 3) (by omega) rfl,
      decSrcRead_pastEnd _ (by omega)]

/-! ### What the start step can do -/

/-- The registers a header that passes gives the command are in order. -/
theorem DecWork.initial_ok {k : DecLatch} {h : Header} {lmWords pmWords : Nat} (hf : h.FieldsOk)
    (hmap : k.args.mapped lmWords pmWords = true) (hcount : k.args.count ≠ 0)
    (hdst : k.args.count.toNat ≤ k.args.dstLen.toNat) (hlen : 0 < h.length)
    (hstrict : k.strict = true → 0 ≤ h.dataStart ∧ h.length ≤ k.args.srcLen.toNat) :
    (DecWork.initial k.args h).Ok k lmWords pmWords := by
  obtain ⟨hlow, hle⟩ := hf.length_le
  have hL : (int32 h.length).toInt = h.length := int32_toInt _ (by unfold maxLen at hle; omega)
  obtain ⟨hds, hds'⟩ := hf.dataStart_range
  have hip : (int32 h.dataStart).toInt = h.dataStart := int32_toInt _ (by omega)
  have hpos : 0 < k.args.count.toNat := by
    rw [Nat.pos_iff_ne_zero]
    exact fun h0 => hcount (BitVec.eq_of_toNat_eq h0)
  refine ⟨hmap, ⟨hpos, hdst, ?xe, ?cursor⟩, ?lenPos, ?lenLe, ?ipGe, ?ipLe, Nat.zero_le _, ?strict⟩
  case xe => exact Nat.sub_add_cancel (by omega)
  case cursor => change 0 = min 0 _ - _; omega
  case lenPos => change 0 < (int32 h.length).toInt; omega
  case lenLe => change (int32 h.length).toInt ≤ _; omega
  case ipGe => change _ ≤ (int32 h.dataStart).toInt; omega
  case ipLe => change (int32 h.dataStart).toInt ≤ _; omega
  case strict =>
    intro hk
    change 0 ≤ (int32 h.dataStart).toInt ∧ (int32 h.length).toInt ≤ _
    rw [hip, hL]
    exact hstrict hk

/-- Checks S2 and S4 bound the data start and the length (R105). -/
theorem Header.strict_bounds {h : Header} {srcLen : Reg32} (hheader : h.strictHeader = none)
    (hlength : h.strictLength srcLen = none) : 0 ≤ h.dataStart ∧ h.length ≤ srcLen.toNat := by
  constructor
  · unfold Header.strictHeader at hheader
    unfold Header.dataStart
    split
    · decide
    case h_2 hfmt =>
      by_contra hneg
      have hne : h.hl ≠ headerLen := by unfold headerLen; omega
      by_cases hv : h.version = 0 <;> simp [hv, hfmt, hne] at hheader
  · unfold Header.strictLength at hlength
    split at hlength
    · cases hlength
    · omega

/-- What the checks after the header's read end in: COMPLETE, a fault before any write, or the loop, with the
registers in order. -/
theorem decStartChecked_cases {k : DecLatch} {h : Header} {s : State} (hf : h.FieldsOk)
    (hmap : k.args.mapped s.lmWords s.pmWords = true) (hcount : k.args.count ≠ 0) :
    decStartChecked k h s = completeCommand .dec 0 s ∨
    (∃ c info, decStartChecked k h s = raiseFault .dec c info s) ∨
    (decStartChecked k h s = s.decGoOn k (DecWork.initial k.args h) s.pm ∧
      (DecWork.initial k.args h).Ok k s.lmWords s.pmWords) := by
  unfold decStartChecked
  split
  · exact .inr (.inl ⟨_, _, rfl⟩)
  case h_2 hheader =>
    split
    · exact .inl rfl
    case isFalse hlen =>
      split
      · exact .inr (.inl ⟨_, _, rfl⟩)
      case h_2 hlength =>
        split
        · exact .inr (.inl ⟨_, _, rfl⟩)
        case isFalse hdst =>
          refine .inr (.inr ⟨rfl, DecWork.initial_ok hf hmap hcount (by omega) (by omega) fun hk => ?_⟩)
          rw [if_pos hk] at hheader hlength
          exact Header.strict_bounds hheader hlength

/-- What the start step ends in. -/
theorem decStart_cases (k : DecLatch) (s : State) :
    decStart k s = completeCommand .dec 0 s ∨
    (∃ c info, decStart k s = raiseFault .dec c info s) ∨
    (∃ h, readHeader k.args s.lm = .ok h ∧
      decStart k s = s.decGoOn k (DecWork.initial k.args h) s.pm ∧
      (DecWork.initial k.args h).Ok k s.lmWords s.pmWords) := by
  unfold decStart
  split
  · exact .inl rfl
  case isFalse hcount =>
    split
    · exact .inr (.inl ⟨_, _, rfl⟩)
    case isFalse hmap =>
      split
      · exact .inr (.inl ⟨_, _, rfl⟩)
      case h_2 h hread =>
        rcases decStartChecked_cases (readHeader_fieldsOk hread) (by simpa using hmap) hcount with
          hc | hc | ⟨hgo, hok⟩
        · exact .inl hc
        · exact .inr (.inl hc)
        · exact .inr (.inr ⟨h, hread, hgo, hok⟩)

/-- Settles O21: the count is looked at first. -/
theorem zeroCountCompletesAtOnce : Obligations.ZeroCountCompletesAtOnce := fun s =>
  ⟨fun a hacc hcount => by rw [encStep_of_accepted hacc, encStart, if_pos hcount]; rfl,
    fun k hacc hcount => by rw [decStep_of_accepted hacc, decStart, if_pos hcount]; rfl⟩

end Sys2Proof.Machine
end

section
/-! Strict mode (R103, R105): what it adds, and what it excludes. -/

namespace Sys2Proof.Machine

/-! ### Changes of the state an instruction does not see -/

/-- A change `φ` of the state that may change DEC's latch, but not its arguments, and passes through what an
instruction does: going on with some pixels written, and a fault. -/
structure InstrMap (φ : State → State) (k k' : DecLatch) (s : State) : Prop where
  args : k'.args = k.args
  pm : (φ s).pm = s.pm
  goOn : ∀ w pm, φ (s.decGoOn k w pm) = (φ s).decGoOn k' w pm
  raise : ∀ c i pm, φ (raiseFault .dec c i { s with pm := pm }) = raiseFault .dec c i { φ s with pm := pm }
  raiseAtOnce : ∀ c i, φ (raiseFault .dec c i s) = raiseFault .dec c i (φ s)

/-- Whether the latched STRICT says the same of the instruction `i` in both latches: SH and RESERVED alone look at
it (R96, R103). -/
def StrictAgrees (k k' : DecLatch) (w : DecWork) : Instr → Prop
  | .sh _ _ => (k'.strict = true ∧ w.L.toInt ≤ w.ip.toInt + 1) ↔ (k.strict = true ∧ w.L.toInt ≤ w.ip.toInt + 1)
  | .reserved _ _ => k'.strict = k.strict
  | _ => True

section
variable {φ : State → State} {k k' : DecLatch} {s : State} (hφ : InstrMap φ k k' s) (w : DecWork)
include hφ

theorem InstrMap.runPixels (d : BitVec 12) (v : Pixel) :
    Machine.runPixels k' w d v (φ s) = φ (Machine.runPixels k w d v s) := by
  simp only [Machine.runPixels, hφ.args, hφ.pm]
  split
  · rw [hφ.goOn]
  · rw [hφ.raise]

theorem InstrMap.runZerosThenHigh (d : BitVec 12) :
    Machine.runZerosThenHigh k' w d (φ s) = φ (Machine.runZerosThenHigh k w d s) := by
  simp only [Machine.runZerosThenHigh, hφ.args, hφ.pm]
  split
  · rw [hφ.raise]
  · split
    · split
      · rw [hφ.raise]
      · rw [hφ.goOn]
    · rw [hφ.goOn]

theorem InstrMap.emitPixel : Machine.emitPixel k' w (φ s) = φ (Machine.emitPixel k w s) := by
  simp only [Machine.emitPixel, hφ.args, hφ.pm]
  split
  · split
    · rw [hφ.raiseAtOnce]
    · rw [hφ.goOn]
  · rw [hφ.goOn]

theorem InstrMap.changeHigh (t : Int) {f g : DecWork → State} (hfg : ∀ w', g w' = φ (f w')) :
    Machine.changeHigh w t (φ s) g = φ (Machine.changeHigh w t s f) := by
  unfold Machine.changeHigh
  split
  · exact hfg _
  · rw [hφ.raiseAtOnce]

/-- An instruction does after the change what it does before it. -/
theorem InstrMap.exec {i : Instr} {s' : State} (hrun : s.dec.phase = .running k w)
    (hrun' : (φ s).dec.phase = .running k' w) (hstrict : StrictAgrees k k' w i)
    (h : Machine.exec i s = .next s') : Machine.exec i (φ s) = .next (φ s') := by
  cases i with
  | zn d =>
    rw [exec_zn_running hrun] at h
    cases h
    rw [exec_zn_running hrun', hφ.runPixels]
  | hn d =>
    rw [exec_hn_running hrun] at h
    cases h
    rw [exec_hn_running hrun', hφ.runPixels]
  | pn d =>
    rw [exec_pn_running hrun] at h
    cases h
    rw [exec_pn_running hrun', hφ.runZerosThenHigh]
  | ih d =>
    rw [exec_ih_running hrun] at h
    cases h
    rw [exec_ih_running hrun', hφ.pm, hφ.changeHigh w _ fun w' => (hφ.goOn _ _).symm]
  | dh d =>
    rw [exec_dh_running hrun] at h
    cases h
    rw [exec_dh_running hrun', hφ.pm, hφ.changeHigh w _ fun w' => (hφ.goOn _ _).symm]
  | is d =>
    rw [exec_is_running hrun] at h
    cases h
    rw [exec_is_running hrun', hφ.changeHigh w _ fun w' => hφ.emitPixel w']
  | ds d =>
    rw [exec_ds_running hrun] at h
    cases h
    rw [exec_ds_running hrun', hφ.changeHigh w _ fun w' => hφ.emitPixel w']
  | sh d w1 =>
    rw [exec_sh_running hrun] at h
    cases h
    rw [exec_sh_running hrun', hφ.args, hφ.pm]
    by_cases hcut : k.strict = true ∧ w.L.toInt ≤ w.ip.toInt + 1
    · rw [if_pos hcut, if_pos (hstrict.2 hcut), hφ.raiseAtOnce]
    · rw [if_neg hcut, if_neg (mt hstrict.1 hcut)]
      split
      · rw [hφ.goOn]
      · rw [hφ.raiseAtOnce]
  | reserved op x =>
    rw [exec_reserved_running hrun] at h
    cases h
    change k'.strict = k.strict at hstrict
    rw [exec_reserved_running hrun', hstrict, hφ.pm]
    split
    · rw [hφ.raiseAtOnce]
    · rw [hφ.goOn]

end

/-! ### Strict mode -/

theorem setStrict_instrMap (b : Bool) (k : DecLatch) (s : State) :
    InstrMap (setStrict b) k { k with strict := b } s :=
  ⟨rfl, rfl, fun _ _ => rfl, fun _ _ _ => rfl, fun _ _ => rfl⟩

theorem setStrict_running {s : State} {k : DecLatch} {w : DecWork} (b : Bool)
    (hrun : s.dec.phase = .running k w) :
    (setStrict b s).dec.phase = .running { k with strict := b } w := by
  simp [setStrict, hrun]

/-- Settles O27: RESERVED faults, SH faults where its second word is at or past D.L, and nothing else looks at
STRICT. -/
theorem strictModeOnlyAddsFaults : Obligations.StrictModeOnlyAddsFaults := by
  intro i s k w hrun hk
  obtain ⟨s', hexec, _⟩ := exec_move_running hrun i
  have hagree : StrictAgrees k { k with strict := false } w i →
      ∃ s', exec i s = .next s' ∧ exec i (setStrict false s) = .next (setStrict false s') := fun hstrict =>
    ⟨s', hexec, (setStrict_instrMap false k s).exec w hrun (setStrict_running false hrun) hstrict hexec⟩
  cases i with
  | sh d w1 =>
    by_cases hcut : w.L.toInt ≤ w.ip.toInt + 1
    · exact .inr (.inl (by rw [exec_sh_running hrun, if_pos ⟨hk, hcut⟩]))
    · exact .inr (.inr (hagree (by simp [StrictAgrees, hcut])))
  | reserved op x => exact .inl ((reservedOpcodeSkipsOrFaults s k w op x hrun).2.2 hk)
  | zn | ih | dh | hn | pn | is | ds => exact .inr (.inr (hagree trivial))

/-- Settles O28: while the loop goes on D.ip is below D.L, and strict mode checks the second word of a set-high
against D.L before it is read. -/
theorem strictDecodeNeverReadsOutside : Obligations.StrictDecodeNeverReadsOutside := by
  intro s s' k w hrun hk hip hL h hfault
  have hbelow : loopEnded w = false → w.ip.toInt < w.L.toInt := fun hloop => by
    by_contra hge
    rw [(loopEnded_iff w).2 (.inl (by omega))] at hloop
    cases hloop
  rcases decStep_running_cases hrun with ⟨_, hstep⟩ | ⟨hloop, hout, _⟩ | ⟨hloop, _, i, hstep⟩
  case inl =>
    rw [hstep, decFill] at h
    cases h
    split at hfault <;> cases hfault
  case inr.inl =>
    have := hbelow hloop
    rw [(inBuffer_iff _ _).2 ⟨hip, by omega⟩] at hout
    cases hout
  case inr.inr =>
    rw [hstep] at h
    cases exec_move hrun h with
    | goOn => cases hfault
    | fault c info pm' _ _ hsrc =>
      obtain ⟨hwhole, hout⟩ := hsrc (by cases hfault; rfl)
      have hnext : w.ip.toInt + 1 < w.L.toInt := by
        by_contra hge
        exact hwhole ⟨hk, by omega⟩
      rw [(inBuffer_iff _ _).2 ⟨by omega, by omega⟩] at hout
      cases hout

end Sys2Proof.Machine
end

section
/-! What a whole step of DEC can do, and the registers of the running decode command (R106, R108). -/

namespace Sys2Proof.Machine

/-! ### One step of DEC -/

/-- What GO latched, while the command is BUSY (R31). -/
def Phase.latched {κ ω : Type} : Phase κ ω → Option κ
  | .idle | .done | .faulted _ => none
  | .accepted k => some k
  | .running k _ => some k

theorem Phase.busy_of_latched {κ ω : Type} {p : Phase κ ω} {k : κ} (h : p.latched = some k) :
    p.busy = true := by
  cases p <;> first | rfl | cases h

/-- Everything a step of DEC can make of the machine under a command that latched `k`. -/
inductive DecMove (k : DecLatch) (s : State) : State → Prop
  | goOn (w' : DecWork) (pm' : Memory) (outside : PmSameOutside k.args s.pm pm')
      (kept : PmKept k.args s.pm pm') : DecMove k s (s.decGoOn k w' pm')
  | fault (c : FaultCode) (info : Int) (pm' : Memory) (outside : PmSameOutside k.args s.pm pm')
      (kept : PmKept k.args s.pm pm') : DecMove k s (raiseFault .dec c info { s with pm := pm' })
  | complete (res : Reg32) (pm' : Memory) (outside : PmSameOutside k.args s.pm pm')
      (kept : PmKept k.args s.pm pm') : DecMove k s (completeCommand .dec res { s with pm := pm' })

theorem decStart_move (k : DecLatch) (s : State) : DecMove k s (decStart k s) ∧ (decStart k s).pm = s.pm := by
  rcases decStart_cases k s with h | ⟨c, info, h⟩ | ⟨h', _, h, _⟩ <;> rw [h]
  · exact ⟨.complete 0 s.pm (.refl _ _) (.refl _ _), rfl⟩
  · exact ⟨.fault c info s.pm (.refl _ _) (.refl _ _), rfl⟩
  · exact ⟨.goOn _ s.pm (.refl _ _) (.refl _ _), rfl⟩

theorem decFill_move (k : DecLatch) (w : DecWork) (s : State) : DecMove k s (decFill k w s) := by
  obtain ⟨hout, hkept⟩ := storeRun_frame k.args 0 (k.args.count.toNat - w.op.toNat) w.op.toNat s.pm
  rw [decFill]
  cases hstore : storeRun k.args 0 (k.args.count.toNat - w.op.toNat) w.op.toNat s.pm with
  | ok pm => rw [hstore] at hout hkept; exact .complete _ pm hout hkept
  | bounds i pm => rw [hstore] at hout hkept; exact .fault _ _ pm hout hkept

theorem ExecMove.decMove {len : Nat} {k : DecLatch} {w : DecWork} {s s' : State}
    (h : ExecMove len k w s s') : DecMove k s s' := by
  cases h with
  | goOn w' pm' hout hkept => exact .goOn w' pm' hout hkept
  | fault c info pm' hout hkept => exact .fault c info pm' hout hkept

/-- DEC's step changes nothing where no command runs (R123), and is always a next state. -/
theorem decStep_move (s : State) :
    ∃ s', decStep s = .next s' ∧
      (s.dec.phase.latched = none ∧ s' = s ∨ ∃ k, s.dec.phase.latched = some k ∧ DecMove k s s') := by
  cases hphase : s.dec.phase with
  | idle => exact ⟨s, by rw [decStep, hphase], .inl ⟨rfl, rfl⟩⟩
  | done => exact ⟨s, by rw [decStep, hphase], .inl ⟨rfl, rfl⟩⟩
  | faulted c => exact ⟨s, by rw [decStep, hphase], .inl ⟨rfl, rfl⟩⟩
  | accepted k => exact ⟨_, decStep_of_accepted hphase, .inr ⟨k, rfl, (decStart_move k s).1⟩⟩
  | running k w =>
    rcases decStep_running_cases hphase with ⟨_, hstep⟩ | ⟨_, _, hstep⟩ | ⟨_, _, i, hstep⟩
    · exact ⟨_, hstep, .inr ⟨k, rfl, decFill_move k w s⟩⟩
    · exact ⟨_, hstep, .inr ⟨k, rfl, .fault _ _ s.pm (.refl _ _) (.refl _ _)⟩⟩
    · obtain ⟨s', hexec, hmove⟩ := exec_move_running hphase i
      exact ⟨s', hstep.trans hexec, .inr ⟨k, rfl, hmove.decMove⟩⟩

theorem decStep_cases {s s' : State} (h : decStep s = .next s') :
    s.dec.phase.latched = none ∧ s' = s ∨ ∃ k, s.dec.phase.latched = some k ∧ DecMove k s s' := by
  obtain ⟨s'', hstep, hcases⟩ := decStep_move s
  rw [hstep] at h
  cases h
  exact hcases

/-- A step of DEC changes PM and DEC alone. -/
theorem DecMove.same {k : DecLatch} {s s' : State} (h : DecMove k s s') : SameButPmAndDec s s' := by
  cases h <;> rfl

theorem DecMove.pm_frame {k : DecLatch} {s s' : State} (h : DecMove k s s') :
    PmSameOutside k.args s.pm s'.pm ∧ PmKept k.args s.pm s'.pm := by
  cases h <;> exact ⟨‹_›, ‹_›⟩

theorem decStep_same {s s' : State} (h : decStep s = .next s') : SameButPmAndDec s s' := by
  rcases decStep_cases h with ⟨_, rfl⟩ | ⟨k, _, hmove⟩
  · rfl
  · exact hmove.same

/-! ### The registers of the running command (R106) -/

theorem encode_length_range (i : Instr) : 1 ≤ (encode i).length ∧ (encode i).length ≤ 2 := by
  cases i <;> simp [encode]

/-- D.ip cannot wrap (R18). -/
theorem ip_add_toInt {ip : BitVec 32} {n : Nat} (hn : n ≤ 2) (hip : ip.toInt ≤ maxLen) :
    (ip + BitVec.ofNat 32 n).toInt = ip.toInt + n := by
  have hlow := BitVec.le_toInt ip
  unfold maxLen at hip
  norm_num at hlow hip
  have hn' : (BitVec.ofNat 32 n).toInt = n := by
    rw [BitVec.toInt_ofNat']
    exact Int.bmod_eq_of_le (by omega) (by omega)
  rw [BitVec.toInt_add, hn']
  exact Int.bmod_eq_of_le (by omega) (by omega)

theorem loopEnded_eq_false_iff (w : DecWork) :
    loopEnded w = false ↔ w.ip.toInt < w.L.toInt ∧ w.x1 ≤ w.xe := by
  rw [← Bool.not_eq_true, loopEnded_iff]
  omega

/-- A step of the running command ends it, or the loop had not ended and its registers stay in order, with D.L
the same and D.ip at least one on. -/
theorem decStep_keeps_ok {s s' : State} {k : DecLatch} {w : DecWork} {lmWords pmWords : Nat}
    (hrun : s.dec.phase = .running k w) (hok : w.Ok k lmWords pmWords) (h : decStep s = .next s') :
    s'.dec.phase.busy = false ∨
      ∃ w', s'.dec.phase = .running k w' ∧ w'.Ok k lmWords pmWords ∧ loopEnded w = false ∧
        w'.L = w.L ∧ w.ip.toInt + 1 ≤ w'.ip.toInt := by
  rcases decStep_running_cases hrun with ⟨_, hstep⟩ | ⟨_, _, hstep⟩ | ⟨hloop, _, i, hstep⟩ <;>
    rw [hstep] at h
  · obtain ⟨pm', hfill⟩ := decFill_completes hok.cursorOk s
    cases h
    rw [hfill]
    exact .inl rfl
  · cases h; exact .inl rfl
  · rcases exec_phase hrun hok.cursorOk h with ⟨w', hw', hcursor, hx1⟩ | ⟨c, _, hc⟩
    · refine .inr ⟨w', hw', ?_⟩
      cases exec_move hrun h with
      | fault => cases hw'
      | goOn w'' pm' _ _ hip hL hxe =>
        cases hw'
        obtain ⟨hlen1, hlen2⟩ := encode_length_range i
        obtain ⟨hlt, hx⟩ := (loopEnded_eq_false_iff w).1 hloop
        obtain ⟨hmap, _, hpos, hle, hge, hmax, _, hstrict⟩ := hok
        have hnext : w'.ip.toInt = w.ip.toInt + (encode i).length := by
          rw [hip]
          exact ip_add_toInt hlen2 (by omega)
        refine ⟨⟨hmap, hcursor, by rwa [hL], by rwa [hL], by omega, by rw [hL]; omega, by omega, fun hk => ?_⟩,
          hloop, hL, by omega⟩
        obtain ⟨hip0, hsrc⟩ := hstrict hk
        rw [hL]
        exact ⟨by omega, hsrc⟩
    · rw [hc]; exact .inl rfl

/-- DEC's own step keeps its registers in order. -/
theorem decStep_keeps_decoderOk {s s' : State} (hok : DecoderOk s) (h : decStep s = .next s') :
    DecoderOk s' := by
  have hsame := decStep_same h
  have hlm : s'.lmWords = s.lmWords := by rw [hsame]; rfl
  have hpm : s'.pmWords = s.pmWords := by rw [hsame]; rfl
  unfold DecoderOk at hok ⊢
  rw [hlm, hpm]
  cases hphase : s.dec.phase with
  | idle | done | faulted c =>
    have : s' = s := by
      rcases decStep_cases h with ⟨_, rfl⟩ | ⟨k, hk, _⟩
      · rfl
      · rw [hphase] at hk; cases hk
    rw [this, hphase]
    trivial
  | accepted k =>
    rw [decStep_of_accepted hphase] at h
    cases h
    rcases decStart_cases k s with h | ⟨c, info, h⟩ | ⟨h', _, h, hok'⟩ <;> rw [h]
    · trivial
    · trivial
    · exact hok'
  | running k w =>
    rw [hphase] at hok
    rcases decStep_keeps_ok hphase hok h with hend | ⟨w', hw', hok', _⟩
    · cases hphase' : s'.dec.phase <;> first | trivial | (rw [hphase'] at hend; cases hend)
    · rw [hw']; exact hok'

/-- Whatever leaves DEC's phase and the sizes, or ends or begins a command, keeps DEC's registers in order. -/
theorem decoderOk_of_phase {s s' : State} (hok : DecoderOk s) (hpm : s'.pmLast = s.pmLast)
    (hlm : s'.lmLast = s.lmLast)
    (hphase : s'.dec.phase = s.dec.phase ∨ s'.dec.phase = .idle ∨ ∃ k, s'.dec.phase = .accepted k) :
    DecoderOk s' := by
  unfold DecoderOk at hok ⊢
  rcases hphase with h | h | ⟨k, h⟩ <;> rw [h]
  · rwa [State.lmWords, State.pmWords, hlm, hpm]
  · trivial
  · trivial

theorem HostMove.keeps_decoderOk {s s' : State} (h : HostMove s s') (hok : DecoderOk s) : DecoderOk s' := by
  obtain ⟨_, _, hpm, hlm⟩ := h.frame
  exact decoderOk_of_phase hok hpm hlm (h.dec_phase.imp_right (.imp_right And.right))

/-! ### The end of a decode command (R108) -/

/-- A unit with no command takes no step (R123). -/
theorem decStep_of_not_busy {s : State} (h : s.dec.phase.busy = false) : decStep s = .next s := by
  obtain ⟨s', hstep, ⟨_, rfl⟩ | ⟨k, hk, _⟩⟩ := decStep_move s
  · exact hstep
  · rw [Phase.busy_of_latched hk] at h; cases h

theorem decSteps_of_not_busy (n : Nat) {s : State} (h : s.dec.phase.busy = false) :
    decSteps n s = some s := by
  induction n with
  | zero => rfl
  | succ n ih => rw [decSteps, decStep_of_not_busy h]; exact ih

/-- Each step of the loop goes on by one word at least, and the step at its end is the last. -/
theorem decSteps_end {n : Nat} {s : State} {k : DecLatch} {w : DecWork} {lmWords pmWords : Nat}
    (hrun : s.dec.phase = .running k w) (hok : w.Ok k lmWords pmWords)
    (hn : (w.L.toInt - w.ip.toInt).toNat < n) :
    ∃ s', decSteps n s = some s' ∧ s'.dec.phase.busy = false := by
  induction n generalizing s w with
  | zero => omega
  | succ n ih =>
    obtain ⟨s₁, hstep, _⟩ := decStep_move s
    rw [decSteps, hstep]
    change ∃ s', decSteps n s₁ = some s' ∧ _
    rcases decStep_keeps_ok hrun hok hstep with hend | ⟨w', hw', hok', hloop, hL, hip⟩
    · exact ⟨s₁, decSteps_of_not_busy n hend, hend⟩
    · have hlt := ((loopEnded_eq_false_iff w).1 hloop).1
      exact ih hw' hok' (by rw [hL]; omega)

/-- Settles O38: the start step, then the loop from the data start to D.L. -/
theorem decodeEndsWithinItsBound : Obligations.DecodeEndsWithinItsBound := by
  intro s k h hacc _ hread
  have hf := readHeader_fieldsOk hread
  obtain ⟨hlow, hle⟩ := hf.length_le
  obtain ⟨hds, hds'⟩ := hf.dataStart_range
  rw [decSteps, decStep_of_accepted hacc]
  change ∃ s', decSteps _ (decStart k s) = some s' ∧ _
  rcases decStart_cases k s with hgo | ⟨c, info, hgo⟩ | ⟨h', hread', hgo, hok⟩ <;> rw [hgo]
  · exact ⟨_, decSteps_of_not_busy _ rfl, rfl⟩
  · exact ⟨_, decSteps_of_not_busy _ rfl, rfl⟩
  · rw [hread] at hread'
    cases hread'
    have hL : (DecWork.initial k.args h).L.toInt = h.length :=
      int32_toInt _ (by unfold maxLen at hle; omega)
    have hip : (DecWork.initial k.args h).ip.toInt = h.dataStart := int32_toInt _ (by omega)
    exact decSteps_end (k := k) rfl hok (by rw [hL, hip]; omega)

/-! ### Steps that stop the model -/

/-- A host action on a memory word that does not exist (R37; log entry 7). -/
def AbsentWordAccess (s : State) (op : HostOp) : Prop :=
  ∃ a, (∃ v, op = .readPm a ∨ op = .writePm a v) ∧ s.pmWords ≤ a ∨
    (∃ v, op = .readLm a ∨ op = .writeLm a v) ∧ s.lmWords ≤ a

/-- An action completes, or it is on a word that does not exist and stops the model. -/
theorem hostAct_outcome (op : HostOp) (s : State) :
    (∃ s', hostAct op s = .next s') ∨ AbsentWordAccess s op ∧ ∃ f, hostAct op s = .fault f := by
  cases op with
  | readPm a =>
    by_cases ha : a < s.pmWords
    · exact .inl ⟨_, if_pos ha⟩
    · exact .inr ⟨⟨a, .inl ⟨⟨0, .inl rfl⟩, by omega⟩⟩, _, if_neg ha⟩
  | writePm a v =>
    by_cases ha : a < s.pmWords
    · exact .inl ⟨_, if_pos ha⟩
    · exact .inr ⟨⟨a, .inl ⟨⟨v, .inr rfl⟩, by omega⟩⟩, _, if_neg ha⟩
  | readLm a =>
    by_cases ha : a < s.lmWords
    · exact .inl ⟨_, if_pos ha⟩
    · exact .inr ⟨⟨a, .inr ⟨⟨0, .inl rfl⟩, by omega⟩⟩, _, if_neg ha⟩
  | writeLm a v =>
    by_cases ha : a < s.lmWords
    · exact .inl ⟨_, if_pos ha⟩
    · exact .inr ⟨⟨a, .inr ⟨⟨v, .inr rfl⟩, by omega⟩⟩, _, if_neg ha⟩
  | readReg | writeReg | pollStatus | assertReset | releaseReset => exact .inl ⟨_, rfl⟩

/-- A step answers a next state, or it is the host's access to a word that does not exist. -/
theorem step_outcome (s : State) :
    (∃ s', step s = .next s') ∨
      nextAgent s = .host ∧ (∃ op rest, s.hostOps = op :: rest ∧ AbsentWordAccess s op) ∧
        ∃ f, step s = .fault f := by
  cases hnext : nextAgent s with
  | enc => exact .inl ⟨_, by rw [step, hnext, agentStep]⟩
  | dec =>
    obtain ⟨s', hdec, _⟩ := decStep_move (afterChoice s)
    cases hr : s.inReset with
    | true => exact .inl ⟨_, step_of_unit_inReset (by simp [hnext]) hr⟩
    | false => exact .inl ⟨s', (step_of_dec hnext hr).trans hdec⟩
  | host =>
    rw [step_of_host hnext, hostStep, afterChoice_hostOps]
    cases hops : s.hostOps with
    | nil => exact .inl ⟨_, rfl⟩
    | cons op rest =>
      rcases hostAct_outcome op { afterChoice s with hostOps := rest } with hgo | ⟨habsent, hstop⟩
      · exact .inl hgo
      · refine .inr ⟨rfl, ⟨op, rest, rfl, ?_⟩, hstop⟩
        simpa [AbsentWordAccess, State.pmWords, State.lmWords] using habsent

/-- Settles O53. -/
theorem onlyAbsentWordsStopTheMachine : Obligations.OnlyAbsentWordsStopTheMachine := by
  intro s
  rcases step_outcome s with ⟨s', hnext⟩ | ⟨hhost, ⟨op, rest, hops, a, habsent⟩, f, hfault⟩
  · rw [hnext]
    exact ⟨nofun, nofun⟩
  · rw [hfault]
    refine ⟨nofun, fun _ _ => ⟨hhost, a, rest, ?_⟩⟩
    simpa [hops] using habsent

end Sys2Proof.Machine
end

section
/-! What a step of ENC can reach (R39, R77, R121): its procedures write LM in the destination buffer alone. -/

namespace Sys2Proof.Machine

/-! ### Procedures -/

/-- LM as a procedure leaves it, whether it goes on or raises a fault. -/
def EncRes.mem {α : Type} : EncRes α → Memory
  | .ok _ lm _ => lm
  | .raise _ _ lm => lm

/-- A procedure writes in the destination buffer alone. -/
def EncRes.Within {α : Type} (a : Args) (lm : Memory) (r : EncRes α) : Prop :=
  LmSameOutside a lm r.mem ∧ LmKept a lm r.mem

theorem EncRes.Within.unwritten {α : Type} {a : Args} {lm : Memory} {r : EncRes α} (h : r.mem = lm) :
    r.Within a lm := by
  rw [EncRes.Within, h]
  exact ⟨.refl _ _, .refl _ _⟩

theorem EncRes.Within.andThen {α β : Type} {a : Args} {lm : Memory} {r : EncRes α}
    {f : α → Memory → EncWork → EncRes β} (h : r.Within a lm) (hf : ∀ x lm' w', (f x lm' w').Within a lm') :
    (r.andThen f).Within a lm := by
  cases r with
  | ok x lm' w' => exact ⟨h.1.trans (hf x lm' w').1, h.2.trans (hf x lm' w').2⟩
  | raise c info lm' => exact h

theorem emit_within (a : Args) (x : Word16) (lm : Memory) (w : EncWork) : (emit a x lm w).Within a lm := by
  unfold emit
  split
  · exact .unwritten rfl
  case h_2 hwrite => exact encDstWrite_frame hwrite

theorem rewriteLast_within (a : Args) (x : Word16) (lm : Memory) (w : EncWork) :
    (rewriteLast a x lm w).Within a lm := by
  unfold rewriteLast
  split
  · exact .unwritten rfl
  case h_2 hwrite => exact encDstWrite_frame hwrite

theorem emitChunks_within (a : Args) (opc cap fuel n last : Nat) (lm : Memory) (w : EncWork) :
    (emitChunks a opc cap fuel n last lm w).Within a lm := by
  induction fuel generalizing n last lm w with
  | zero => exact .unwritten rfl
  | succ fuel ih =>
    unfold emitChunks
    split
    · exact .unwritten rfl
    · exact (emit_within _ _ _ _).andThen fun _ _ _ => ih _ _ _ _

theorem emitLevel_within (a : Args) (np nz : Int) (lm : Memory) (w : EncWork) :
    (emitLevel a np nz lm w).Within a lm := by
  simp only [emitLevel]
  split
  · exact .unwritten rfl
  split
  · split
    · exact .unwritten rfl
    · exact (emit_within _ _ _ _).andThen fun _ _ _ => (emit_within _ _ _ _).andThen fun _ _ _ => .unwritten rfl
  · refine (emit_within _ _ _ _).andThen fun _ _ _ => ?_
    split
    · exact (rewriteLast_within _ _ _ _).andThen fun _ _ _ => .unwritten rfl
    · exact .unwritten rfl

theorem emitZeros_within (a : Args) (nz np : Int) (lm : Memory) (w : EncWork) :
    (emitZeros a nz np lm w).Within a lm := by
  refine (emitChunks_within _ _ _ _ _ _ _ _).andThen fun _ _ _ => ?_
  split
  · exact (rewriteLast_within _ _ _ _).andThen fun _ _ _ => .unwritten rfl
  · exact .unwritten rfl

theorem emitHighs_within (a : Args) (np : Int) (lm : Memory) (w : EncWork) :
    (emitHighs a np lm w).Within a lm :=
  (emitChunks_within _ _ _ _ _ _ _ _).andThen fun _ _ _ => .unwritten rfl

theorem flush_within (a : Args) (ip : BitVec 33) (lm : Memory) (w : EncWork) :
    (flush a ip lm w).Within a lm := by
  simp only [flush]
  refine EncRes.Within.andThen ?level fun _ _ _ => EncRes.Within.andThen ?zeros fun _ _ _ =>
    EncRes.Within.andThen ?highs fun _ _ _ => .unwritten rfl
  case level =>
    split
    · exact emitLevel_within _ _ _ _ _
    · exact .unwritten rfl
  case zeros =>
    split
    · exact emitZeros_within _ _ _ _ _
    · exact .unwritten rfl
  case highs =>
    split
    · exact .unwritten rfl
    · exact emitHighs_within _ _ _ _

/-- A list of destination writes stays in the buffer, whether it ends well or not. -/
theorem encWriteAll_frame (a : Args) (ws : List (Int × Word16)) (lm : Memory) :
    match encWriteAll a ws lm with
    | .ok lm' => LmSameOutside a lm lm' ∧ LmKept a lm lm'
    | .error (_, lm') => LmSameOutside a lm lm' ∧ LmKept a lm lm' := by
  induction ws generalizing lm with
  | nil => exact ⟨.refl _ _, .refl _ _⟩
  | cons p ws ih =>
    obtain ⟨i, v⟩ := p
    rw [encWriteAll]
    cases hwrite : encDstWrite a lm i v with
    | none => exact ⟨.refl _ _, .refl _ _⟩
    | some lm₁ =>
      obtain ⟨hout, hkept⟩ := encDstWrite_frame hwrite
      have hrest := ih lm₁
      simp only
      revert hrest
      cases encWriteAll a ws lm₁ with
      | ok lm' => exact fun hrest => ⟨hout.trans hrest.1, hkept.trans hrest.2⟩
      | error e => exact fun hrest => ⟨hout.trans hrest.1, hkept.trans hrest.2⟩

theorem encWriteAll_ok_frame {a : Args} {ws : List (Int × Word16)} {lm lm' : Memory}
    (h : encWriteAll a ws lm = .ok lm') : LmSameOutside a lm lm' ∧ LmKept a lm lm' := by
  have hframe := encWriteAll_frame a ws lm
  rwa [h] at hframe

theorem encWriteAll_error_frame {a : Args} {ws : List (Int × Word16)} {lm lm' : Memory} {i : Int}
    (h : encWriteAll a ws lm = .error (i, lm')) : LmSameOutside a lm lm' ∧ LmKept a lm lm' := by
  have hframe := encWriteAll_frame a ws lm
  rwa [h] at hframe

/-! ### One step of ENC -/

/-- Everything a step of ENC can make of the machine under a command that latched `a`. -/
inductive EncMove (a : Args) (s : State) : State → Prop
  | goOn (w' : EncWork) (lm' : Memory) (outside : LmSameOutside a s.lm lm') (kept : LmKept a s.lm lm') :
      EncMove a s (s.encGoOn a w' lm')
  | fault (c : FaultCode) (info : Int) (lm' : Memory) (outside : LmSameOutside a s.lm lm')
      (kept : LmKept a s.lm lm') : EncMove a s (raiseFault .enc c info { s with lm := lm' })
  | complete (res : Reg32) (lm' : Memory) (outside : LmSameOutside a s.lm lm')
      (kept : LmKept a s.lm lm') : EncMove a s (completeCommand .enc res { s with lm := lm' })

/-- A fault before any write. -/
theorem EncMove.faultAtOnce {a : Args} {s : State} (c : FaultCode) (info : Int) :
    EncMove a s (raiseFault .enc c info s) :=
  .fault c info s.lm (.refl _ _) (.refl _ _)

theorem encEndStep_move {a : Args} {s : State} {r : EncRes Unit} (h : r.Within a s.lm) :
    EncMove a s (encEndStep a s r) := by
  obtain ⟨hout, hkept⟩ := h
  cases r with
  | ok x lm' w' => exact .goOn _ lm' hout hkept
  | raise c info lm' => exact .fault c info lm' hout hkept

theorem encScan_move (a : Args) (w : EncWork) (s : State) : EncMove a s (encScan a w s) := by
  unfold encScan
  split
  · split
    · exact .faultAtOnce _ _
    · simp only
      split
      · exact .goOn _ _ (.refl _ _) (.refl _ _)
      · split
        · exact .goOn _ _ (.refl _ _) (.refl _ _)
        · exact encEndStep_move (flush_within _ _ _ _)
  · exact encEndStep_move (flush_within _ _ _ _)

theorem encFinish_move (a : Args) (w : EncWork) (s : State) : EncMove a s (encFinish a w s) := by
  simp only [encFinish]
  split
  · exact .faultAtOnce _ _
  · split
    case h_1 hwrite =>
      obtain ⟨hout, hkept⟩ := encWriteAll_error_frame hwrite
      exact .fault _ _ _ hout hkept
    case h_2 hwrite =>
      obtain ⟨hout, hkept⟩ := encWriteAll_ok_frame hwrite
      exact .complete _ _ hout hkept

/-- The start step writes nothing where the map check fails (R41). -/
theorem encStart_move (a : Args) (s : State) :
    EncMove a s (encStart a s) ∧
      ((encStart a s).lm = s.lm ∨ a.mapped s.pmWords s.lmWords = true) := by
  unfold encStart
  split
  · exact ⟨.complete 0 s.lm (.refl _ _) (.refl _ _), .inl rfl⟩
  split
  · exact ⟨.faultAtOnce _ _, .inl rfl⟩
  case isFalse hmap =>
    have hmapped : a.mapped s.pmWords s.lmWords = true := by simpa using hmap
    refine ⟨?_, .inr hmapped⟩
    split
    · exact .faultAtOnce _ _
    split
    · exact .faultAtOnce _ _
    split
    case h_1 hwrite =>
      obtain ⟨hout, hkept⟩ := encWriteAll_error_frame hwrite
      exact .fault _ _ _ hout hkept
    case h_2 hwrite =>
      obtain ⟨hout, hkept⟩ := encWriteAll_ok_frame hwrite
      split
      · exact .fault _ _ _ hout hkept
      · exact .goOn _ _ hout hkept

/-- ENC's step changes nothing where no command runs (R123). -/
theorem encStep_cases (s : State) :
    s.enc.phase.latched = none ∧ encStep s = s ∨
      ∃ a, s.enc.phase.latched = some a ∧ EncMove a s (encStep s) := by
  unfold encStep
  cases hphase : s.enc.phase with
  | idle | done | faulted c => exact .inl ⟨rfl, rfl⟩
  | accepted a => exact .inr ⟨a, rfl, (encStart_move a s).1⟩
  | running a w =>
    refine .inr ⟨a, rfl, ?_⟩
    simp only
    split
    · exact encScan_move a w s
    · exact encFinish_move a w s

theorem EncMove.same {a : Args} {s s' : State} (h : EncMove a s s') : SameButLmAndEnc s s' := by
  cases h <;> rfl

theorem EncMove.args {a : Args} {s s' : State} (h : EncMove a s s') : s'.enc.args = s.enc.args := by
  cases h <;> rfl

theorem EncMove.lm_frame {a : Args} {s s' : State} (h : EncMove a s s') :
    LmSameOutside a s.lm s'.lm ∧ LmKept a s.lm s'.lm := by
  cases h <;> exact ⟨‹_›, ‹_›⟩

theorem encStep_same (s : State) : SameButLmAndEnc s (encStep s) := by
  rcases encStep_cases s with ⟨_, h⟩ | ⟨a, _, hmove⟩
  · rw [h]; rfl
  · exact hmove.same

theorem encLatched_eq (s : State) : encLatched s = s.enc.phase.latched := by
  unfold encLatched
  cases s.enc.phase <;> rfl

theorem decLatched_eq (s : State) : decLatched s = s.dec.phase.latched.map DecLatch.args := by
  unfold decLatched
  cases s.dec.phase <;> rfl

/-- Settles O34. -/
theorem encoderReachesOnlyItsBuffer : Obligations.EncoderReachesOnlyItsBuffer := by
  intro s
  rw [encLatched_eq]
  rcases encStep_cases s with ⟨hnone, h⟩ | ⟨a, hsome, hmove⟩
  · rw [hnone, h]
    exact ⟨rfl, rfl, rfl⟩
  · rw [hsome]
    exact ⟨hmove.same, hmove.args, hmove.lm_frame.1⟩

/-- A unit with no command takes no step (R123). -/
theorem encStep_of_not_busy {s : State} (h : s.enc.phase.busy = false) : encStep s = s := by
  rcases encStep_cases s with ⟨_, h'⟩ | ⟨a, ha, _⟩
  · exact h'
  · rw [Phase.busy_of_latched ha] at h; cases h

end Sys2Proof.Machine
end

section
/-! The start and scan steps of ENC (R78, R79). -/

namespace Sys2Proof.Machine

/-! ### The start step -/

/-- Settles O29: the checks come in this order, before the header's writes. -/
theorem encoderStartFaultsInOrder : Obligations.EncoderStartFaultsInOrder := by
  intro s a hacc hcount
  rw [encStep_of_accepted hacc]
  refine ⟨fun hmap => encStart_of_not_mapped hcount hmap, fun hmap hsrc => ?source,
    fun hmap hsrc hdst => ?destination⟩
  case source =>
    rw [encStart, if_neg hcount, if_neg (by simp [hmap]), if_pos hsrc]
    congr 1
    omega
  case destination =>
    rw [encStart, if_neg hcount, if_neg (by simp [hmap]), if_neg (by omega),
      if_pos (by unfold headerLen; omega)]

/-- LM with the header elements the start step writes (R57, R78). -/
def writeStartHeader (a : Args) (lm : Memory) : Memory :=
  lmWrite (lmWrite (lmWrite (lmWrite (lmWrite lm a.dstBase.toNat 0) (a.dstBase.toNat + 1) 7)
    (a.dstBase.toNat + 2) 0xFF9C) (a.dstBase.toNat + 5) 0) (a.dstBase.toNat + 6) 0

theorem encWriteAll_startHeader {a : Args} (hdst : headerLen ≤ a.dstLen.toNat) (lm : Memory) :
    encWriteAll a startHeader lm = .ok (writeStartHeader a lm) := by
  rw [headerLen] at hdst
  rw [startHeader]
  iterate 5 rw [encWriteAll_cons_of_lt (by omega) (by omega)]
  rfl

theorem lmRead_writeStartHeader (a : Args) (lm : Memory) :
    lmRead (writeStartHeader a lm) a.dstBase.toNat = 0 ∧
    lmRead (writeStartHeader a lm) (a.dstBase.toNat + 1) = 7 ∧
    lmRead (writeStartHeader a lm) (a.dstBase.toNat + 2) = 0xFF9C ∧
    lmRead (writeStartHeader a lm) (a.dstBase.toNat + 5) = 0 ∧
    lmRead (writeStartHeader a lm) (a.dstBase.toNat + 6) = 0 := by
  unfold writeStartHeader
  refine ⟨?_, ?_, ?_, ?_, lmRead_lmWrite_same _ _ _⟩
  · iterate 4 rw [lmRead_lmWrite_ne _ _ _ _ (by omega)]
    exact lmRead_lmWrite_same _ _ _
  · iterate 3 rw [lmRead_lmWrite_ne _ _ _ _ (by omega)]
    exact lmRead_lmWrite_same _ _ _
  · iterate 2 rw [lmRead_lmWrite_ne _ _ _ _ (by omega)]
    exact lmRead_lmWrite_same _ _ _
  · rw [lmRead_lmWrite_ne _ _ _ _ (by omega)]
    exact lmRead_lmWrite_same _ _ _

theorem lmRead_writeStartHeader_ne (a : Args) (lm : Memory) {x : Nat}
    (hx : x < a.dstBase.toNat ∨ x = a.dstBase.toNat + 3 ∨ x = a.dstBase.toNat + 4 ∨
      a.dstBase.toNat + 7 ≤ x) : lmRead (writeStartHeader a lm) x = lmRead lm x := by
  unfold writeStartHeader
  iterate 5 rw [lmRead_lmWrite_ne _ _ _ _ (by omega)]

theorem count_pos {c : Reg32} (h : c ≠ 0) : 0 < c.toNat := by
  rw [Nat.pos_iff_ne_zero]
  exact fun h0 => h (BitVec.eq_of_toNat_eq h0)

/-- A start step that passes its checks begins the scan at the first pixel, clamped (R78). -/
theorem encStart_goes_on {a : Args} {s : State} (hcount : a.count ≠ 0)
    (hmap : a.mapped s.pmWords s.lmWords = true)
    (hsrc : a.start.toNat + a.count.toNat ≤ a.srcLen.toNat) (hdst : headerLen ≤ a.dstLen.toNat) :
    encStart a s = s.encGoOn a
      (EncWork.initial a (clamp (pmRead s.pm (a.srcBase.toNat + a.start.toNat)))) (writeStartHeader a s.lm) := by
  have hpos := count_pos hcount
  rw [encStart, if_neg hcount, if_neg (by simp [hmap]), if_neg (by omega), if_neg (by omega),
    encWriteAll_startHeader hdst]
  simp only
  rw [encSrcRead_of_lt a s.pm a.start.toNat (by omega)]

/-- Settles O30. -/
theorem encoderStartWritesTheHeader : Obligations.EncoderStartWritesTheHeader := by
  intro s a hacc hcount hmap hsrc hdst
  obtain ⟨h0, h1, h2, h5, h6⟩ := lmRead_writeStartHeader a s.lm
  exact ⟨writeStartHeader a s.lm, _, clamp_toInt _,
    (encStep_of_accepted hacc).trans (encStart_goes_on hcount hmap hsrc hdst), h0, h1, h2, h5, h6,
    fun x hx => lmRead_writeStartHeader_ne a s.lm hx⟩

/-! ### The scan step -/

/-- A running command whose cursor is at a pixel takes the scan step (R79). -/
theorem encStep_of_scanning {s : State} {a : Args} {w : EncWork} (h : s.enc.phase = .running a w)
    (hip : w.ip.toNat ≤ w.xe.toNat) : encStep s = encScan a w s := by
  simp [encStep, h, hip]

/-- The scan step before the last pixel: the next pixel, clamped, continues a run or ends one. -/
theorem encScan_next {a : Args} {w : EncWork} {s : State} (hip : w.ip.toNat < w.xe.toNat)
    (hsrc : w.ip.toNat + 1 < a.srcLen.toNat) :
    encScan a w s =
      let q := clamp (pmRead s.pm (a.srcBase.toNat + w.ip.toNat + 1))
      if q = w.pv then s.encGoOn a { w with nv := q, ip := w.ip + 1 } s.lm
      else if w.pv = 0 then
        s.encGoOn a { w with nv := q, pv := q, x1 := w.ip + 1, ip := w.ip + 1 } s.lm
      else encEndStep a s (flush a w.ip s.lm { w with nv := q }) := by
  have hread : encSrcRead a s.pm (w.ip.toNat + 1) =
      some (pmRead s.pm (a.srcBase.toNat + w.ip.toNat + 1)) :=
    encSrcRead_of_lt a s.pm (w.ip.toNat + 1) hsrc
  rw [encScan, if_pos hip, hread]
  rfl

/-- The scan step at the last pixel: a zero run first makes the nonzero range empty (R79). -/
theorem encScan_last {a : Args} {w : EncWork} {s : State} (hip : ¬w.ip.toNat < w.xe.toNat) :
    encScan a w s =
      encEndStep a s (flush a w.ip s.lm (if w.pv = 0 then { w with x1 := w.xe + 1 } else w)) := by
  rw [encScan, if_neg hip]

end Sys2Proof.Machine
end

section
/-! The flush of a segment (R80): the words of R75's pseudo-instructions, as far as the buffer goes. -/

namespace Sys2Proof.Machine

/-- A clamped pixel's signed and unsigned values agree (R77). -/
theorem toInt_of_nonneg {p : Pixel} (h : 0 ≤ p.toInt) : p.toInt = p.toNat := by
  rw [BitVec.toInt_eq_toNat_cond] at *
  split <;> omega

/-! ### The part of a flush after EmitLevel -/

/-- What a flush does after EmitLevel, where `byLevel` says that EmitLevel took the one pixel (R80). -/
def flushRest (a : Args) (ip : BitVec 33) (np nz : Int) (byLevel : Bool) (lm : Memory) (w : EncWork) :
    EncRes Unit :=
  (if byLevel = false ∧ 0 < nz then emitZeros a nz np lm w else .ok byLevel lm w).andThen
    fun handled lm₂ w₂ =>
      (if handled then .ok () lm₂ w₂ else emitHighs a np lm₂ w₂).andThen fun _ lm₃ w₃ =>
        .ok () lm₃ (w₃.nextSegment ip)

/-- A flush of `nz` zeros and `np` pixels (R80). -/
theorem flush_eq (a : Args) {ip : BitVec 33} (lm : Memory) {w : EncWork} {np nz : Nat}
    (hnz : w.iz.toNat + nz = w.x1.toNat) (hnp : w.x1.toNat + np = ip.toNat + 1) :
    flush a ip lm w =
      (if 0 < w.pv.toInt then emitLevel a np nz lm w else .ok false lm w).andThen
        (flushRest a ip np nz) := by
  have hnp' : (ip.toNat : Int) - w.x1.toNat + 1 = np := by omega
  have hnz' : (w.x1.toNat : Int) - w.iz.toNat = nz := by omega
  rw [flush, hnp', hnz']
  rfl

/-- The words after EmitLevel's: the zeros and the pixels, where EmitLevel took none. -/
def restWords (pv np nz : Nat) : List Word16 :=
  if nz = 0 then highsWords np
  else if np = 1 ∧ pv ≠ 0 then zerosHighWords nz
  else zerosWords nz ++ highsWords np

theorem flushRest_handled_emits (a : Args) (ip : BitVec 33) (np nz : Int) (lm : Memory) (w : EncWork)
    (hop : w.op.toNat ≤ a.dstLen.toNat) :
    EmitsWords a [] () lm w (w.nextSegment ip) (flushRest a ip np nz true lm w) :=
  EmitsWords.nil a () lm w (w.nextSegment ip) hop rfl

/-- The pixels of a segment, where nothing took them, and the registers for the next one. -/
theorem emitHighs_nextSegment_emits (a : Args) (ip : BitVec 33) (np : Nat) (lm : Memory) (w : EncWork)
    (hop : w.op.toNat ≤ a.dstLen.toNat) :
    EmitsWords a (highsWords np) () lm w (w.nextSegment ip)
      ((emitHighs a np lm w).andThen fun _ lm₃ w₃ => .ok () lm₃ (w₃.nextSegment ip)) := by
  rw [← List.append_nil (highsWords np)]
  refine EmitsWords.andThen hop (emitHighs_emits a np lm w hop) fun lm' w' hw' _ hle => ?_
  exact (EmitsWords.nil a () lm' w' (w'.nextSegment ip) hle rfl).congr (by subst hw'; rfl)

theorem flushRest_emits (a : Args) (ip : BitVec 33) (np nz : Nat) (lm : Memory) (w : EncWork)
    (hop : w.op.toNat ≤ a.dstLen.toNat) (hpv : 0 ≤ w.pv.toInt) :
    EmitsWords a (restWords w.pv.toNat np nz) () lm w (w.nextSegment ip)
      (flushRest a ip np nz false lm w) := by
  have hpos : 0 < w.pv.toInt ↔ w.pv.toNat ≠ 0 := by
    rw [toInt_of_nonneg hpv]
    omega
  unfold restWords flushRest
  by_cases hz : nz = 0
  · rw [if_pos hz, if_neg (by omega)]
    exact emitHighs_nextSegment_emits a ip np lm w hop
  rw [if_neg hz, if_pos (show false = false ∧ (0 : Int) < nz from ⟨rfl, by omega⟩)]
  by_cases hone : np = 1 ∧ w.pv.toNat ≠ 0
  · rw [if_pos hone, ← List.append_nil (zerosHighWords nz)]
    have hfused := emitZeros_fused_emits a nz np lm w hop (by omega)
      ⟨by omega, hpos.2 hone.2⟩
    refine EmitsWords.andThen hop hfused fun lm' w' hw' _ hle => ?_
    exact (EmitsWords.nil a () lm' w' (w'.nextSegment ip) hle rfl).congr (by subst hw'; rfl)
  · rw [if_neg hone]
    have hunfused := emitZeros_unfused_emits a nz np lm w hop
      (fun h => hone ⟨by omega, hpos.1 h.2⟩)
    refine EmitsWords.andThen hop hunfused fun lm' w' hw' _ hle => ?_
    exact (emitHighs_nextSegment_emits a ip np lm' w' hle).congr (by subst hw'; rfl)

/-! ### The words of a segment -/

/-- IH and DH become IS and DS by bit 14 (R52, R82). -/
theorem deltaWord_fused {dv : Int} (h : dv.natAbs ≤ deltaMax) :
    deltaWord dv ||| 0x4000 = if 0 < dv then pack 6 dv.natAbs else pack 7 dv.natAbs := by
  unfold deltaMax at h
  have hd : (BitVec.ofNat 12 dv.natAbs).toNat = dv.natAbs := by
    rw [BitVec.toNat_ofNat]
    omega
  have hpack : ∀ op : BitVec 4, pack op.toNat dv.natAbs = op ++ BitVec.ofNat 12 dv.natAbs := fun op => by
    rw [← pack_eq_append, hd]
  have hfuse : ∀ op : BitVec 4, pack op.toNat dv.natAbs ||| 0x4000 = pack (op ||| 4#4).toNat dv.natAbs :=
    fun op => by
      rw [hpack, hpack, show (0x4000 : Word16) = 4#4 ++ 0#12 from rfl, BitVec.or_append, BitVec.or_zero]
  unfold deltaWord
  split
  · exact hfuse 2#4
  · exact hfuse 3#4

/-- Whether the one pixel of a segment is taken by its change of the high value: IS or DS (R75, R82). -/
def levelTakesPixel (h : Int) (pv np nz : Nat) : Prop :=
  (np = 1 ∧ nz = 0) ∧ (pv : Int) - h ≠ 0 ∧ ((pv : Int) - h).natAbs ≤ deltaMax

/-- IS or DS, whichever makes the change (R82). -/
def fusedWord (dv : Int) : Word16 := if 0 < dv then pack 6 dv.natAbs else pack 7 dv.natAbs

theorem levelEmission_of_taken {h : Int} {pv : Pixel} {np nz : Nat} (hpv : 0 ≤ pv.toInt)
    (htake : levelTakesPixel h pv.toNat np nz) :
    levelEmission h pv np nz = some ([fusedWord (pv.toNat - h)], true) := by
  obtain ⟨⟨rfl, rfl⟩, hne, hle⟩ := htake
  rw [levelEmission, toInt_of_nonneg hpv]
  simp only [if_neg hne, if_neg (Nat.not_lt.2 hle), deltaWord_fused hle, fusedWord]
  rfl

theorem levelEmission_of_not_taken {h : Int} {pv : Pixel} {np nz : Nat} (hpv : 0 ≤ pv.toInt)
    (htake : ¬levelTakesPixel h pv.toNat np nz) :
    levelEmission h pv np nz = (levelWords h pv.toNat).map fun l => (l, false) := by
  rw [levelEmission, levelWords, toInt_of_nonneg hpv]
  by_cases h0 : (pv.toNat : Int) - h = 0
  · simp only [if_pos h0, Option.map_some]
  by_cases hbig : deltaMax < ((pv.toNat : Int) - h).natAbs
  · by_cases hmax : maxShValue < pv.toNat
    · simp only [if_neg h0, if_pos hbig, if_pos hmax, if_pos (Int.ofNat_lt.2 hmax), Option.map_none]
    · simp only [if_neg h0, if_pos hbig, if_neg hmax, if_neg (mt Int.ofNat_lt.1 hmax), Option.map_some]
      rfl
  · have hplain : ¬((np : Int) = 1 ∧ (nz : Int) = 0) := fun hone =>
      htake ⟨⟨by omega, by omega⟩, h0, by omega⟩
    simp only [if_neg h0, if_neg hbig, if_neg hplain, deltaWord]
    split <;> rfl

/-- The words of a zero run's segment (R75). -/
theorem segmentWords_zero (h : Int) (nz : Nat) :
    segmentWords h 0 0 nz = some (restWords 0 0 nz) := by
  unfold segmentWords restWords
  by_cases hz : nz = 0
  · subst hz; rfl
  · rw [if_pos rfl, if_neg hz, if_neg (fun h => h.2 rfl)]
    exact congrArg some (List.append_nil _).symm

theorem segmentWords_of_taken {h : Int} {pv np nz : Nat} (hpv : pv ≠ 0) (htake : levelTakesPixel h pv np nz) :
    segmentWords h pv np nz = some [fusedWord (pv - h)] := by
  obtain ⟨⟨rfl, rfl⟩, hdelta⟩ := htake
  rw [segmentWords, if_neg hpv, if_pos rfl, if_pos rfl, levelsWords, if_pos hdelta, fusedWord]

theorem segmentWords_of_not_taken {h : Int} {pv np nz : Nat} (hpv : pv ≠ 0)
    (htake : ¬levelTakesPixel h pv np nz) :
    segmentWords h pv np nz = (levelWords h pv).map fun l => l ++ restWords pv np nz := by
  rw [segmentWords, if_neg hpv]
  unfold restWords
  by_cases hz : nz = 0
  · rw [if_pos hz]
    simp only [if_pos hz]
    by_cases hone : np = 1
    · subst hone
      rw [if_pos rfl, levelsWords, if_neg (fun hdelta => htake ⟨⟨rfl, hz⟩, hdelta⟩)]
    · rw [if_neg hone]
  · rw [if_neg hz]
    simp only [if_neg hz]
    by_cases hone : np = 1
    · simp only [if_pos hone, if_pos (And.intro hone hpv)]
    · simp only [if_neg hone, if_neg (fun h : np = 1 ∧ pv ≠ 0 => hone h.1), List.append_assoc]

/-! ### The flush -/

/-- The registers a flush leaves, but for E.op (R80). -/
def EncWork.flushed (w : EncWork) (ip : BitVec 33) : EncWork :=
  { w with x1 := ip + 1, iz := ip + 1, pv := w.nv, hi := if w.pv = 0 then w.hi else w.pv }

/-- A flush emits the words of its segment, or raises VALUE_RANGE before any write (R80 to R84). -/
theorem flush_emits {a : Args} {ip : BitVec 33} (lm : Memory) {w : EncWork} {np nz : Nat}
    (hnz : w.iz.toNat + nz = w.x1.toNat) (hnp : w.x1.toNat + np = ip.toNat + 1) (hzero : np = 0 ↔ w.pv = 0)
    (hpv : 0 ≤ w.pv.toInt) (hop : w.op.toNat ≤ a.dstLen.toNat) :
    match segmentWords w.hi.toInt w.pv.toNat np nz with
    | none => flush a ip lm w = .raise .valueRange w.x1.toNat lm
    | some ws => EmitsWords a ws () lm w (w.flushed ip) (flush a ip lm w) := by
  rw [flush_eq a lm hnz hnp]
  by_cases hp : w.pv = 0
  · obtain rfl := hzero.2 hp
    have hflushed : w.flushed ip = w.nextSegment ip := by rw [EncWork.flushed, if_pos hp]; rfl
    have hrest := flushRest_emits a ip 0 nz lm w hop hpv
    have hpn : w.pv.toNat = 0 := by rw [hp]; rfl
    rw [hpn] at hrest ⊢
    rw [segmentWords_zero, if_neg (by rw [hp]; decide), hflushed]
    exact hrest
  · have hpn : w.pv.toNat ≠ 0 := fun h0 => hp (BitVec.eq_of_toNat_eq h0)
    have hflushed : w.flushed ip = ({ w with hi := w.pv } : EncWork).nextSegment ip := by
      rw [EncWork.flushed, if_neg hp]; rfl
    have hlevel := emitLevel_emits a np nz lm w hop
    rw [if_pos (by rw [toInt_of_nonneg hpv]; omega), hflushed]
    by_cases htake : levelTakesPixel w.hi.toInt w.pv.toNat np nz
    · rw [levelEmission_of_taken hpv htake] at hlevel
      rw [segmentWords_of_taken hpn htake, ← List.append_nil [fusedWord _]]
      refine EmitsWords.andThen hop hlevel fun lm' w' hw' _ hle => ?_
      exact (flushRest_handled_emits a ip np nz lm' w' hle).congr (by subst hw'; rfl)
    · rw [levelEmission_of_not_taken hpv htake] at hlevel
      rw [segmentWords_of_not_taken hpn htake]
      cases hwords : levelWords w.hi.toInt w.pv.toNat with
      | none =>
        rw [hwords] at hlevel
        simp only [Option.map_none] at hlevel ⊢
        rw [hlevel]
        rfl
      | some ws =>
        rw [hwords] at hlevel
        simp only [Option.map_some] at hlevel ⊢
        refine EmitsWords.andThen hop hlevel fun lm' w' hw' _ hle => ?_
        have hpv' : w'.pv = w.pv := by subst hw'; rfl
        have hrest := flushRest_emits a ip np nz lm' w' hle (by rw [hpv']; exact hpv)
        rw [hpv'] at hrest
        exact hrest.congr (by subst hw'; rfl)

/-- Settles O32. -/
theorem flushEmitsTheSegment : Obligations.FlushEmitsTheSegment := by
  intro a ip lm w np nz hnz hnp hzero hpv hop
  have hemits := flush_emits lm hnz hnp hzero hpv hop
  revert hemits
  cases segmentWords w.hi.toInt w.pv.toNat np nz with
  | none => exact id
  | some ws =>
    rintro ⟨lm', hwritten, _, hflush⟩
    simp only
    split
    case isTrue hfits =>
      rw [List.take_of_length_le (by omega)] at hwritten
      rw [if_pos hfits] at hflush
      exact ⟨lm', hwritten, hflush⟩
    case isFalse hfull =>
      rw [if_neg hfull] at hflush
      exact ⟨lm', hwritten, hflush⟩

end Sys2Proof.Machine
end

section
/-! The scan step of ENC (R79) and the registers of the running encode command (R86). -/

namespace Sys2Proof.Machine

/-! ### How many words a segment has (R86) -/

theorem chunkWords_length_le (opc : Nat) {cap : Nat} (hcap : 0 < cap) (fuel n : Nat) :
    (chunkWords opc cap fuel n).length ≤ n := by
  induction fuel generalizing n with
  | zero => exact Nat.zero_le n
  | succ fuel ih =>
    rw [chunkWords]
    split
    · exact Nat.zero_le n
    · have := ih (n - cap)
      rw [List.length_cons]
      omega

theorem chunkWords_length_pos (opc cap : Nat) {fuel n : Nat} (hfuel : 0 < fuel) (hn : 0 < n) :
    0 < (chunkWords opc cap fuel n).length := by
  obtain ⟨fuel, rfl⟩ := Nat.exists_eq_succ_of_ne_zero hfuel.ne'
  rw [chunkWords, if_neg hn.ne', List.length_cons]
  omega

theorem zerosWords_length (n : Nat) : (zerosWords n).length ≤ n ∧ (0 < n → 0 < (zerosWords n).length) :=
  ⟨chunkWords_length_le 0 (by decide) n n, fun h => chunkWords_length_pos 0 znCap h h⟩

theorem highsWords_length (n : Nat) : (highsWords n).length ≤ n ∧ (0 < n → 0 < (highsWords n).length) :=
  ⟨chunkWords_length_le 4 (by decide) n n, fun h => chunkWords_length_pos 4 hnCap h h⟩

theorem restWords_length (pv np nz : Nat) :
    (restWords pv np nz).length ≤ np + nz ∧ (0 < np + nz → 0 < (restWords pv np nz).length) := by
  obtain ⟨hz, hz'⟩ := zerosWords_length nz
  obtain ⟨hp, hp'⟩ := highsWords_length np
  unfold restWords zerosHighWords
  split
  · omega
  · split <;> simp only [List.length_append, List.length_dropLast, List.length_singleton] <;> omega

theorem levelWords_length {h : Int} {v : Nat} {ws : List Word16} (hws : levelWords h v = some ws) :
    ws.length ≤ 2 := by
  simp only [levelWords] at hws
  split_ifs at hws <;> cases hws <;> simp [setHighWords]

/-- A segment of at least one pixel has at least one word and at most three a pixel (R86). -/
theorem segmentWords_length {h : Int} {pv np nz : Nat} {ws : List Word16} (hzero : np = 0 ↔ pv = 0)
    (hws : segmentWords h pv np nz = some ws) :
    ws.length ≤ 3 * (np + nz) ∧ (0 < np + nz → 0 < ws.length) := by
  obtain ⟨hle, hpos⟩ := restWords_length pv np nz
  by_cases hp : pv = 0
  · obtain rfl := hzero.2 hp
    subst hp
    rw [segmentWords_zero] at hws
    cases hws
    omega
  · have hnp : np ≠ 0 := mt hzero.1 hp
    by_cases htake : levelTakesPixel h pv np nz
    · rw [segmentWords_of_taken hp htake] at hws
      cases hws
      rw [List.length_singleton]
      omega
    · rw [segmentWords_of_not_taken hp htake] at hws
      obtain ⟨l, hl, rfl⟩ := Option.map_eq_some_iff.1 hws
      have := levelWords_length hl
      rw [List.length_append]
      omega

/-! ### Where a segment ends -/

/-- The value of pixel `i` of ENC's source, clamped (R77). -/
def clampedPixel (a : Args) (pm : Memory) (i : Nat) : Pixel := clamp (pmRead pm (a.srcBase.toNat + i))

theorem clampedPixel_nonneg (a : Args) (pm : Memory) (i : Nat) : 0 ≤ (clampedPixel a pm i).toInt := by
  rw [clampedPixel, clamp_toInt]
  omega

/-- The scan step ends the segment with the registers `w'`: before another pixel value than E.pv, or at the last
pixel, where a zero run has no pixel of its own (R79). -/
inductive SegmentEnd (a : Args) (pm : Memory) (w : EncWork) : EncWork → Prop
  | changed (hip : w.ip.toNat < w.xe.toNat) (hpv : w.pv ≠ 0) :
      SegmentEnd a pm w { w with nv := clampedPixel a pm (w.ip.toNat + 1) }
  | lastRun (hip : w.ip.toNat = w.xe.toNat) (hpv : w.pv ≠ 0) : SegmentEnd a pm w w
  | lastZeros (hip : w.ip.toNat = w.xe.toNat) (hpv : w.pv = 0) :
      SegmentEnd a pm w { w with x1 := w.xe + 1 }

/-- How many zeros and how many pixels of value E.pv the segment that ends at E.ip has (R80). -/
def EncWork.zeroCount (w : EncWork) : Nat := w.x1.toNat - w.iz.toNat

def EncWork.pixelCount (w : EncWork) : Nat := w.ip.toNat + 1 - w.x1.toNat

/-- The words of the segment that ends at E.ip (R75). -/
def EncWork.words (w : EncWork) : Option (List Word16) :=
  segmentWords w.hi.toInt w.pv.toNat w.pixelCount w.zeroCount

/-- 33 bits hold one index more than the source has (R15). -/
theorem EncWork.Ok.succ_toNat {a : Args} {w : EncWork} {pmWords lmWords : Nat} (hok : w.Ok a pmWords lmWords)
    {i : BitVec 33} (hi : i.toNat ≤ w.xe.toNat) : (i + 1).toNat = i.toNat + 1 := by
  have hxe := hok.xe_eq
  have hsrc := hok.src_fits
  have hlen := a.srcLen.isLt
  rw [BitVec.toNat_add]
  exact Nat.mod_eq_of_lt (by change i.toNat + 1 < 8589934592; omega)

/-- What a flush rests on, at the end of a segment. -/
theorem SegmentEnd.counts {a : Args} {pm : Memory} {w w' : EncWork} {pmWords lmWords : Nat}
    (h : SegmentEnd a pm w w') (hok : w.Ok a pmWords lmWords) :
    w'.iz.toNat + w'.zeroCount = w'.x1.toNat ∧ w'.x1.toNat + w'.pixelCount = w'.ip.toNat + 1 ∧
      (w'.pixelCount = 0 ↔ w'.pv = 0) ∧ 0 < w'.pixelCount + w'.zeroCount := by
  have hiz := hok.iz_le_x1
  have hx1 := hok.x1_le_ip
  unfold EncWork.zeroCount EncWork.pixelCount
  cases h with
  | changed hip hpv => simp only [hpv, iff_false]; omega
  | lastRun hip hpv => simp only [hpv, iff_false]; omega
  | lastZeros hip hpv =>
    have hsucc := hok.succ_toNat (Nat.le_refl w.xe.toNat)
    have hrun := congrArg BitVec.toNat (hok.zero_run hpv)
    simp only [hpv, iff_true, hsucc]
    omega

/-- The end of a segment leaves every register but E.nv and E.x1. -/
theorem SegmentEnd.same {a : Args} {pm : Memory} {w w' : EncWork} (h : SegmentEnd a pm w w') :
    w' = { w with nv := w'.nv, x1 := w'.x1 } := by
  cases h <;> rfl

/-- The segment's last pixel is E.ip, and the value after it was read, where there is one. -/
theorem SegmentEnd.nv_nonneg {a : Args} {pm : Memory} {w w' : EncWork} {pmWords lmWords : Nat}
    (h : SegmentEnd a pm w w') (hok : w.Ok a pmWords lmWords) : 0 ≤ w'.nv.toInt := by
  cases h with
  | changed => exact clampedPixel_nonneg _ _ _
  | lastRun => exact hok.nv_nonneg
  | lastZeros => exact hok.nv_nonneg

/-- The flush at the end of a segment: VALUE_RANGE, or the segment's words emitted. -/
theorem SegmentEnd.flush_cases {a : Args} {w w₁ : EncWork} {s : State} (hend : SegmentEnd a s.pm w w₁)
    (hok : w.Ok a s.pmWords s.lmWords) :
    (w₁.words = none ∧ flush a w.ip s.lm w₁ = .raise .valueRange w₁.x1.toNat s.lm) ∨
      ∃ ws, w₁.words = some ws ∧ EmitsWords a ws () s.lm w₁ (w₁.flushed w.ip) (flush a w.ip s.lm w₁) := by
  obtain ⟨hnz, hnp, hzero, _⟩ := hend.counts hok
  have hpv : w₁.pv = w.pv := by rw [hend.same]
  have hop : w₁.op = w.op := by rw [hend.same]
  have hip : w₁.ip = w.ip := by rw [hend.same]
  have hemits := flush_emits s.lm hnz (by rw [hnp, hip]) hzero (by rw [hpv]; exact hok.pv_nonneg)
    (by rw [hop]; exact hok.op_le)
  unfold EncWork.words
  revert hemits
  cases segmentWords w₁.hi.toInt w₁.pv.toNat w₁.pixelCount w₁.zeroCount with
  | none => exact fun hemits => .inl ⟨rfl, hemits⟩
  | some ws => exact fun hemits => .inr ⟨ws, rfl, hemits⟩

/-! ### What a scan step can do -/

/-- Everything a scan step can make of a running encode command whose registers are in order (R79, R80). -/
inductive ScanMove (a : Args) (w : EncWork) (s : State) : State → Prop
  /-- The next pixel continues the run. -/
  | continues (hip : w.ip.toNat < w.xe.toNat) (hq : clampedPixel a s.pm (w.ip.toNat + 1) = w.pv) :
      ScanMove a w s
        (s.encGoOn a { w with nv := clampedPixel a s.pm (w.ip.toNat + 1), ip := w.ip + 1 } s.lm)
  /-- The next pixel starts the nonzero run after a zero run. -/
  | starts (hip : w.ip.toNat < w.xe.toNat) (hq : clampedPixel a s.pm (w.ip.toNat + 1) ≠ w.pv)
      (hpv : w.pv = 0) :
      ScanMove a w s
        (s.encGoOn a
          { w with nv := clampedPixel a s.pm (w.ip.toNat + 1), pv := clampedPixel a s.pm (w.ip.toNat + 1)
                   x1 := w.ip + 1, ip := w.ip + 1 } s.lm)
  /-- The segment's words are written at the cursor. -/
  | flushes (w₁ : EncWork) (ws : List Word16) (lm' : Memory) (hend : SegmentEnd a s.pm w w₁)
      (hws : w₁.words = some ws) (hfits : w.op.toNat + ws.length ≤ a.dstLen.toNat)
      (hwritten : WordsWritten a w.op.toNat ws s.lm lm') :
      ScanMove a w s
        (s.encGoOn a
          { w₁.flushed w.ip with op := w.op + BitVec.ofNat 32 ws.length, ip := w.ip + 1 } lm')
  /-- A set-high above MAX_SH_VALUE is needed. -/
  | valueRange (info : Int) : ScanMove a w s (raiseFault .enc .valueRange info s)
  /-- The segment's words do not fit. -/
  | overflows (w₁ : EncWork) (ws : List Word16) (lm' : Memory) (info : Int)
      (hend : SegmentEnd a s.pm w w₁) (hws : w₁.words = some ws)
      (hfull : a.dstLen.toNat < w.op.toNat + ws.length) :
      ScanMove a w s (raiseFault .enc .dstBounds info { s with lm := lm' })

section
variable {a : Args} {w : EncWork} {s : State} (hok : w.Ok a s.pmWords s.lmWords)
include hok

/-- The flush at the end of a segment, and the end of the step. -/
theorem encEndStep_flush_move {w₁ : EncWork} (hend : SegmentEnd a s.pm w w₁) :
    ScanMove a w s (encEndStep a s (flush a w.ip s.lm w₁)) := by
  have hop : w₁.op = w.op := by rw [hend.same]
  have hip : w₁.ip = w.ip := by rw [hend.same]
  rcases hend.flush_cases hok with ⟨_, hflush⟩ | ⟨ws, hws, lm', hwritten, _, hflush⟩
  · rw [hflush]
    exact .valueRange _
  · rw [hflush, hop]
    rw [hop] at hwritten
    by_cases hfits : w.op.toNat + ws.length ≤ a.dstLen.toNat
    · rw [if_pos hfits]
      rw [List.take_of_length_le (by omega)] at hwritten
      have hgo := ScanMove.flushes w₁ ws lm' hend hws hfits hwritten
      rw [encEndStep, EncWork.nextPixel, ← hip]
      rw [← hip] at hgo
      exact hgo
    · rw [if_neg hfits]
      exact .overflows w₁ ws lm' _ hend hws (by omega)

/-- A scan step makes one of the moves. -/
theorem encScan_scanMove (hscan : w.ip.toNat ≤ w.xe.toNat) : ScanMove a w s (encScan a w s) := by
  have hxe := hok.xe_eq
  have hsrc := hok.src_fits
  by_cases hip : w.ip.toNat < w.xe.toNat
  · have hq : clamp (pmRead s.pm (a.srcBase.toNat + w.ip.toNat + 1)) =
        clampedPixel a s.pm (w.ip.toNat + 1) := by rw [clampedPixel, Nat.add_assoc]
    rw [encScan_next hip (by omega), hq]
    simp only
    split
    case isTrue heq => exact .continues hip heq
    case isFalse hne =>
      split
      case isTrue hpv => exact .starts hip hne hpv
      case isFalse hpv => exact encEndStep_flush_move hok (.changed hip hpv)
  · rw [encScan_last hip]
    split
    case isTrue hpv => exact encEndStep_flush_move hok (.lastZeros (by omega) hpv)
    case isFalse hpv => exact encEndStep_flush_move hok (.lastRun (by omega) hpv)

end

/-- The step at the end of a segment is its flush, as the statement of the scan step spells it. -/
theorem stepFlushes_of_segmentEnd {a : Args} {w w₁ : EncWork} {s : State}
    (hok : w.Ok a s.pmWords s.lmWords) (hend : SegmentEnd a s.pm w w₁)
    (hstep : encStep s = encEndStep a s (flush a w.ip s.lm w₁)) : StepFlushes a w₁ s := by
  have hip : w₁.ip = w.ip := by rw [hend.same]
  unfold StepFlushes
  rw [hip]
  refine ⟨fun lm' w' hflush => ?ok, fun c info lm' hflush => ?raise⟩
  case raise => rw [hstep, hflush, encEndStep]
  case ok =>
    have hip' : w'.ip = w.ip := by
      rcases hend.flush_cases hok with ⟨_, hraise⟩ | ⟨ws, _, _, _, _, hres⟩
      · rw [hflush] at hraise; cases hraise
      · rw [hflush] at hres
        split at hres <;> cases hres
        exact hip
    rw [hstep, hflush, encEndStep, EncWork.nextPixel, hip']

/-- Settles O31. -/
theorem scanStepExtendsOrFlushesTheRun : Obligations.ScanStepExtendsOrFlushesTheRun := by
  intro s a w hrun hok
  have hxe := hok.xe_eq
  have hsrc := hok.src_fits
  refine ⟨fun hip q hq => ?next, fun hip => ?last⟩
  case next =>
    have hstep := (encStep_of_scanning hrun hip.le).trans (encScan_next hip (by omega))
    obtain rfl : q = clamp (pmRead s.pm (a.srcBase.toNat + w.ip.toNat + 1)) :=
      BitVec.eq_of_toInt_eq (by rw [hq, clamp_toInt])
    refine ⟨fun heq => ?same, fun hne hpv => ?zero, fun hne hpv => ?ended⟩
    case same => rw [hstep]; exact if_pos heq
    case zero => rw [hstep]; exact (if_neg hne).trans (if_pos hpv)
    case ended =>
      have hend : SegmentEnd a s.pm w
          { w with nv := clamp (pmRead s.pm (a.srcBase.toNat + w.ip.toNat + 1)) } := by
        have := SegmentEnd.changed (a := a) (pm := s.pm) hip hpv
        rwa [clampedPixel, ← Nat.add_assoc] at this
      exact stepFlushes_of_segmentEnd hok hend (hstep.trans ((if_neg hne).trans (if_neg hpv)))
  case last =>
    have hstep := (encStep_of_scanning hrun hip.le).trans (encScan_last (s := s) (a := a) (by omega))
    split
    case isTrue hpv =>
      rw [if_pos hpv] at hstep
      exact stepFlushes_of_segmentEnd hok (.lastZeros hip hpv) hstep
    case isFalse hpv =>
      rw [if_neg hpv] at hstep
      exact stepFlushes_of_segmentEnd hok (.lastRun hip hpv) hstep

/-! ### The registers stay in order (R86) -/

/-- The registers the start step sets are in order. -/
theorem EncWork.initial_ok {a : Args} {pmWords lmWords : Nat} {p : Pixel}
    (hmap : a.mapped pmWords lmWords = true) (hcount : a.count ≠ 0)
    (hsrc : a.start.toNat + a.count.toNat ≤ a.srcLen.toNat) (hdst : headerLen ≤ a.dstLen.toNat)
    (hp : 0 ≤ p.toInt) : (EncWork.initial a p).Ok a pmWords lmWords := by
  have hpos := count_pos hcount
  have hlen := a.srcLen.isLt
  have hstart : (BitVec.ofNat 33 a.start.toNat).toNat = a.start.toNat := by
    rw [BitVec.toNat_ofNat]
    exact Nat.mod_eq_of_lt (by omega)
  have hlast : (BitVec.ofNat 33 (a.start.toNat + a.count.toNat - 1)).toNat =
      a.start.toNat + a.count.toNat - 1 := by
    rw [BitVec.toNat_ofNat]
    exact Nat.mod_eq_of_lt (by omega)
  refine
    { mapped := hmap, count_pos := hpos, src_fits := hsrc, header_fits := hdst, xe_eq := ?_
      start_le_iz := hstart.ge, iz_le_x1 := Nat.le_refl _, x1_le_ip := Nat.le_refl _, ip_le := ?_
      zero_run := fun _ => rfl, op_ge := Nat.le_refl 7, op_le := hdst, op_bound := ?_
      hi_pos := by change 1 ≤ (1#32).toInt; decide
      pv_nonneg := hp
      nv_nonneg := by change (0 : Int) ≤ (0#32).toInt; decide }
  · simp only [EncWork.initial, hlast]; omega
  · simp only [EncWork.initial, hlast, hstart]; omega
  · simp only [EncWork.initial, hstart]; rfl

/-- The registers after a scan step that goes on are in order, with E.ip one on. -/
theorem ScanMove.keeps_ok {a : Args} {w : EncWork} {s s' : State} (h : ScanMove a w s s')
    (hok : w.Ok a s.pmWords s.lmWords) (hscan : w.ip.toNat ≤ w.xe.toNat) :
    (∃ c, s'.enc.phase = .faulted c) ∨
      ∃ w', s'.enc.phase = .running a w' ∧ w'.Ok a s.pmWords s.lmWords ∧
        w'.ip.toNat = w.ip.toNat + 1 ∧ w'.xe = w.xe := by
  have hsucc := hok.succ_toNat hscan
  cases h with
  | valueRange info => exact .inl ⟨_, rfl⟩
  | overflows => exact .inl ⟨_, rfl⟩
  | continues hip hq =>
    refine .inr ⟨_, rfl, { hok with ip_le := ?_, x1_le_ip := ?_, nv_nonneg := clampedPixel_nonneg _ _ _ },
      hsucc, rfl⟩
    · rw [hsucc]; exact Nat.le_succ_of_le hok.x1_le_ip
    · rw [hsucc]; exact Nat.succ_le_succ hscan
  | starts hip hq hpv =>
    refine .inr ⟨_, rfl,
      { hok with
        ip_le := ?_, x1_le_ip := Nat.le_refl _, iz_le_x1 := ?_, zero_run := fun h0 => ?_
        nv_nonneg := clampedPixel_nonneg _ _ _, pv_nonneg := clampedPixel_nonneg _ _ _ }, hsucc, rfl⟩
    · rw [hsucc]; exact Nat.le_succ_of_le (hok.iz_le_x1.trans hok.x1_le_ip)
    · rw [hsucc]; exact Nat.succ_le_succ hscan
    · exact absurd (h0.trans hpv.symm) hq
  | flushes w₁ ws lm' hend hws hfits hwritten =>
    obtain ⟨hnz, hnp, hzero, _⟩ := hend.counts hok
    have hsame := hend.same
    have hzero' : w₁.pixelCount = 0 ↔ w₁.pv.toNat = 0 := by
      rw [hzero]
      exact ⟨fun h => by rw [h]; rfl, fun h => BitVec.eq_of_toNat_eq h⟩
    obtain ⟨hlen, _⟩ := segmentWords_length hzero' hws
    have hop := op_add_toNat hfits
    have hbound := hok.op_bound
    have hiz := hok.iz_le_x1
    have hx1 := hok.x1_le_ip
    have hge := hok.op_ge
    have hstart := hok.start_le_iz
    have hip₁ : w₁.ip = w.ip := by rw [hsame]
    have hiz₁ : w₁.iz = w.iz := by rw [hsame]
    have hxe₁ : w₁.xe = w.xe := by rw [hsame]
    have hhi₁ : w₁.hi = w.hi := by rw [hsame]
    have hpv₁ : w₁.pv = w.pv := by rw [hsame]
    rw [hip₁] at hnp
    rw [hiz₁] at hnz
    refine .inr ⟨_, rfl,
      { mapped := hok.mapped, count_pos := hok.count_pos, src_fits := hok.src_fits
        header_fits := hok.header_fits, xe_eq := ?_, start_le_iz := ?_, iz_le_x1 := Nat.le_refl _
        x1_le_ip := Nat.le_refl _, ip_le := ?_, zero_run := fun _ => rfl, op_ge := ?_, op_le := ?_
        op_bound := ?_, hi_pos := ?_, pv_nonneg := hend.nv_nonneg hok, nv_nonneg := hend.nv_nonneg hok },
      hsucc, hxe₁⟩
    · simp only [EncWork.flushed, hxe₁]; exact hok.xe_eq
    · simp only [EncWork.flushed, hsucc]; omega
    · simp only [EncWork.flushed, hsucc, hxe₁]; omega
    · simp only [hop]; omega
    · simp only [hop]; exact hfits
    · simp only [EncWork.flushed, hop, hsucc]; omega
    · simp only [EncWork.flushed, hpv₁, hhi₁]
      split
      · exact hok.hi_pos
      case isFalse hpv =>
        have hnn := toInt_of_nonneg hok.pv_nonneg
        have hne : w.pv.toNat ≠ 0 := fun h0 => hpv (BitVec.eq_of_toNat_eq h0)
        omega

end Sys2Proof.Machine
end

section
/-! What a list of instructions draws: the pixels it stands for and the high value it leaves (R94 to R102), and
the lists that the words of a segment are (R75). -/

namespace Sys2Proof.Machine

/-! ### Instructions as pixels -/

/-- From the high value `h` the instruction `i` draws the pixels `px` and leaves the high value `h'`. -/
inductive InstrDraws : Instr → Pixel → List Pixel → Pixel → Prop
  | zn (d : BitVec 12) (h : Pixel) : InstrDraws (.zn d) h (List.replicate d.toNat 0) h
  | hn (d : BitVec 12) (h : Pixel) : InstrDraws (.hn d) h (List.replicate d.toNat h) h
  | pn (d : BitVec 12) (h : Pixel) (hd : 0 < d.toNat) :
      InstrDraws (.pn d) h (List.replicate (d.toNat - 1) 0 ++ [h]) h
  | sh (d : BitVec 12) (w : Word16) (h h' : Pixel) (hh : h'.toInt = shValue d w) :
      InstrDraws (.sh d w) h [] h'
  | ih (d : BitVec 12) (h h' : Pixel) (hh : h'.toInt = h.toInt + d.toNat) : InstrDraws (.ih d) h [] h'
  | dh (d : BitVec 12) (h h' : Pixel) (hh : h'.toInt = h.toInt - d.toNat) : InstrDraws (.dh d) h [] h'
  | is (d : BitVec 12) (h h' : Pixel) (hh : h'.toInt = h.toInt + d.toNat) : InstrDraws (.is d) h [h'] h'
  | ds (d : BitVec 12) (h h' : Pixel) (hh : h'.toInt = h.toInt - d.toNat) : InstrDraws (.ds d) h [h'] h'

/-- From the high value `h` the instructions draw the pixels `px` and leave the high value `h'`. -/
inductive Draws : List Instr → Pixel → List Pixel → Pixel → Prop
  | nil (h : Pixel) : Draws [] h [] h
  | cons {i : Instr} {is : List Instr} {h h₁ h₂ : Pixel} {px px' : List Pixel} (hi : InstrDraws i h px h₁)
      (his : Draws is h₁ px' h₂) : Draws (i :: is) h (px ++ px') h₂

theorem Draws.append {is is' : List Instr} {h h₁ h₂ : Pixel} {px px' : List Pixel}
    (hd : Draws is h px h₁) (hd' : Draws is' h₁ px' h₂) : Draws (is ++ is') h (px ++ px') h₂ := by
  induction hd with
  | nil h => exact hd'
  | cons hi _ ih =>
    rw [List.cons_append, List.append_assoc]
    exact .cons hi (ih hd')

theorem Draws.single {i : Instr} {h h' : Pixel} {px : List Pixel} (hi : InstrDraws i h px h') :
    Draws [i] h px h' := by
  have := Draws.cons hi (.nil h')
  rwa [List.append_nil] at this

/-- The words of a list of instructions (R67, R71). -/
def instrWords (is : List Instr) : List Word16 := is.flatMap encode

theorem instrWords_append (is is' : List Instr) : instrWords (is ++ is') = instrWords is ++ instrWords is' :=
  List.flatMap_append

theorem instrWords_cons (i : Instr) (is : List Instr) : instrWords (i :: is) = encode i ++ instrWords is := rfl

/-- The words `ws` draw the pixels `px` from the high value `h` and leave `h'`. -/
def WordsDraw (ws : List Word16) (h : Pixel) (px : List Pixel) (h' : Pixel) : Prop :=
  ∃ is, instrWords is = ws ∧ Draws is h px h'

theorem WordsDraw.nil (h : Pixel) : WordsDraw [] h [] h := ⟨[], rfl, .nil h⟩

theorem WordsDraw.append {ws ws' : List Word16} {h h₁ h₂ : Pixel} {px px' : List Pixel}
    (hw : WordsDraw ws h px h₁) (hw' : WordsDraw ws' h₁ px' h₂) : WordsDraw (ws ++ ws') h (px ++ px') h₂ := by
  obtain ⟨is, rfl, hd⟩ := hw
  obtain ⟨is', rfl, hd'⟩ := hw'
  exact ⟨is ++ is', instrWords_append is is', hd.append hd'⟩

theorem WordsDraw.instr {i : Instr} {h h' : Pixel} {px : List Pixel} (hi : InstrDraws i h px h') :
    WordsDraw (encode i) h px h' :=
  ⟨[i], List.append_nil _, .single hi⟩

/-- Drawing some pixel takes some word. -/
theorem WordsDraw.length_pos {ws : List Word16} {h h' : Pixel} {px : List Pixel} (hw : WordsDraw ws h px h')
    (hpx : 0 < px.length) : 0 < ws.length := by
  obtain ⟨is, rfl, hd⟩ := hw
  cases hd with
  | nil => exact absurd hpx (Nat.lt_irrefl 0)
  | cons hi his =>
    rename_i i is _ _ _
    have := (encode_length_range i).1
    rw [instrWords_cons, List.length_append]
    omega

/-! ### The words of a segment -/

theorem pack_ofNat (o : Nat) {n : Nat} (hn : n < 4096) : pack o (BitVec.ofNat 12 n).toNat = pack o n := by
  rw [BitVec.toNat_ofNat, Nat.mod_eq_of_lt hn]

theorem ofNat12_toNat {n : Nat} (hn : n < 4096) : (BitVec.ofNat 12 n).toNat = n := by
  rw [BitVec.toNat_ofNat, Nat.mod_eq_of_lt hn]

/-- The chunks of a run draw it, where one instruction `mk d` draws `d` pixels of the value `v`. -/
theorem chunkWords_draw {opc cap : Nat} {mk : BitVec 12 → Instr} {v h : Pixel} (hcap : 0 < cap)
    (hcap' : cap < 4096) (henc : ∀ d, encode (mk d) = [pack opc d.toNat])
    (hdraw : ∀ d, InstrDraws (mk d) h (List.replicate d.toNat v) h) {fuel n : Nat} (hfuel : n ≤ fuel) :
    WordsDraw (chunkWords opc cap fuel n) h (List.replicate n v) h := by
  induction fuel generalizing n with
  | zero => obtain rfl : n = 0 := by omega
            exact .nil h
  | succ fuel ih =>
    rw [chunkWords]
    split
    case isTrue h0 => subst h0; exact .nil h
    case isFalse h0 =>
      have hmin : min cap n < 4096 := by omega
      have hchunk := WordsDraw.instr (hdraw (BitVec.ofNat 12 (min cap n)))
      rw [henc, pack_ofNat opc hmin, ofNat12_toNat hmin] at hchunk
      have hrun : List.replicate n v = List.replicate (min cap n) v ++ List.replicate (n - cap) v := by
        rw [List.replicate_append_replicate]
        congr 1
        omega
      rw [hrun]
      exact hchunk.append (ih (by omega))

theorem zerosWords_draw (h : Pixel) (n : Nat) : WordsDraw (zerosWords n) h (List.replicate n 0) h :=
  chunkWords_draw (by decide) (by decide) (fun _ => rfl) (fun d => .zn d h) (Nat.le_refl n)

theorem highsWords_draw (h : Pixel) (n : Nat) : WordsDraw (highsWords n) h (List.replicate n h) h :=
  chunkWords_draw (by decide) (by decide) (fun _ => rfl) (fun d => .hn d h) (Nat.le_refl n)

/-- The chunks of a zero run whose last is a PN draw the run and one pixel more (R75, R83). -/
theorem zerosHigh_draw (h : Pixel) {fuel n : Nat} (hn : 0 < n) (hfuel : n ≤ fuel) :
    WordsDraw ((chunkWords 0 znCap fuel n).dropLast ++ [pack 5 (lastZeros n + 1)]) h
      (List.replicate n 0 ++ [h]) h := by
  induction fuel generalizing n with
  | zero => omega
  | succ fuel ih =>
    rw [chunkWords, if_neg hn.ne']
    by_cases hle : n ≤ znCap
    · have hnil : chunkWords 0 znCap fuel (n - znCap) = [] := by
        rw [Nat.sub_eq_zero_of_le hle]
        cases fuel <;> simp [chunkWords]
      have hlast : lastZeros n = n := by unfold lastZeros znCap at *; omega
      have hlt : n + 1 < 4096 := by unfold znCap at hle; omega
      have hone := WordsDraw.instr (InstrDraws.pn (BitVec.ofNat 12 (n + 1)) h (by rw [ofNat12_toNat hlt]; omega))
      rw [encode, pack_ofNat 5 hlt, ofNat12_toNat hlt] at hone
      rw [hnil, hlast]
      exact hone
    · have hcap : znCap < 4096 := by decide
      have hcap0 : 0 < znCap := by decide
      have hmin : min znCap n = znCap := by omega
      have hne : chunkWords 0 znCap fuel (n - znCap) ≠ [] :=
        List.ne_nil_of_length_pos (chunkWords_length_pos 0 znCap (by omega) (by omega))
      have hlast : lastZeros n = lastZeros (n - znCap) := by unfold lastZeros znCap at *; omega
      have hchunk := WordsDraw.instr (InstrDraws.zn (BitVec.ofNat 12 znCap) h)
      rw [encode, pack_ofNat 0 hcap, ofNat12_toNat hcap] at hchunk
      have hrun : List.replicate n (0 : Pixel) ++ [h] =
          List.replicate znCap 0 ++ (List.replicate (n - znCap) 0 ++ [h]) := by
        rw [← List.append_assoc, List.replicate_append_replicate, Nat.add_sub_cancel' (by omega)]
      rw [List.dropLast_cons_of_ne_nil hne, hlast, hmin, hrun]
      exact hchunk.append (ih (by omega) (by omega))

/-- The words of a change of the high value make it (R75, R82). -/
theorem levelWords_draw {h pv : Pixel} {ws : List Word16} (hpv : 0 ≤ pv.toInt)
    (hws : levelWords h.toInt pv.toNat = some ws) : WordsDraw ws h [] pv := by
  have hp := toInt_of_nonneg hpv
  simp only [levelWords] at hws
  split_ifs at hws with h0 hbig hmax hup <;> cases hws
  · obtain rfl : pv = h := BitVec.eq_of_toInt_eq (by omega)
    exact .nil pv
  · have hvalue := shValue_setHighWords (Nat.not_lt.1 hmax)
    have hd := WordsDraw.instr (InstrDraws.sh (BitVec.ofNat 12 (pv.toNat % shWeight))
      (bits16 (pv.toNat / shWeight : Nat)) h pv (by rw [hvalue, hp]))
    have hlow : pv.toNat % shWeight < 4096 := Nat.mod_lt _ (by decide)
    rwa [encode, pack_ofNat 1 hlow] at hd
  all_goals
    have hlt : ((pv.toNat : Int) - h.toInt).natAbs < 4096 := by unfold deltaMax at hbig; omega
  · have hd := WordsDraw.instr (InstrDraws.ih (BitVec.ofNat 12 ((pv.toNat : Int) - h.toInt).natAbs) h pv
      (by rw [ofNat12_toNat hlt]; omega))
    rwa [encode, pack_ofNat 2 hlt] at hd
  · have hd := WordsDraw.instr (InstrDraws.dh (BitVec.ofNat 12 ((pv.toNat : Int) - h.toInt).natAbs) h pv
      (by rw [ofNat12_toNat hlt]; omega))
    rwa [encode, pack_ofNat 3 hlt] at hd

/-- IS or DS makes the change and stores one pixel. -/
theorem fusedWord_draw {h pv : Pixel} (hpv : 0 ≤ pv.toInt)
    (hle : ((pv.toNat : Int) - h.toInt).natAbs ≤ deltaMax) :
    WordsDraw [fusedWord (pv.toNat - h.toInt)] h [pv] pv := by
  have hp := toInt_of_nonneg hpv
  have hlt : ((pv.toNat : Int) - h.toInt).natAbs < 4096 := by unfold deltaMax at hle; omega
  unfold fusedWord
  split
  · have hd := WordsDraw.instr (InstrDraws.is (BitVec.ofNat 12 ((pv.toNat : Int) - h.toInt).natAbs) h pv
      (by rw [ofNat12_toNat hlt]; omega))
    rwa [encode, pack_ofNat 6 hlt] at hd
  · have hd := WordsDraw.instr (InstrDraws.ds (BitVec.ofNat 12 ((pv.toNat : Int) - h.toInt).natAbs) h pv
      (by rw [ofNat12_toNat hlt]; omega))
    rwa [encode, pack_ofNat 7 hlt] at hd

theorem restWords_draw {pv h : Pixel} {np nz : Nat} (hpv : np ≠ 0 → h = pv) :
    WordsDraw (restWords pv.toNat np nz) h (List.replicate nz 0 ++ List.replicate np pv) h := by
  have hhighs : WordsDraw (highsWords np) h (List.replicate np pv) h := by
    by_cases hnp : np = 0
    · subst hnp; exact .nil h
    · rw [← hpv hnp]; exact highsWords_draw h np
  unfold restWords
  split
  case isTrue h0 => subst h0; exact hhighs
  case isFalse h0 =>
    split
    case isTrue hone =>
      obtain ⟨rfl, _⟩ := hone
      rw [← hpv (by decide)]
      exact zerosHigh_draw h (by omega) (Nat.le_refl nz)
    case isFalse => exact (zerosWords_draw h nz).append hhighs

/-- The words of a segment draw its zeros and then its pixels, and leave the high value at theirs (R75). -/
theorem segmentWords_draw {h pv : Pixel} {np nz : Nat} {ws : List Word16} (hpv : 0 ≤ pv.toInt)
    (hzero : np = 0 ↔ pv = 0) (hws : segmentWords h.toInt pv.toNat np nz = some ws) :
    WordsDraw ws h (List.replicate nz 0 ++ List.replicate np pv) (if pv = 0 then h else pv) := by
  by_cases hp : pv = 0
  · obtain rfl := hzero.2 hp
    rw [if_pos hp]
    have hrest := restWords_draw (pv := pv) (h := h) (nz := nz) (np := 0) (fun h0 => absurd rfl h0)
    subst hp
    change segmentWords h.toInt 0 0 nz = some ws at hws
    rw [segmentWords_zero] at hws
    cases hws
    exact hrest
  · have hpn : pv.toNat ≠ 0 := fun h0 => hp (BitVec.eq_of_toNat_eq h0)
    rw [if_neg hp]
    by_cases htake : levelTakesPixel h.toInt pv.toNat np nz
    · rw [segmentWords_of_taken hpn htake] at hws
      obtain ⟨⟨rfl, rfl⟩, _, hle⟩ := htake
      cases hws
      exact fusedWord_draw hpv hle
    · rw [segmentWords_of_not_taken hpn htake] at hws
      obtain ⟨l, hl, rfl⟩ := Option.map_eq_some_iff.1 hws
      exact (levelWords_draw hpv hl).append (restWords_draw fun _ => rfl)

end Sys2Proof.Machine
end

section
/-! An encode command from GO to its end (R78 to R87): after each scan step the words in LM draw the pixels of the
segments already flushed, and the run not yet flushed is known. -/

namespace Sys2Proof.Machine

/-! ### Rows of pixels -/

/-- The `n` clamped pixels of ENC's source from index `i` on (R77). -/
def clampedRow (a : Args) (pm : Memory) (i n : Nat) : List Pixel :=
  (List.range n).map fun j => clampedPixel a pm (i + j)

theorem clampedRow_add (a : Args) (pm : Memory) (i m n : Nat) :
    clampedRow a pm i (m + n) = clampedRow a pm i m ++ clampedRow a pm (i + m) n := by
  simp [clampedRow, List.range_add, Nat.add_assoc]

theorem clampedRow_const {a : Args} {pm : Memory} {i n : Nat} {v : Pixel}
    (h : ∀ j, j < n → clampedPixel a pm (i + j) = v) : clampedRow a pm i n = List.replicate n v := by
  refine List.eq_replicate_iff.2 ⟨by simp [clampedRow], fun p hp => ?_⟩
  obtain ⟨j, hj, rfl⟩ := List.mem_map.1 hp
  exact h j (List.mem_range.1 hj)

theorem clampedRow_length (a : Args) (pm : Memory) (i n : Nat) : (clampedRow a pm i n).length = n := by
  simp [clampedRow]

/-! ### Words that stand in LM -/

/-- The words `ws` stand in LM from address `x` on. -/
def WordsStand (lm : Memory) (x : Nat) (ws : List Word16) : Prop :=
  ∀ j v, ws[j]? = some v → lmRead lm (x + j) = v

theorem WordsStand.nil (lm : Memory) (x : Nat) : WordsStand lm x [] := fun j v h => by simp at h

theorem WordsStand.congr {lm lm' : Memory} {x : Nat} {ws : List Word16} (h : WordsStand lm x ws)
    (hsame : ∀ j, j < ws.length → lmRead lm' (x + j) = lmRead lm (x + j)) : WordsStand lm' x ws := by
  intro j v hj
  rw [hsame j (List.getElem?_eq_some_iff.1 hj).1, h j v hj]

theorem WordsStand.append {lm : Memory} {x : Nat} {ws ws' : List Word16} (h : WordsStand lm x ws)
    (h' : WordsStand lm (x + ws.length) ws') : WordsStand lm x (ws ++ ws') := by
  intro j v hj
  by_cases hlt : j < ws.length
  · rw [List.getElem?_append_left hlt] at hj
    exact h j v hj
  · rw [List.getElem?_append_right (by omega)] at hj
    have := h' (j - ws.length) v hj
    rwa [show x + ws.length + (j - ws.length) = x + j by omega] at this

/-- Words written after those that stand leave them, and stand themselves. -/
theorem WordsStand.append_written {a : Args} {lm lm' : Memory} {e op : Nat} {ws ws' : List Word16}
    (h : WordsStand lm (a.dstBase.toNat + e) ws) (hop : op = e + ws.length)
    (hw : WordsWritten a op ws' lm lm') : WordsStand lm' (a.dstBase.toNat + e) (ws ++ ws') := by
  obtain ⟨hnew, hframe⟩ := hw
  refine (h.congr fun j hj => hframe _ (by omega)).append fun j v hj => ?_
  rw [← hnew j v hj, hop]
  congr 1
  omega

/-! ### The trace of an encode -/

/-- What is known of the run that is not yet flushed: zeros from E.iz, pixels of value E.pv from E.x1 to E.ip;
nothing is left of it past the last pixel (R79). -/
def PendingRun (a : Args) (pm : Memory) (w : EncWork) : Prop :=
  (w.ip.toNat ≤ w.xe.toNat →
    (∀ i, w.iz.toNat ≤ i → i < w.x1.toNat → clampedPixel a pm i = 0) ∧
      ∀ i, w.x1.toNat ≤ i → i ≤ w.ip.toNat → clampedPixel a pm i = w.pv) ∧
    (w.xe.toNat < w.ip.toNat → w.iz.toNat = w.xe.toNat + 1)

/-- The state of an encode command between two scan steps: the words after the header draw the pixels before
E.iz. -/
structure EncTrace (a : Args) (s₀ s : State) (w : EncWork) : Prop where
  running : s.enc.phase = .running a w
  ok : w.Ok a s.pmWords s.lmWords
  pm_same : s.pm = s₀.pm
  header : lmRead s.lm (a.dstBase.toNat + 1) = 7 ∧ lmRead s.lm (a.dstBase.toNat + 2) = 0xFF9C
  body : ∃ ws, WordsStand s.lm (a.dstBase.toNat + headerLen) ws ∧ w.op.toNat = headerLen + ws.length ∧
    WordsDraw ws initialHigh (clampedRow a s₀.pm a.start.toNat (w.iz.toNat - a.start.toNat)) w.hi
  pending : PendingRun a s₀.pm w

/-- What ends an encode early: a fault, and no DST_BOUNDS where the destination holds three words a pixel (R86,
R127). -/
def EncodeFaulted (a : Args) (s : State) : Prop :=
  ∃ c, s.enc.phase = .faulted c ∧ (3 * a.count.toNat + 7 ≤ a.dstLen.toNat → c ≠ .dstBounds)

/-- The start step of a nonzero count faults, or the trace begins at the first pixel. -/
theorem encStart_trace {s : State} {a : Args} (hcount : a.count ≠ 0) :
    EncodeFaulted a (encStart a s) ∨
      ∃ w, EncTrace a s (encStart a s) w ∧ w.ip.toNat = a.start.toNat := by
  by_cases hmap : a.mapped s.pmWords s.lmWords = true
  case neg =>
    rw [encStart_of_not_mapped hcount (by simpa using hmap)]
    exact .inl ⟨_, rfl, fun _ => nofun⟩
  by_cases hsrc : a.start.toNat + a.count.toNat ≤ a.srcLen.toNat
  case neg =>
    rw [encStart, if_neg hcount, if_neg (by simp [hmap]), if_pos (by omega)]
    exact .inl ⟨_, rfl, fun _ => nofun⟩
  by_cases hdst : headerLen ≤ a.dstLen.toNat
  case neg =>
    rw [encStart, if_neg hcount, if_neg (by simp [hmap]), if_neg (by omega), if_pos (by omega)]
    exact .inl ⟨_, rfl, fun hbig => by unfold headerLen at hdst; omega⟩
  obtain ⟨_, h1, h2, _⟩ := lmRead_writeStartHeader a s.lm
  have hok := EncWork.initial_ok hmap hcount hsrc hdst (clampedPixel_nonneg a s.pm a.start.toNat)
  have hstart : (BitVec.ofNat 33 a.start.toNat).toNat = a.start.toNat := by
    rw [BitVec.toNat_ofNat]
    exact Nat.mod_eq_of_lt (by have := a.start.isLt; omega)
  rw [encStart_goes_on hcount hmap hsrc hdst]
  refine .inr ⟨_, ⟨rfl, hok, rfl, ⟨h1, h2⟩, ⟨[], .nil _ _, rfl, ?_⟩, fun hip => ⟨?_, ?_⟩, ?_⟩, hstart⟩
  · change WordsDraw [] initialHigh
      (clampedRow a s.pm a.start.toNat ((BitVec.ofNat 33 a.start.toNat).toNat - a.start.toNat)) initialHigh
    rw [hstart, Nat.sub_self]
    exact .nil _
  · exact fun i hiz hx1 => absurd (hiz.trans_lt hx1) (Nat.lt_irrefl _)
  · intro i hx1 hi
    obtain rfl : i = a.start.toNat := by rw [← hstart]; exact Nat.le_antisymm hi hx1
    rfl
  · intro hip
    have := hok.ip_le
    have hxe := hok.xe_eq
    have hpos := hok.count_pos
    change (BitVec.ofNat 33 _).toNat < (BitVec.ofNat 33 a.start.toNat).toNat at hip
    change (BitVec.ofNat 33 _).toNat + 1 = _ at hxe
    omega

/-- The pixels of a segment that ends are its zeros and then its pixels of value E.pv. -/
theorem SegmentEnd.row {a : Args} {pm : Memory} {w w₁ : EncWork} {pmWords lmWords : Nat}
    (hend : SegmentEnd a pm w w₁) (hok : w.Ok a pmWords lmWords) (hpending : PendingRun a pm w) :
    clampedRow a pm w.iz.toNat (w.ip.toNat + 1 - w.iz.toNat) =
      List.replicate w₁.zeroCount 0 ++ List.replicate w₁.pixelCount w₁.pv := by
  obtain ⟨hnz, hnp, _, _⟩ := hend.counts hok
  have hiz₁ : w₁.iz = w.iz := by rw [hend.same]
  have hip₁ : w₁.ip = w.ip := by rw [hend.same]
  rw [hip₁] at hnp
  rw [hiz₁] at hnz
  have hscan : w.ip.toNat ≤ w.xe.toNat := by cases hend <;> omega
  obtain ⟨hzeros, hrun⟩ := hpending.1 hscan
  have hiz := hok.iz_le_x1
  rw [show w.ip.toNat + 1 - w.iz.toNat = w₁.zeroCount + w₁.pixelCount by omega, clampedRow_add]
  congr 1
  · refine clampedRow_const fun j hj => ?_
    by_cases hlt : w.iz.toNat + j < w.x1.toNat
    · exact hzeros _ (by omega) hlt
    · cases hend with
      | changed => simp only at hnz; omega
      | lastRun => omega
      | lastZeros hip hpv =>
        rw [hrun _ (by omega) (by omega), hpv]
  · refine clampedRow_const fun j hj => ?_
    cases hend with
    | changed => simp only at hnz; exact hrun _ (by omega) (by simp only at hnp; omega)
    | lastRun => exact hrun _ (by omega) (by omega)
    | lastZeros hip hpv => simp only [EncWork.pixelCount, hok.succ_toNat (Nat.le_refl _)] at hj; omega

section
variable {a : Args} {pm : Memory} {w : EncWork} {pmWords lmWords : Nat} (hok : w.Ok a pmWords lmWords)
include hok

/-- The next pixel continues the run. -/
theorem PendingRun.continues (h : PendingRun a pm w) (hip : w.ip.toNat < w.xe.toNat)
    (hq : clampedPixel a pm (w.ip.toNat + 1) = w.pv) (q : Pixel) :
    PendingRun a pm { w with nv := q, ip := w.ip + 1 } := by
  obtain ⟨hzeros, hpixels⟩ := h.1 hip.le
  have hsucc := hok.succ_toNat hip.le
  refine ⟨fun _ => ⟨hzeros, fun i hxi hi => ?_⟩, fun hpast => ?_⟩
  · simp only [hsucc] at hi
    by_cases hlast : i = w.ip.toNat + 1
    · rw [hlast]; exact hq
    · exact hpixels i hxi (by omega)
  · simp only [hsucc] at hpast
    omega

/-- The next pixel starts the nonzero run: the run so far is the zeros before it. -/
theorem PendingRun.starts (h : PendingRun a pm w) (hip : w.ip.toNat < w.xe.toNat) (hpv : w.pv = 0)
    {q : Pixel} (hq : clampedPixel a pm (w.ip.toNat + 1) = q) :
    PendingRun a pm { w with nv := q, pv := q, x1 := w.ip + 1, ip := w.ip + 1 } := by
  obtain ⟨_, hpixels⟩ := h.1 hip.le
  have hsucc := hok.succ_toNat hip.le
  have hzx := congrArg BitVec.toNat (hok.zero_run hpv)
  refine ⟨fun _ => ⟨fun i hi hlt => ?_, fun i hxi hi => ?_⟩, fun hpast => ?_⟩
  · simp only [hsucc] at hlt
    rw [hpixels i (by rw [hzx]; exact hi) (by omega), hpv]
  · simp only [hsucc] at hxi hi
    rw [show i = w.ip.toNat + 1 by omega, hq]
  · simp only [hsucc] at hpast
    omega

/-- After a flush the next pixel alone is pending, or no pixel is left. -/
theorem SegmentEnd.pendingRun_flushed {w₁ : EncWork} (hend : SegmentEnd a pm w w₁)
    (hscan : w.ip.toNat ≤ w.xe.toNat) (op : BitVec 32) :
    PendingRun a pm { w₁.flushed w.ip with op := op, ip := w.ip + 1 } := by
  have hsucc := hok.succ_toNat hscan
  have hxe : w₁.xe = w.xe := by rw [hend.same]
  refine ⟨fun hscan' => ⟨fun i hi hlt => ?_, fun i hxi hi => ?_⟩, fun hpast => ?_⟩
  · simp only [EncWork.flushed] at hi hlt
    omega
  · simp only [EncWork.flushed, hsucc] at hxi hi hscan' ⊢
    obtain rfl : i = w.ip.toNat + 1 := by omega
    cases hend with
    | changed => rfl
    | lastRun hip => omega
    | lastZeros hip => simp only at hscan'; omega
  · simp only [EncWork.flushed, hsucc, hxe] at hpast ⊢
    omega

/-- A segment's words end within three words a pixel (R86). -/
theorem SegmentEnd.words_end_le {w₁ : EncWork} {ws : List Word16} (hend : SegmentEnd a pm w w₁)
    (hws : w₁.words = some ws) (hscan : w.ip.toNat ≤ w.xe.toNat) :
    w.op.toNat + ws.length ≤ 3 * a.count.toNat + 7 := by
  have hxe := hok.xe_eq
  have hstart := hok.start_le_iz
  have hbound := hok.op_bound
  obtain ⟨hnz, hnp, hzero, _⟩ := hend.counts hok
  have hzero' : w₁.pixelCount = 0 ↔ w₁.pv.toNat = 0 := by
    rw [hzero]
    exact ⟨fun h => by rw [h]; rfl, fun h => BitVec.eq_of_toNat_eq h⟩
  obtain ⟨hlen, _⟩ := segmentWords_length hzero' hws
  rw [show w₁.ip = w.ip by rw [hend.same]] at hnp
  rw [show w₁.iz = w.iz by rw [hend.same]] at hnz
  unfold headerLen at hbound
  omega

end

/-- One scan step faults, or the trace goes on with the next index. -/
theorem EncTrace.scan {a : Args} {s₀ s : State} {w : EncWork} (h : EncTrace a s₀ s w)
    (hscan : w.ip.toNat ≤ w.xe.toNat) :
    EncodeFaulted a (encStep s) ∨
      ∃ w', EncTrace a s₀ (encStep s) w' ∧ w'.ip.toNat = w.ip.toNat + 1 := by
  obtain ⟨hrun, hok, hpm, hheader, ⟨ws₀, hstand, hop₀, hdraw⟩, hpending⟩ := h
  have hmove := encScan_scanMove hok hscan
  have hsucc := hok.succ_toNat hscan
  rw [encStep_of_scanning hrun hscan]
  generalize hs' : encScan a w s = s' at hmove
  have hkeeps := hmove.keeps_ok hok hscan
  cases hmove with
  | valueRange info => exact .inl ⟨_, rfl, fun _ => nofun⟩
  | overflows w₁ ws lm' info hend hws hfull =>
    refine .inl ⟨_, rfl, fun hbig => ?_⟩
    have hle := hend.words_end_le hok hws hscan
    omega
  | continues hip hq =>
    obtain ⟨c, hc⟩ | ⟨w', hw', hok', _⟩ := hkeeps
    · cases hc
    cases hw'
    rw [hpm] at hq
    exact .inr ⟨_, ⟨rfl, hok', hpm, hheader, ⟨ws₀, hstand, hop₀, hdraw⟩,
      hpending.continues hok hip hq _⟩, hsucc⟩
  | starts hip hq hpv =>
    obtain ⟨c, hc⟩ | ⟨w', hw', hok', _⟩ := hkeeps
    · cases hc
    cases hw'
    exact .inr ⟨_, ⟨rfl, hok', hpm, hheader, ⟨ws₀, hstand, hop₀, hdraw⟩,
      hpending.starts hok hip hpv (by rw [hpm])⟩, hsucc⟩
  | flushes w₁ ws lm' hend hws hfits hwritten =>
    obtain ⟨c, hc⟩ | ⟨w', hw', hok', _⟩ := hkeeps
    · cases hc
    cases hw'
    obtain ⟨_, _, hzero, _⟩ := hend.counts hok
    have hhi : w₁.hi = w.hi := by rw [hend.same]
    have hpv : w₁.pv = w.pv := by rw [hend.same]
    rw [hpm] at hend
    have hrow := hend.row hok hpending
    have hseg := segmentWords_draw (h := w₁.hi) (pv := w₁.pv) (by rw [hpv]; exact hok.pv_nonneg) hzero hws
    refine .inr ⟨_, ⟨rfl, hok', hpm, ⟨?_, ?_⟩, ⟨ws₀ ++ ws, hstand.append_written hop₀ hwritten, ?_, ?_⟩,
      hend.pendingRun_flushed hok hscan _⟩, hsucc⟩
    · rw [encGoOn_lm, hwritten.2 _ (by unfold headerLen at hop₀; omega)]
      exact hheader.1
    · rw [encGoOn_lm, hwritten.2 _ (by unfold headerLen at hop₀; omega)]
      exact hheader.2
    · rw [List.length_append]
      simp only [op_add_toNat hfits]
      omega
    · have hiz := hok.iz_le_x1
      have hx1 := hok.x1_le_ip
      have hstart := hok.start_le_iz
      simp only [EncWork.flushed, hsucc]
      rw [show w.ip.toNat + 1 - a.start.toNat =
        (w.iz.toNat - a.start.toNat) + (w.ip.toNat + 1 - w.iz.toNat) by omega, clampedRow_add,
        Nat.add_sub_cancel' hstart, hrow]
      rw [← hhi] at hdraw
      exact hdraw.append hseg

/-! ### Whole encodes -/

theorem encSteps_add (m n : Nat) (s : State) : encSteps (m + n) s = encSteps n (encSteps m s) := by
  induction m generalizing s with
  | zero => rw [Nat.zero_add]; rfl
  | succ m ih => rw [Nat.succ_add, encSteps, encSteps, ih]

theorem encSteps_succ (n : Nat) (s : State) : encSteps (n + 1) s = encStep (encSteps n s) := encSteps_add n 1 s

theorem encSteps_of_not_busy (n : Nat) {s : State} (h : s.enc.phase.busy = false) : encSteps n s = s := by
  induction n with
  | zero => rfl
  | succ n ih => rw [encSteps, encStep_of_not_busy h, ih]

theorem EncodeFaulted.not_busy {a : Args} {s : State} (h : EncodeFaulted a s) : s.enc.phase.busy = false := by
  obtain ⟨c, hc, _⟩ := h
  rw [hc]
  rfl

section
variable {s : State} {a : Args} (hacc : s.enc.phase = .accepted a) (hcount : a.count ≠ 0)
include hacc hcount

/-- After the start step and `m` scan steps. -/
theorem encSteps_trace {m : Nat} (hm : m ≤ a.count.toNat) :
    EncodeFaulted a (encSteps (m + 1) s) ∨
      ∃ w, EncTrace a s (encSteps (m + 1) s) w ∧ w.ip.toNat = a.start.toNat + m := by
  induction m with
  | zero =>
    rw [encSteps_succ, encSteps, encStep_of_accepted hacc]
    exact encStart_trace hcount
  | succ m ih =>
    rw [encSteps_succ]
    rcases ih (by omega) with hfault | ⟨w, htrace, hip⟩
    · rw [encStep_of_not_busy hfault.not_busy]
      exact .inl hfault
    · have hxe := htrace.ok.xe_eq
      exact (htrace.scan (by omega)).imp_right fun ⟨w', htrace', hip'⟩ => ⟨w', htrace', by omega⟩

/-- How an encode ends: on a fault, or by the finish step after the last flush (R85). -/
theorem encode_outcome :
    EncodeFaulted a (encSteps (a.count.toNat + 2) s) ∨
      ∃ w, EncTrace a s (encSteps (a.count.toNat + 1) s) w ∧ w.iz.toNat = a.start.toNat + a.count.toNat ∧
        w.op.toNat ≤ maxLen ∧
        encSteps (a.count.toNat + 2) s =
          completeCommand .enc w.op
            { encSteps (a.count.toNat + 1) s with
              lm := writeLength a w.op.toNat (encSteps (a.count.toNat + 1) s).lm } := by
  rw [encSteps_succ (a.count.toNat + 1)]
  rcases encSteps_trace hacc hcount (Nat.le_refl _) with hfault | ⟨w, htrace, hip⟩
  · rw [encStep_of_not_busy hfault.not_busy]
    exact .inl hfault
  · have hxe := htrace.ok.xe_eq
    have hiz := htrace.pending.2 (by omega)
    rw [encStep_of_scanned htrace.running (by omega)]
    by_cases hlen : w.op.toNat ≤ maxLen
    · exact .inr ⟨w, htrace, by omega, hlen, encFinish_of_le_maxLen _ hlen htrace.ok.header_fits⟩
    · rw [encFinish_of_maxLen_lt _ (Nat.lt_of_not_le hlen)]
      exact .inl ⟨_, rfl, fun _ => nofun⟩

end

/-- Settles O35: a command that has ended before its finish step has ended on a fault. -/
theorem encodeTakesCountPlusTwoSteps : Obligations.EncodeTakesCountPlusTwoSteps := by
  intro s a hacc hcount
  refine ⟨?ended, fun hdone m hm => ?busy⟩
  case ended =>
    rcases encode_outcome hacc hcount with hfault | ⟨w, _, _, _, hend⟩
    · exact hfault.not_busy
    · rw [hend]; rfl
  case busy =>
    cases m with
    | zero => rw [encSteps, hacc]; rfl
    | succ m =>
      rcases encSteps_trace hacc hcount (m := m) (by omega) with hfault | ⟨w, htrace, _⟩
      · rw [show a.count.toNat + 2 = (m + 1) + (a.count.toNat + 1 - m) by omega, encSteps_add,
          encSteps_of_not_busy _ hfault.not_busy] at hdone
        obtain ⟨c, hc, _⟩ := hfault
        rw [hc] at hdone
        cases hdone
      · rw [htrace.running]; rfl

/-- Settles O36: three words a pixel at most, and the last segment has a word. -/
theorem encodedLengthIsBounded : Obligations.EncodedLengthIsBounded := by
  intro s a hacc hcount hdone
  rcases encode_outcome hacc hcount with ⟨c, hc, _⟩ | ⟨w, htrace, hiz, _, hend⟩
  · rw [hc] at hdone; cases hdone
  · obtain ⟨_, hok, _, _, ⟨ws, _, hop, hdraw⟩, _⟩ := htrace
    have hpos := hdraw.length_pos (by rw [clampedRow_length]; have := hok.count_pos; omega)
    have hbound := hok.op_bound
    rw [hend]
    change 8 ≤ w.op.toNat ∧ w.op.toNat ≤ _
    unfold headerLen at hbound hop
    omega

/-- Settles O37. -/
theorem worstCaseBufferNeverOverflows : Obligations.WorstCaseBufferNeverOverflows := by
  intro s a hacc hbig m hfault
  by_cases hcount : a.count = 0
  · cases m with
    | zero => rw [encSteps, hacc] at hfault; cases hfault
    | succ m =>
      rw [encSteps, encStep_of_accepted hacc, encStart, if_pos hcount, encSteps_of_not_busy _ rfl] at hfault
      cases hfault
  · have hout : ∀ t, EncodeFaulted a t → t.enc.phase ≠ .faulted .dstBounds := by
      rintro t ⟨c, hc, hne⟩ h
      rw [hc] at h
      cases h
      exact hne hbig rfl
    by_cases hm : m ≤ a.count.toNat + 1
    · cases m with
      | zero => rw [encSteps, hacc] at hfault; cases hfault
      | succ m =>
        rcases encSteps_trace hacc hcount (m := m) (by omega) with hf | ⟨w, htrace, _⟩
        · exact hout _ hf hfault
        · rw [htrace.running] at hfault; cases hfault
    · rw [show m = (a.count.toNat + 2) + (m - (a.count.toNat + 2)) by omega, encSteps_add,
        encSteps_of_not_busy _ (encodeTakesCountPlusTwoSteps s a hacc hcount).1] at hfault
      rcases encode_outcome hacc hcount with hf | ⟨w, _, _, _, hend⟩
      · exact hout _ hf hfault
      · rw [hend] at hfault; cases hfault

end Sys2Proof.Machine
end

section
/-! Round trip (R109): DEC draws from a line list what its instructions draw, so the row that ENC encoded. -/

namespace Sys2Proof.Machine

/-! ### One instruction that stands in the source -/

/-- The words a list of instructions has, taken apart. -/
theorem WordsStand.of_append {lm : Memory} {x : Nat} {ws ws' : List Word16} (h : WordsStand lm x (ws ++ ws')) :
    WordsStand lm x ws ∧ WordsStand lm (x + ws.length) ws' := by
  refine ⟨fun j v hj => h j v ?_, fun j v hj => ?_⟩
  · rw [List.getElem?_append_left (List.getElem?_eq_some_iff.1 hj).1, hj]
  · rw [Nat.add_assoc]
    exact h _ v (by rw [List.getElem?_append_right (by omega), Nat.add_sub_cancel_left, hj])

/-- A read of an element where a word stands. -/
theorem decSrcRead_of_stand {a : Args} {lm : Memory} {e : Int} {ws : List Word16} {j : Nat} {v : Word16}
    (he : 0 ≤ e) (hfits : e + ws.length ≤ a.srcLen.toNat)
    (hstand : WordsStand lm (a.srcBase.toNat + e.toNat) ws) (hj : ws[j]? = some v) :
    decSrcRead a lm (e + j) = some v := by
  have hlt := (List.getElem?_eq_some_iff.1 hj).1
  rw [show e + j = ((e.toNat + j : Nat) : Int) by omega, decSrcRead_of_lt _ _ _ (by omega),
    ← Nat.add_assoc, hstand j v hj]

/-- Reading an instruction's words gives the instruction (R66, R70). -/
theorem decodeWords_of_encode {i : Instr} {w0 : Word16} {rest : List Word16} (hwf : i.wellFormed = true)
    (henc : encode i = w0 :: rest) : (rest = [] ∧ ∀ w1, decodeWords w0 w1 = i) ∨
      ∃ w1, rest = [w1] ∧ decodeWords w0 w1 = i := by
  have hdec := encodedInstructionsDecodeBack i [] hwf
  have hlen := (encode_length_range i).2
  rw [List.append_nil, henc] at hdec
  rw [henc, List.length_cons] at hlen
  match rest with
  | [] =>
    rw [decode] at hdec
    split at hdec
    case isTrue => cases hdec
    case isFalse hone =>
      refine .inl ⟨rfl, fun w1 => ?_⟩
      rw [decodeWords_of_length_one hone w1 0]
      exact congrArg Prod.fst (Except.ok.inj hdec)
  | [w1] => exact .inr ⟨w1, rfl, congrArg Prod.fst (Except.ok.inj hdec)⟩
  | _ :: _ :: _ => simp at hlen

/-- The step of a running command whose loop has not ended, at an instruction in the source buffer. -/
theorem decStep_of_instr {t : State} {k : DecLatch} {w : DecWork} {i : Instr}
    (hrun : t.dec.phase = .running k w) (hloop : loopEnded w = false) (hwf : i.wellFormed = true)
    (hip : 0 ≤ w.ip.toInt) (hfits : w.ip.toInt + (encode i).length ≤ k.args.srcLen.toNat)
    (hstand : WordsStand t.lm (k.args.srcBase.toNat + w.ip.toInt.toNat) (encode i)) :
    decStep t = exec i t := by
  cases henc : encode i with
  | nil => have := (encode_length_range i).1; rw [henc] at this; cases this
  | cons w0 rest =>
    rw [henc] at hfits hstand
    have h0 : decSrcRead k.args t.lm w.ip.toInt = some w0 := by
      have := decSrcRead_of_stand (j := 0) hip hfits hstand rfl
      rwa [Int.natCast_zero, Int.add_zero] at this
    rw [decStep_of_fetched hrun hloop h0]
    rcases decodeWords_of_encode hwf henc with ⟨_, hdec⟩ | ⟨w1, rfl, hdec⟩
    · rw [hdec]
    · have h1 : decSrcRead k.args t.lm (w.ip.toInt + 1) = some w1 :=
        decSrcRead_of_stand (j := 1) hip hfits hstand rfl
      rw [h1, Option.getD_some, hdec]

/-! ### One instruction's pixels -/

/-- The pixels `px` stand in PM from address `x` on, and nothing below `x` is changed from `pm` to `pm'`. -/
def PixelsDrawn (pm pm' : Memory) (x : Nat) (px : List Pixel) : Prop :=
  (∀ j p, px[j]? = some p → pmRead pm' (x + j) = p) ∧ ∀ y, y < x → pmRead pm' y = pmRead pm y

theorem PixelsDrawn.nil (pm : Memory) (x : Nat) : PixelsDrawn pm pm x [] :=
  ⟨fun j p h => by simp at h, fun _ _ => rfl⟩

theorem PixelsDrawn.append {pm₁ pm₂ pm₃ : Memory} {x : Nat} {px px' : List Pixel}
    (h : PixelsDrawn pm₁ pm₂ x px) (h' : PixelsDrawn pm₂ pm₃ (x + px.length) px') :
    PixelsDrawn pm₁ pm₃ x (px ++ px') := by
  obtain ⟨hpx, hbelow⟩ := h
  obtain ⟨hpx', hbelow'⟩ := h'
  refine ⟨fun j p hj => ?_, fun y hy => by rw [hbelow' y (by omega), hbelow y hy]⟩
  by_cases hlt : j < px.length
  · rw [List.getElem?_append_left hlt] at hj
    rw [hbelow' _ (by omega), hpx j p hj]
  · rw [List.getElem?_append_right (by omega)] at hj
    have := hpx' (j - px.length) p hj
    rwa [show x + px.length + (j - px.length) = x + j by omega] at this

/-- A run in a window from position 0 draws its pixels from D.x1's word on. -/
theorem RunWritten.pixelsDrawn {a : Args} {w : DecWork} {d : BitVec 12} {f : Nat → Pixel} {pm pm' : Memory}
    (h : RunWritten a w d f pm pm') (hstart : a.start = 0) (hfits : w.x1 + d.toNat ≤ w.xe + 1) {px : List Pixel}
    (hlen : px.length = d.toNat) (hpx : ∀ j p, px[j]? = some p → f (w.x1 + j) = p) :
    PixelsDrawn pm pm' (a.dstBase.toNat + w.x1) px := by
  obtain ⟨hvalue, hframe⟩ := h
  have h0 : a.start.toNat = 0 := by rw [hstart]; rfl
  refine ⟨fun j p hj => ?_, fun y hy => hframe y fun p hp => ?_⟩
  · have hlt := (List.getElem?_eq_some_iff.1 hj).1
    have := hvalue (w.x1 + j) (by unfold runCovers; omega)
    rw [windowAddr, h0, Nat.sub_zero, hpx j p hj] at this
    rwa [Nat.add_assoc]
  · obtain ⟨hfirst, _⟩ := hp
    unfold windowAddr
    omega

/-- One pixel in a window from position 0 is drawn at D.x1's word. -/
theorem pixelsDrawn_singleton {a : Args} {pm pm' : Memory} {x1 : Nat} {v : Pixel} (hstart : a.start = 0)
    (hsame : pmRead pm' (windowAddr a x1) = v)
    (hframe : ∀ x, x ≠ windowAddr a x1 → pmRead pm' x = pmRead pm x) :
    PixelsDrawn pm pm' (a.dstBase.toNat + x1) [v] := by
  have haddr : windowAddr a x1 = a.dstBase.toNat + x1 := by rw [windowAddr, hstart]; rfl
  rw [haddr] at hsame hframe
  refine ⟨fun j p hj => ?_, fun y hy => hframe y (by omega)⟩
  obtain ⟨hj0, hp⟩ := List.getElem?_eq_some_iff.1 hj
  obtain rfl : j = 0 := by simpa using hj0
  rw [← hp]
  exact hsame

/-- What an instruction does in a window from position 0 that holds its pixels: it draws them. -/
theorem exec_draws {i : Instr} {h h' : Pixel} {px : List Pixel} (hi : InstrDraws i h px h') {t : State}
    {k : DecLatch} {w : DecWork} (hrun : t.dec.phase = .running k w) (hc : w.CursorOk k.args)
    (hstart : k.args.start = 0) (hhigh : w.high = h) (hx1 : w.x1 ≤ w.xe)
    (hfits : w.x1 + px.length ≤ w.xe + 1) (hip : 0 ≤ w.ip.toInt)
    (hlen : w.ip.toInt + (encode i).length ≤ w.L.toInt) (hL : w.L.toInt ≤ k.args.srcLen.toNat)
    (hstand : WordsStand t.lm (k.args.srcBase.toNat + w.ip.toInt.toNat) (encode i)) :
    ∃ w' pm', exec i t = .next (t.decGoOn k w' pm') ∧ w'.high = h' ∧ w'.x1 = w.x1 + px.length ∧
      PixelsDrawn t.pm pm' (k.args.dstBase.toNat + w.x1) px := by
  have hin : k.args.start.toNat ≤ w.x1 ∧ w.x1 ≤ w.xe := ⟨by rw [hstart]; exact Nat.zero_le _, hx1⟩
  subst hhigh
  have htop := BitVec.toInt_lt (x := h')
  have hbot := BitVec.le_toInt h'
  norm_num at htop hbot
  cases hi with
  | zn d _ =>
    obtain ⟨_, pm', hexec, hwritten⟩ := zeroRunWritesZeros t k w d hrun hc
    rw [List.length_replicate] at hfits ⊢
    refine ⟨_, pm', hexec, rfl, rfl, hwritten.pixelsDrawn hstart hfits (by simp) fun j p hj => ?_⟩
    exact (List.eq_of_mem_replicate (List.mem_of_getElem? hj)).symm
  | hn d _ =>
    obtain ⟨_, pm', hexec, hwritten⟩ := highRunWritesHighValue t k w d hrun hc
    rw [List.length_replicate] at hfits ⊢
    refine ⟨_, pm', hexec, rfl, rfl, hwritten.pixelsDrawn hstart hfits (by simp) fun j p hj => ?_⟩
    exact (List.eq_of_mem_replicate (List.mem_of_getElem? hj)).symm
  | pn d _ hd =>
    obtain ⟨_, pm', hexec, hwritten⟩ := zeroRunPlusOneEndsHigh t k w d hrun hc
    have hpxlen : (List.replicate (d.toNat - 1) (0 : Pixel) ++ [w.high]).length = d.toNat := by simp; omega
    rw [hpxlen] at hfits ⊢
    refine ⟨_, pm', hexec, rfl, rfl, hwritten.pixelsDrawn hstart hfits hpxlen fun j p hj => ?_⟩
    by_cases hlt : j < d.toNat - 1
    · rw [List.getElem?_append_left (by simpa using hlt)] at hj
      rw [if_neg (by omega)]
      exact (List.eq_of_mem_replicate (List.mem_of_getElem? hj)).symm
    · have hjlt := (List.getElem?_eq_some_iff.1 hj).1
      rw [hpxlen] at hjlt
      obtain rfl : j = d.toNat - 1 := by omega
      rw [List.getElem?_append_right (by simp)] at hj
      rw [if_pos (by omega)]
      simpa using hj
  | sh d w1 _ _ hh =>
    obtain ⟨_, hsh⟩ := setHighLoadsTheHighValue t k w d w1 hrun
    change w.ip.toInt + 2 ≤ _ at hlen
    rw [if_neg (fun hcut => by omega)] at hsh
    have h1 : decSrcRead k.args t.lm (w.ip.toInt + 1) = some w1 :=
      decSrcRead_of_stand (j := 1) hip (by change w.ip.toInt + 2 ≤ _; omega) hstand rfl
    obtain ⟨v, hv, hexec⟩ := hsh.2 h1
    have hval : shValue d w1 = w1.toInt * 4096 + d.toNat := rfl
    exact ⟨_, t.pm, hexec, BitVec.eq_of_toInt_eq (by rw [hv, hh, hval]), rfl, .nil _ _⟩
  | ih d _ _ hh =>
    obtain ⟨_, hih⟩ := incHighAddsExactly t k w d hrun
    rw [if_pos (by omega)] at hih
    obtain ⟨v, hv, hexec⟩ := hih
    exact ⟨_, t.pm, hexec, BitVec.eq_of_toInt_eq (by rw [hv, hh]), rfl, .nil _ _⟩
  | dh d _ _ hh =>
    obtain ⟨_, hdh⟩ := decHighSubtractsExactly t k w d hrun
    rw [if_pos (by omega)] at hdh
    obtain ⟨v, hv, hexec⟩ := hdh
    exact ⟨_, t.pm, hexec, BitVec.eq_of_toInt_eq (by rw [hv, hh]), rfl, .nil _ _⟩
  | is d _ _ hh =>
    obtain ⟨_, his⟩ := incStoreAddsAndStores t k w d hrun hc
    rw [if_pos (by omega)] at his
    obtain ⟨v, hv, his⟩ := his
    obtain rfl : v = h' := BitVec.eq_of_toInt_eq (by rw [hv, hh])
    rw [if_pos hin] at his
    obtain ⟨pm', hexec, hsame, hframe⟩ := his
    exact ⟨_, pm', hexec, rfl, rfl, pixelsDrawn_singleton hstart hsame hframe⟩
  | ds d _ _ hh =>
    obtain ⟨_, hds⟩ := decStoreSubtractsAndStores t k w d hrun hc
    rw [if_pos (by omega)] at hds
    obtain ⟨v, hv, hds⟩ := hds
    obtain rfl : v = h' := BitVec.eq_of_toInt_eq (by rw [hv, hh])
    rw [if_pos hin] at hds
    obtain ⟨pm', hexec, hsame, hframe⟩ := hds
    exact ⟨_, pm', hexec, rfl, rfl, pixelsDrawn_singleton hstart hsame hframe⟩

theorem InstrDraws.wellFormed {i : Instr} {h h' : Pixel} {px : List Pixel} (hi : InstrDraws i h px h') :
    i.wellFormed = true := by
  cases hi <;> rfl

/-! ### A whole line list -/

/-- The decode ends DONE with RESULT COUNT, with the pixels `px` drawn from PM address `x` on. -/
def DecodeDraws (k : DecLatch) (t : State) (x : Nat) (px : List Pixel) : Prop :=
  ∃ m t₂, decSteps m t = some t₂ ∧ t₂.dec.phase = .done ∧ t₂.dec.result = k.args.count ∧
    PixelsDrawn t.pm t₂.pm x px

/-- One step more, with its pixels first. -/
theorem DecodeDraws.step {k : DecLatch} {t t' : State} {x : Nat} {px px' : List Pixel}
    (hstep : decStep t = .next t') (hpx : PixelsDrawn t.pm t'.pm x px)
    (h : DecodeDraws k t' (x + px.length) px') : DecodeDraws k t x (px ++ px') := by
  obtain ⟨m, t₂, hsteps, hdone, hresult, hpx'⟩ := h
  refine ⟨m + 1, t₂, ?_, hdone, hresult, hpx.append hpx'⟩
  rw [decSteps, hstep]
  exact hsteps

/-- Past the window's last position the fill step writes nothing. -/
theorem decodeDraws_pastWindow {k : DecLatch} {t : State} {w : DecWork} {x : Nat}
    (hrun : t.dec.phase = .running k w) (hc : w.CursorOk k.args) (hstart : k.args.start = 0)
    (hx1 : w.x1 = k.args.count.toNat) : DecodeDraws k t x [] := by
  have h0 : k.args.start.toNat = 0 := by rw [hstart]; rfl
  obtain ⟨hcount, _, hxe, hop⟩ := id hc
  obtain ⟨pm', hstep, _, hframe⟩ := fillStepZeroesTheTail t k w hrun hc (.inr (by omega))
  refine ⟨1, _, by rw [decSteps, hstep]; rfl, rfl, rfl, fun j p hj => by simp at hj, fun y _ => ?_⟩
  exact hframe y fun j hj hlt => absurd hlt (by omega)

/-- DEC draws from a line list what its instructions draw. -/
theorem decode_draws {is : List Instr} {h h' : Pixel} {px : List Pixel} (hd : Draws is h px h')
    {k : DecLatch} (hstart : k.args.start = 0) {t : State} {w : DecWork} (hrun : t.dec.phase = .running k w)
    (hok : w.Ok k t.lmWords t.pmWords) (hhigh : w.high = h) (hip : 0 ≤ w.ip.toInt)
    (hlen : w.ip.toInt + (instrWords is).length = w.L.toInt) (hL : w.L.toInt ≤ k.args.srcLen.toNat)
    (hstand : WordsStand t.lm (k.args.srcBase.toNat + w.ip.toInt.toNat) (instrWords is))
    (hpx : w.x1 + px.length = k.args.count.toNat) :
    DecodeDraws k t (k.args.dstBase.toNat + w.x1) px := by
  induction hd generalizing t w with
  | nil _ => exact decodeDraws_pastWindow hrun hok.cursorOk hstart hpx
  | @cons i is _ h₁ _ px₁ px₂ hi _ ih =>
    have h0 : k.args.start.toNat = 0 := by rw [hstart]; rfl
    have hxe := hok.cursorOk.xe_eq
    rw [List.length_append] at hpx
    by_cases hend : w.xe < w.x1
    · have hnil : px₁ ++ px₂ = [] := List.eq_nil_of_length_eq_zero (by rw [List.length_append]; omega)
      rw [hnil]
      exact decodeDraws_pastWindow hrun hok.cursorOk hstart (by omega)
    rw [instrWords_cons] at hstand hlen
    obtain ⟨hhead, htail⟩ := hstand.of_append
    rw [List.length_append] at hlen
    obtain ⟨hlen1, hlen2⟩ := encode_length_range i
    have hloop : loopEnded w = false := (loopEnded_eq_false_iff w).2 ⟨by omega, by omega⟩
    obtain ⟨w', pm', hexec, hhigh', hx1', hdrawn⟩ := exec_draws hi hrun hok.cursorOk hstart hhigh (by omega)
      (by omega) hip (by omega) hL hhead
    have hstep : decStep t = .next (t.decGoOn k w' pm') :=
      (decStep_of_instr hrun hloop hi.wellFormed hip (by omega) hhead).trans hexec
    have hip' : w'.ip.toInt = w.ip.toInt + (encode i).length := by
      have hadv := instructionsAdvanceByTheirLength i t _ k k w w' hrun hexec rfl
      rw [hadv]
      exact ip_add_toInt hlen2 (by have := hok.len_le; omega)
    obtain hbusy | ⟨w'', hrun', hok', _, hL', _⟩ := decStep_keeps_ok hrun hok hstep
    · cases hbusy
    cases hrun'
    refine DecodeDraws.step hstep hdrawn ?_
    rw [Nat.add_assoc, ← hx1']
    refine ih rfl hok' hhigh' (by omega) (by rw [hip', hL']; omega) (by rw [hL']; exact hL) ?_ (by omega)
    rw [decGoOn_lm, hip', Int.toNat_add hip (by omega), Int.toNat_natCast, ← Nat.add_assoc]
    exact htail

/-! ### The line list that ENC wrote -/

/-- What the words of LM from address `x` on hold after an encode: a current header with the length `len`, and
after it words that draw the pixels `px` (R57, R62). -/
structure LineListStands (lm : Memory) (x len : Nat) (px : List Pixel) : Prop where
  headerLength : lmRead lm (x + 1) = 7
  version : lmRead lm (x + 2) = 0xFF9C
  lengthLo : lmRead lm (x + 3) = bits16 (len % 32768 : Nat)
  lengthHi : lmRead lm (x + 4) = bits16 (len / 32768 : Nat)
  length_le : len ≤ maxLen
  body : ∃ ws h, WordsStand lm (x + headerLen) ws ∧ len = headerLen + ws.length ∧ WordsDraw ws initialHigh px h

/-- A line list that is read the same stands elsewhere too. -/
theorem LineListStands.moved {lm lm' : Memory} {x x' len : Nat} {px : List Pixel}
    (h : LineListStands lm x len px) (hsame : ∀ i, i < len → lmRead lm' (x' + i) = lmRead lm (x + i))
    (hlen : headerLen ≤ len) : LineListStands lm' x' len px := by
  obtain ⟨h1, h2, h3, h4, hle, ws, hi, hstand, rfl, hdraw⟩ := h
  unfold headerLen at hlen hsame
  refine ⟨by rw [hsame 1 (by omega), h1], by rw [hsame 2 (by omega), h2], by rw [hsame 3 (by omega), h3],
    by rw [hsame 4 (by omega), h4], hle, ws, hi, fun j v hj => ?_, rfl, hdraw⟩
  have hlt := (List.getElem?_eq_some_iff.1 hj).1
  have := hstand j v hj
  unfold headerLen at this ⊢
  rw [Nat.add_assoc, hsame (7 + j) (by omega), ← Nat.add_assoc, this]

/-- An encode that completes leaves the line list of its row in LM. -/
theorem encode_writes_lineList {s : State} {a : Args} (hacc : s.enc.phase = .accepted a) (hcount : a.count ≠ 0)
    (hdone : (encSteps (a.count.toNat + 2) s).enc.phase = .done) :
    LineListStands (encSteps (a.count.toNat + 2) s).lm a.dstBase.toNat
      (encSteps (a.count.toNat + 2) s).enc.result.toNat (clampedRow a s.pm a.start.toNat a.count.toNat) := by
  rcases encode_outcome hacc hcount with ⟨c, hc, _⟩ | ⟨w, htrace, hiz, hle, hend⟩
  · rw [hc] at hdone; cases hdone
  obtain ⟨_, _, _, ⟨h1, h2⟩, ⟨ws, hstand, hop, hdraw⟩, _⟩ := htrace
  rw [hend]
  change LineListStands (writeLength a w.op.toNat _) _ w.op.toNat _
  rw [hiz, Nat.add_sub_cancel_left] at hdraw
  refine ⟨by rw [lmRead_writeLength_ne _ _ _ (by omega) (by omega), h1],
    by rw [lmRead_writeLength_ne _ _ _ (by omega) (by omega), h2], ?lo, ?hi, hle, ws, w.hi, ?body, hop, hdraw⟩
  case lo => rw [writeLength, lmRead_lmWrite_ne _ _ _ _ (by omega), lmRead_lmWrite_same]; rfl
  case hi => rw [writeLength, lmRead_lmWrite_same]; rfl
  case body =>
    refine hstand.congr fun j _ => lmRead_writeLength_ne _ _ _ ?_ ?_ <;> (unfold headerLen; omega)

/-- A decode accepted over a line list begins at its body, in either mode. -/
theorem decStep_of_lineList {t : State} {k : DecLatch} {len : Nat} {px : List Pixel}
    (hacc : t.dec.phase = .accepted k) (hcount : k.args.count ≠ 0)
    (hmap : k.args.mapped t.lmWords t.pmWords = true) (hlist : LineListStands t.lm k.args.srcBase.toNat len px)
    (hlen : headerLen ≤ len) (hsrc : len ≤ k.args.srcLen.toNat)
    (hdst : k.args.count.toNat ≤ k.args.dstLen.toNat) :
    decStep t = .next (t.decGoOn k
      { ip := 7, L := int32 len, xe := k.args.start.toNat + k.args.count.toNat - 1, x1 := 0, op := 0,
        high := 1 } t.pm) := by
  obtain ⟨h1, h2, h3, h4, hle, _⟩ := hlist
  obtain ⟨hlo, hhi, hsum⟩ := splitValuesReassemble.2 len hle
  unfold headerLen at hlen
  unfold sext16 at hlo hhi hsum
  have hversion : (lmRead t.lm (k.args.srcBase.toNat + 2)).toInt = -100 := by rw [h2]; decide
  have hheader : (lmRead t.lm (k.args.srcBase.toNat + 1)).toInt = 7 := by rw [h1]; decide
  cases hk : k.strict with
  | true =>
    rw [strictHeaderChecksInOrder t k _ _ _ _ hacc hk hcount hmap (by omega) hversion (by decide) hheader
      (congrArg BitVec.toInt h3) (congrArg BitVec.toInt h4), hsum, if_neg (by decide), if_neg (by decide),
      if_neg (by omega), if_neg (by omega), if_neg (by omega), if_neg (by omega), if_neg (by omega)]
  | false =>
    rw [currentHeaderStartsTheDecode t k _ _ _ hacc hk hcount hmap (by omega) (by omega) hheader
      (congrArg BitVec.toInt h3) (congrArg BitVec.toInt h4), hsum, if_neg (by omega), if_neg (by omega)]
    rfl

/-- Settles O39: the line list stands in DEC's source buffer, and DEC draws what its instructions draw. -/
theorem decodeOfEncodeIsTheClampedRow : Obligations.DecodeOfEncodeIsTheClampedRow := by
  rintro s s₁ t a k hacc hcount rfl hdone hacc' hsame hstart hcount' hsrc hdst hmap
  obtain ⟨hlen, _⟩ := encodedLengthIsBounded s a hacc hcount hdone
  have hlist := (encode_writes_lineList hacc hcount hdone).moved hsame (by unfold headerLen; omega)
  have hstep := decStep_of_lineList hacc' (by rwa [hcount']) hmap hlist (by unfold headerLen; omega) hsrc hdst
  obtain ⟨_, _, _, _, hle, ws, hi, hstand, hlength, is, rfl, hdraw⟩ := hlist
  have hok := decStep_keeps_decoderOk (s := t) (by rw [DecoderOk, hacc']; trivial) hstep
  have hL : (int32 (encSteps (a.count.toNat + 2) s).enc.result.toNat).toInt =
      (encSteps (a.count.toNat + 2) s).enc.result.toNat :=
    int32_toInt _ (by unfold maxLen at hle; omega)
  have hdecode := decode_draws hdraw hstart (t := t.decGoOn k _ t.pm) rfl hok rfl
    (by change (0 : Int) ≤ (7#32).toInt; decide)
    (by rw [hL, hlength]; rfl) (by rw [hL]; omega) hstand (by rw [clampedRow_length, hcount']; exact Nat.zero_add _)
  obtain ⟨m, t₂, hsteps, hdone₂, hresult, hpx, _⟩ := DecodeDraws.step hstep (.nil _ _) hdecode
  refine ⟨m, t₂, hsteps, hdone₂, by rw [hresult, hcount'], fun j hj => ?_⟩
  have hpixel : (clampedRow a s.pm a.start.toNat a.count.toNat)[j]? =
      some (clampedPixel a s.pm (a.start.toNat + j)) := by simp [clampedRow, hj]
  rw [hpx j _ hpixel, clampedPixel, clamp_toInt, Nat.add_assoc]

end Sys2Proof.Machine
end

section
/-! The invariants: each is kept by the host's moves and by the units' steps, so by every step of the machine. -/

namespace Sys2Proof.Machine

/-! ### The units' registers (R86, R106) -/

theorem decoderOk_afterChoice {s : State} (hok : DecoderOk s) : DecoderOk (afterChoice s) :=
  decoderOk_of_phase hok (by simp) (by simp) (.inl (by simp))

/-- Settles O54. -/
theorem stepKeepsDecoderRegisters : Obligations.StepKeepsDecoderRegisters := by
  refine step_keeps (fun s hok => decoderOk_afterChoice hok)
    (fun s s' hok h => (hostStep_move h).keeps_decoderOk hok) (fun s _ hok => ?encoder)
    fun s s' _ hok h => decStep_keeps_decoderOk hok h
  have hsame := encStep_same s
  exact decoderOk_of_phase hok (by rw [hsame]) (by rw [hsame]) (.inl (by rw [hsame]))

/-- What leaves ENC's phase and the sizes, or ends or begins a command, keeps ENC's registers in order. -/
theorem encoderOk_of_phase {s s' : State} (hok : EncoderOk s) (hpm : s'.pmLast = s.pmLast)
    (hlm : s'.lmLast = s.lmLast)
    (hphase : s'.enc.phase = s.enc.phase ∨ s'.enc.phase = .idle ∨ ∃ a, s'.enc.phase = .accepted a) :
    EncoderOk s' := by
  unfold EncoderOk at hok ⊢
  rcases hphase with h | h | ⟨a, h⟩ <;> rw [h]
  · rwa [State.pmWords, State.lmWords, hpm, hlm]
  · trivial
  · trivial

theorem encoderOk_of_not_busy {s : State} (h : s.enc.phase.busy = false) : EncoderOk s := by
  unfold EncoderOk
  cases hphase : s.enc.phase <;> first | trivial | (rw [hphase] at h; cases h)

/-- A running command's step ends it, or was a scan step that left the registers in order, with E.ip one on. -/
theorem encStep_keeps_ok {s : State} {a : Args} {w : EncWork} (hrun : s.enc.phase = .running a w)
    (hok : w.Ok a s.pmWords s.lmWords) :
    (encStep s).enc.phase.busy = false ∨
      ∃ w', (encStep s).enc.phase = .running a w' ∧ w'.Ok a s.pmWords s.lmWords ∧
        w.ip.toNat ≤ w.xe.toNat ∧ w'.ip.toNat = w.ip.toNat + 1 ∧ w'.xe = w.xe := by
  by_cases hscan : w.ip.toNat ≤ w.xe.toNat
  · rw [encStep_of_scanning hrun hscan]
    rcases (encScan_scanMove hok hscan).keeps_ok hok hscan with ⟨c, hc⟩ | ⟨w', hw', hok', hip, hxe⟩
    · rw [hc]; exact .inl rfl
    · exact .inr ⟨w', hw', hok', hscan, hip, hxe⟩
  · rw [encStep_of_scanned hrun (Nat.lt_of_not_le hscan)]
    by_cases hlen : w.op.toNat ≤ maxLen
    · rw [encFinish_of_le_maxLen s hlen hok.header_fits]; exact .inl rfl
    · rw [encFinish_of_maxLen_lt s (Nat.lt_of_not_le hlen)]; exact .inl rfl

/-- ENC's own step keeps its registers in order. -/
theorem encStep_keeps_encoderOk {s : State} (hok : EncoderOk s) : EncoderOk (encStep s) := by
  have hsame := encStep_same s
  have hpm : (encStep s).pmWords = s.pmWords := by rw [hsame]; rfl
  have hlm : (encStep s).lmWords = s.lmWords := by rw [hsame]; rfl
  cases hphase : s.enc.phase with
  | idle | done | faulted c =>
    rw [encStep_of_not_busy (by rw [hphase]; rfl)]
    exact hok
  | accepted a =>
    by_cases hcount : a.count = 0
    · refine encoderOk_of_not_busy ?_
      rw [encStep_of_accepted hphase, encStart, if_pos hcount]
      rfl
    · rw [encStep_of_accepted hphase]
      rcases encStart_trace (s := s) hcount with hfault | ⟨w, htrace, _⟩
      · exact encoderOk_of_not_busy hfault.not_busy
      · rw [EncoderOk, htrace.running]
        exact htrace.ok
  | running a w =>
    rw [EncoderOk, hphase] at hok
    rcases encStep_keeps_ok hphase hok with hend | ⟨w', hw', hok', _⟩
    · exact encoderOk_of_not_busy hend
    · rw [EncoderOk, hw']
      change w'.Ok a (encStep s).pmWords (encStep s).lmWords
      rw [hpm, hlm]
      exact hok'

theorem HostMove.keeps_encoderOk {s s' : State} (h : HostMove s s') (hok : EncoderOk s) : EncoderOk s' := by
  obtain ⟨_, _, hpm, hlm⟩ := h.frame
  exact encoderOk_of_phase hok hpm hlm (h.enc_phase.imp_right (.imp_right And.right))

theorem encoderOk_afterChoice {s : State} (hok : EncoderOk s) : EncoderOk (afterChoice s) :=
  encoderOk_of_phase hok (by simp) (by simp) (.inl (by simp))

/-- Settles O55. -/
theorem stepKeepsEncoderRegisters : Obligations.StepKeepsEncoderRegisters := by
  refine step_keeps (fun s hok => encoderOk_afterChoice hok)
    (fun s s' hok h => (hostStep_move h).keeps_encoderOk hok) (fun s _ hok => encStep_keeps_encoderOk hok)
    fun s s' _ hok h => ?decoder
  have hsame := decStep_same h
  exact encoderOk_of_phase hok (by rw [hsame]) (by rw [hsame]) (.inl (by rw [hsame]))

/-! ### The memories -/

/-- The host writes a memory one word at a time, and only words that exist. -/
theorem HostMove.memories {s s' : State} (h : HostMove s s') :
    (s'.pm = s.pm ∨ ∃ a v, a < s.pmWords ∧ s'.pm = pmWrite s.pm a v) ∧
      (s'.lm = s.lm ∨ ∃ a v, a < s.lmWords ∧ s'.lm = lmWrite s.lm a v) := by
  cases h with
  | go u => cases u <;> exact ⟨.inl rfl, .inl rfl⟩
  | clear u => cases u <;> exact ⟨.inl rfl, .inl rfl⟩
  | writePm a v ops ha => exact ⟨.inr ⟨a, v, ha, rfl⟩, .inl rfl⟩
  | writeLm a v ops ha => exact ⟨.inl rfl, .inr ⟨a, v, ha, rfl⟩⟩
  | _ => exact ⟨.inl rfl, .inl rfl⟩

/-- A step of ENC leaves PM, and LM as its command's writes leave it. -/
theorem encStep_memories (s : State) :
    (encStep s).pm = s.pm ∧ ∃ a, LmKept a s.lm (encStep s).lm := by
  refine ⟨by rw [encStep_same s], ?_⟩
  rcases encStep_cases s with ⟨_, h⟩ | ⟨a, _, hmove⟩
  · exact ⟨Args.zero, by rw [h]; exact .refl _ _⟩
  · exact ⟨a, hmove.lm_frame.2⟩

/-- A step of DEC leaves LM, and PM as its command's writes leave it. -/
theorem decStep_memories {s s' : State} (h : decStep s = .next s') :
    s'.lm = s.lm ∧ ∃ a, PmKept a s.pm s'.pm := by
  refine ⟨by rw [decStep_same h], ?_⟩
  rcases decStep_cases h with ⟨_, rfl⟩ | ⟨k, _, hmove⟩
  · exact ⟨Args.zero, .refl _ _⟩
  · exact ⟨k.args, hmove.pm_frame.2⟩

/-- Settles O56. -/
theorem stepKeepsMemoriesCanonical : Obligations.StepKeepsMemoriesCanonical := by
  refine step_keeps (fun s hwf => ?choice) (fun s s' hwf h => ?host) (fun s _ hwf => ?encoder)
    fun s s' _ hwf h => ?decoder
  case choice => simpa [MemoriesCanonical] using hwf
  case host =>
    obtain ⟨hpm, hlm⟩ := hwf
    obtain ⟨hp, hl⟩ := (hostStep_move h).memories
    constructor
    · rcases hp with h | ⟨a, v, _, h⟩ <;> rw [h]
      · exact hpm
      · exact wf_pmWrite _ _ hpm
    · rcases hl with h | ⟨a, v, _, h⟩ <;> rw [h]
      · exact hlm
      · exact wf_lmWrite _ _ hlm
  case encoder =>
    obtain ⟨hpm, a, hkept⟩ := encStep_memories s
    exact ⟨by rw [hpm]; exact hwf.1, hkept.1 hwf.2⟩
  case decoder =>
    obtain ⟨hlm, a, hkept⟩ := decStep_memories h
    exact ⟨hkept.1 hwf.1, by rw [hlm]; exact hwf.2⟩

theorem Args.mapped_iff (a : Args) (srcWords dstWords : Nat) :
    a.mapped srcWords dstWords = true ↔
      a.srcBase.toNat + a.srcLen.toNat ≤ srcWords ∧ a.dstBase.toNat + a.dstLen.toNat ≤ dstWords := by
  simp [Args.mapped]

/-- A step of ENC lists bytes of words that exist alone: a command that writes has its buffers mapped (R41). -/
theorem encStep_keeps_below {s : State} (hok : EncoderOk s) (h : s.lm.below (2 * s.lmWords) = true) :
    (encStep s).lm.below (2 * s.lmWords) = true := by
  cases hphase : s.enc.phase with
  | idle | done | faulted c => rwa [encStep_of_not_busy (by rw [hphase]; rfl)]
  | accepted a =>
    rw [encStep_of_accepted hphase]
    obtain ⟨hmove, hsame | hmap⟩ := encStart_move a s
    · rwa [hsame]
    · exact hmove.lm_frame.2.2 _ ((a.mapped_iff _ _).1 hmap).2 h
  | running a w =>
    rw [EncoderOk, hphase] at hok
    rcases encStep_cases s with ⟨hnone, _⟩ | ⟨b, hb, hmove⟩
    · rw [hphase] at hnone; cases hnone
    · rw [hphase] at hb
      cases hb
      exact hmove.lm_frame.2.2 _ ((a.mapped_iff _ _).1 hok.mapped).2 h

/-- A step of DEC lists bytes of words that exist alone. -/
theorem decStep_keeps_below {s s' : State} (hok : DecoderOk s) (hstep : decStep s = .next s')
    (h : s.pm.below (4 * s.pmWords) = true) : s'.pm.below (4 * s.pmWords) = true := by
  cases hphase : s.dec.phase with
  | idle | done | faulted c =>
    rw [decStep_of_not_busy (by rw [hphase]; rfl)] at hstep
    cases hstep
    exact h
  | accepted k =>
    rw [decStep_of_accepted hphase] at hstep
    cases hstep
    rwa [(decStart_move k s).2]
  | running k w =>
    rw [DecoderOk, hphase] at hok
    rcases decStep_cases hstep with ⟨hnone, _⟩ | ⟨k', hk', hmove⟩
    · rw [hphase] at hnone; cases hnone
    · rw [hphase] at hk'
      cases hk'
      exact hmove.pm_frame.2.2 _ ((k.args.mapped_iff _ _).1 hok.mapped).2 h

theorem HostMove.keeps_cellsExist {s s' : State} (h : HostMove s s') (hc : CellsExist s) : CellsExist s' := by
  obtain ⟨_, _, hpmLast, hlmLast⟩ := h.frame
  obtain ⟨hpm, hlm⟩ := hc
  obtain ⟨hp, hl⟩ := h.memories
  unfold CellsExist
  rw [State.pmWords, State.lmWords, hpmLast, hlmLast]
  constructor
  · rcases hp with h | ⟨a, v, ha, h⟩ <;> rw [h]
    · exact hpm
    · exact below_pmWrite _ _ ha hpm
  · rcases hl with h | ⟨a, v, ha, h⟩ <;> rw [h]
    · exact hlm
    · exact below_lmWrite _ _ ha hlm

/-- Settles O57. -/
theorem stepWritesOnlyExistingWords : Obligations.StepWritesOnlyExistingWords := by
  intro s s' henc hdec hcells hstep
  have hcells' : CellsExist (afterChoice s) := by
    simpa [CellsExist, State.pmWords, State.lmWords] using hcells
  rcases step_cases hstep with ⟨_, rfl⟩ | ⟨_, h⟩ | ⟨_, _, rfl⟩ | ⟨_, _, h⟩
  · exact hcells'
  · exact (hostStep_move h).keeps_cellsExist hcells'
  · have hbelow := encStep_keeps_below (encoderOk_afterChoice henc) hcells'.2
    rw [encStep_same (afterChoice s)]
    exact ⟨hcells'.1, hbelow⟩
  · have hbelow := decStep_keeps_below (decoderOk_afterChoice hdec) h hcells'.1
    rw [decStep_same h]
    exact ⟨hbelow, hcells'.2⟩

/-! ### RESULT, FINFO and asserted reset -/

theorem CodecUnit.RegsOk.go {κ ω : Type} {u : CodecUnit κ ω} (h : u.RegsOk) (k : κ) : (u.go k).RegsOk := by
  cases hbusy : u.phase.busy with
  | true => rwa [go_of_busy k hbusy]
  | false => rw [go_of_not_busy k hbusy]; exact ⟨rfl, rfl⟩

theorem CodecUnit.RegsOk.clear {κ ω : Type} {u : CodecUnit κ ω} (h : u.RegsOk) : u.clear.RegsOk := by
  cases hbusy : u.phase.busy with
  | true => rwa [clear_of_busy hbusy]
  | false => rw [clear_of_not_busy hbusy]; exact rfl

theorem CodecUnit.regsOk_reset {κ ω : Type} : (CodecUnit.reset : CodecUnit κ ω).RegsOk := rfl

/-- A BUSY unit's RESULT and FINFO are 0. -/
theorem CodecUnit.RegsOk.of_latched {κ ω : Type} {u : CodecUnit κ ω} (h : u.RegsOk) {k : κ}
    (hk : u.phase.latched = some k) : u.result = 0 ∧ u.finfo = 0 := by
  unfold CodecUnit.RegsOk at h
  cases hphase : u.phase <;> rw [hphase] at h hk <;> first | exact h | cases hk

theorem EncMove.keeps_regsOk {a : Args} {s s' : State} (h : EncMove a s s')
    (hregs : s.enc.result = 0 ∧ s.enc.finfo = 0) : s'.enc.RegsOk := by
  cases h with
  | goOn => exact hregs
  | fault => exact hregs.1
  | complete => exact hregs.2

theorem DecMove.keeps_regsOk {k : DecLatch} {s s' : State} (h : DecMove k s s')
    (hregs : s.dec.result = 0 ∧ s.dec.finfo = 0) : s'.dec.RegsOk := by
  cases h with
  | goOn => exact hregs
  | fault => exact hregs.1
  | complete => exact hregs.2

theorem HostMove.keeps_registersOk {s s' : State} (h : HostMove s s') (hregs : RegistersOk s) :
    RegistersOk s' := by
  obtain ⟨henc, hdec⟩ := hregs
  constructor
  · rcases h.enc_cases with h | h | ⟨a, h⟩ | ⟨_, h | h⟩ <;> rw [h]
    · exact henc
    · exact CodecUnit.regsOk_reset
    · exact henc
    · exact henc.go _
    · exact henc.clear
  · rcases h.dec_cases with h | h | ⟨a, h⟩ | ⟨_, ⟨k, h⟩ | h⟩ <;> rw [h]
    · exact hdec
    · exact CodecUnit.regsOk_reset
    · exact hdec
    · exact hdec.go k
    · exact hdec.clear

/-- Settles O58. -/
theorem stepKeepsResultAndFinfo : Obligations.StepKeepsResultAndFinfo := by
  refine step_keeps (fun s hregs => ?choice) (fun s s' hregs h => (hostStep_move h).keeps_registersOk hregs)
    (fun s _ hregs => ?encoder) fun s s' _ hregs h => ?decoder
  case choice => simpa [RegistersOk] using hregs
  case encoder =>
    obtain ⟨henc, hdec⟩ := hregs
    refine ⟨?_, by rw [encStep_same s]; exact hdec⟩
    rcases encStep_cases s with ⟨_, h⟩ | ⟨a, ha, hmove⟩
    · rwa [h]
    · exact hmove.keeps_regsOk (henc.of_latched ha)
  case decoder =>
    obtain ⟨henc, hdec⟩ := hregs
    refine ⟨by rw [decStep_same h]; exact henc, ?_⟩
    rcases decStep_cases h with ⟨_, rfl⟩ | ⟨k, hk, hmove⟩
    · exact hdec
    · exact hmove.keeps_regsOk (hdec.of_latched hk)

/-- While reset is asserted the host's accesses leave the units, DEC's CONFIG and the reset, or release it. -/
theorem HostMove.keeps_resetHolds {s s' : State} (h : HostMove s s') (hholds : ResetHolds s) :
    ResetHolds s' := by
  intro hr'
  cases h with
  | lists => exact hholds hr'
  | go u ops hr => cases u <;> (change s.inReset = true at hr'; rw [hr] at hr'; cases hr')
  | clear u ops hr => cases u <;> (change s.inReset = true at hr'; rw [hr] at hr'; cases hr')
  | config b ops hr => change s.inReset = true at hr'; rw [hr] at hr'; cases hr'
  | encArgs a ops hr => change s.inReset = true at hr'; rw [hr] at hr'; cases hr'
  | decArgs a ops hr => change s.inReset = true at hr'; rw [hr] at hr'; cases hr'
  | writePm => exact hholds hr'
  | writeLm => exact hholds hr'
  | assertReset => exact ⟨rfl, rfl, rfl⟩
  | releaseReset => cases hr'

/-- Settles O59: the units take no step while reset is asserted. -/
theorem stepKeepsAssertedReset : Obligations.StepKeepsAssertedReset := by
  refine step_keeps (fun s hholds => ?choice) (fun s s' hholds h => (hostStep_move h).keeps_resetHolds hholds)
    (fun s hr _ hr' => ?encoder) fun s s' hr _ h hr' => ?decoder
  case choice => simpa [ResetHolds] using hholds
  case encoder => rw [encStep_same s, hr] at hr'; cases hr'
  case decoder => rw [decStep_same h, hr] at hr'; cases hr'

/-- Settles O60: no command runs, no byte is listed, and every register is 0. -/
theorem resetMeetsEveryInvariant : Obligations.ResetMeetsEveryInvariant :=
  ⟨trivial, trivial, ⟨rfl, rfl⟩, ⟨rfl, rfl⟩, ⟨rfl, rfl⟩, nofun⟩

end Sys2Proof.Machine
end

section
/-! Every execution gives each unit its turns, and a BUSY unit ends its command (R133): each turn of a unit lowers
the rank of its command, and no other step raises it. -/

namespace Sys2Proof.Machine

/-! ### Turns -/

/-- The turns named before the next stretch is drawn; where none is left, the stretch drawn now. -/
def State.turns (s : State) : List Agent :=
  if s.sched = [] then drawnSchedule s.draws else s.sched

theorem State.turns_eq (s : State) : s.turns = nextAgent s :: (afterChoice s).sched := by
  rcases choice_cases s with ⟨rest, hs, hafter⟩ | ⟨rest, hs, hdrawn, hafter⟩
  · rw [hafter, State.turns, hs, if_neg (List.cons_ne_nil _ _)]
  · rw [hafter, State.turns, if_pos hs, hdrawn]

theorem UnitId.agent_mem_drawnSchedule (u : UnitId) (n : Nat) : u.agent ∈ drawnSchedule n := by
  cases u with
  | enc => exact enc_mem_drawnSchedule n
  | dec => exact dec_mem_drawnSchedule n

/-- No agent's step moves the schedule that the choice leaves. -/
theorem step_sched {s s' : State} (h : step s = .next s') : s'.sched = (afterChoice s).sched := by
  rcases step_cases h with ⟨_, rfl⟩ | ⟨_, h⟩ | ⟨_, _, rfl⟩ | ⟨_, _, h⟩
  · rfl
  · exact (hostStep_move h).frame.1
  · rw [encStep_same]
  · rw [decStep_same h]

section
variable {r : Nat → State} (hr : IsRun r)
include hr

theorem IsRun.turns_cons (n : Nat) : (r n).turns = nextAgent (r n) :: (r (n + 1)).sched := by
  rw [State.turns_eq, step_sched (hr n)]

/-- An agent that the turns name moves, or they run out first. -/
theorem IsRun.turn_of_mem {g : Agent} {l : List Agent} (n : Nat) (hl : (r n).turns = l) (hg : g ∈ l) :
    ∃ m, n ≤ m ∧ nextAgent (r m) = g := by
  induction l generalizing n with
  | nil => cases hg
  | cons g' rest ih =>
    rw [hr.turns_cons] at hl
    obtain ⟨hnext, hrest⟩ := List.cons.inj hl
    rcases List.mem_cons.1 hg with rfl | hmem
    · exact ⟨n, le_rfl, hnext⟩
    · have hturns : (r (n + 1)).turns = rest := by
        rw [State.turns, hrest, if_neg (List.ne_nil_of_mem hmem)]
      obtain ⟨m, hm, hg⟩ := ih (n + 1) hturns hmem
      exact ⟨m, by omega, hg⟩

/-- The turns named run out. -/
theorem IsRun.turns_run_out {l : List Agent} (n : Nat) (hl : (r n).turns = l) :
    ∃ m, n ≤ m ∧ (r m).sched = [] := by
  induction l generalizing n with
  | nil => rw [hr.turns_cons] at hl; cases hl
  | cons g rest ih =>
    rw [hr.turns_cons] at hl
    obtain ⟨_, hrest⟩ := List.cons.inj hl
    by_cases hnil : rest = []
    · exact ⟨n + 1, by omega, hrest.trans hnil⟩
    · obtain ⟨m, hm, hsched⟩ := ih (n + 1) (by rw [State.turns, hrest, if_neg hnil])
      exact ⟨m, by omega, hsched⟩

/-- Each unit gets its turn again and again: the stretch drawn next names it. -/
theorem IsRun.turn (n : Nat) (u : UnitId) : ∃ m, n ≤ m ∧ nextAgent (r m) = u.agent := by
  obtain ⟨m, hm, hsched⟩ := hr.turns_run_out n rfl
  have hturns : (r m).turns = drawnSchedule (r m).draws := by rw [State.turns, if_pos hsched]
  obtain ⟨m', hm', hg⟩ := hr.turn_of_mem m hturns (u.agent_mem_drawnSchedule _)
  exact ⟨m', hm.trans hm', hg⟩

/-- What holds at first and is kept by every step holds all along. -/
theorem IsRun.invariant {P : State → Prop} (hkeeps : ∀ s s', P s → step s = .next s' → P s') (h0 : P (r 0))
    (n : Nat) : P (r n) := by
  induction n with
  | zero => exact h0
  | succ n ih => exact hkeeps _ _ ih (hr n)

/-- A unit is not BUSY for ever where its turns lower a rank that no other step raises. -/
theorem IsRun.ends_of_rank {u : UnitId} {rank : State → WithTop Nat}
    (hle : ∀ n, unitBusy (r n) u = true → unitBusy (r (n + 1)) u = true → rank (r (n + 1)) ≤ rank (r n))
    (hlt : ∀ n, nextAgent (r n) = u.agent → unitBusy (r n) u = true → unitBusy (r (n + 1)) u = true →
      rank (r (n + 1)) < rank (r n)) (n : Nat) : ∃ m, n ≤ m ∧ unitBusy (r m) u = false := by
  by_contra hnever
  have hbusy : ∀ m, n ≤ m → unitBusy (r m) u = true := fun m hm =>
    Bool.eq_true_of_not_eq_false fun hidle => hnever ⟨m, hm, hidle⟩
  have hmono : ∀ m t, n ≤ m → m ≤ t → rank (r t) ≤ rank (r m) := fun m t hm ht => by
    induction t, ht using Nat.le_induction with
    | base => exact le_rfl
    | succ t ht ih => exact (hle t (hbusy t (by omega)) (hbusy (t + 1) (by omega))).trans ih
  have hfalls : ∀ k m, n ≤ m → rank (r m) = k → False := fun k => by
    induction k using WellFoundedLT.induction with
    | ind k ih =>
      intro m hm hk
      obtain ⟨t, ht, hturn⟩ := hr.turn m u
      have hdrop := hlt t hturn (hbusy t (by omega)) (hbusy (t + 1) (by omega))
      exact ih _ (hk ▸ hdrop.trans_le (hmono m t hm ht)) (t + 1) (by omega) rfl
  exact hfalls _ n le_rfl rfl

end

/-! ### Ranks -/

/-- How many scan steps a command of ENC has left, once it runs. -/
def encRank : Phase Args EncWork → WithTop Nat
  | .accepted _ => ⊤
  | .running _ w => (w.xe.toNat + 1 - w.ip.toNat : Nat)
  | .idle | .done | .faulted _ => 0

/-- How many words a command of DEC has left before D.L, once it runs. -/
def decRank : Phase DecLatch DecWork → WithTop Nat
  | .accepted _ => ⊤
  | .running _ w => ((w.L.toInt - w.ip.toInt).toNat : Nat)
  | .idle | .done | .faulted _ => 0

def commandRank : UnitId → State → WithTop Nat
  | .enc, s => encRank s.enc.phase
  | .dec, s => decRank s.dec.phase

/-- A step of a command leaves it running, whatever its phase was, or ends it. -/
theorem EncMove.phase {a : Args} {s s' : State} (h : EncMove a s s') :
    s'.enc.phase.busy = false ∨ ∃ w, s'.enc.phase = .running a w := by
  cases h with
  | goOn w => exact .inr ⟨w, rfl⟩
  | fault => exact .inl rfl
  | complete => exact .inl rfl

theorem DecMove.phase {k : DecLatch} {s s' : State} (h : DecMove k s s') :
    s'.dec.phase.busy = false ∨ ∃ w, s'.dec.phase = .running k w := by
  cases h with
  | goOn w => exact .inr ⟨w, rfl⟩
  | fault => exact .inl rfl
  | complete => exact .inl rfl

theorem encStep_lowers_rank {s : State} (hok : EncoderOk s) (hbusy : s.enc.phase.busy = true) :
    (encStep s).enc.phase.busy = false ∨ encRank (encStep s).enc.phase < encRank s.enc.phase := by
  cases hphase : s.enc.phase with
  | idle | done | faulted c => rw [hphase] at hbusy; cases hbusy
  | accepted a =>
    rw [encStep_of_accepted hphase]
    rcases (encStart_move a s).1.phase with hend | ⟨w, hw⟩
    · exact .inl hend
    · rw [hw]; exact .inr (WithTop.coe_lt_top _)
  | running a w =>
    rw [EncoderOk, hphase] at hok
    rcases encStep_keeps_ok hphase hok with hend | ⟨w', hw', _, hscan, hip, hxe⟩
    · exact .inl hend
    · rw [hw', encRank, encRank, hxe, hip]
      exact .inr (Nat.cast_lt.2 (by omega))

theorem decStep_lowers_rank {s s' : State} (hok : DecoderOk s) (hbusy : s.dec.phase.busy = true)
    (h : decStep s = .next s') : s'.dec.phase.busy = false ∨ decRank s'.dec.phase < decRank s.dec.phase := by
  cases hphase : s.dec.phase with
  | idle | done | faulted c => rw [hphase] at hbusy; cases hbusy
  | accepted k =>
    rw [decStep_of_accepted hphase] at h
    cases h
    rcases (decStart_move k s).1.phase with hend | ⟨w, hw⟩
    · exact .inl hend
    · rw [hw]; exact .inr (WithTop.coe_lt_top _)
  | running k w =>
    rw [DecoderOk, hphase] at hok
    rcases decStep_keeps_ok hphase hok h with hend | ⟨w', hw', _, hloop, hL, hip⟩
    · exact .inl hend
    · have hlt := ((loopEnded_eq_false_iff w).1 hloop).1
      rw [hw', decRank, decRank, hL]
      exact .inr (Nat.cast_lt.2 (by omega))

/-! ### Steps of a BUSY unit -/

/-- A step that leaves ENC BUSY is ENC's own, or another agent's that leaves its phase. -/
theorem step_enc_busy {s s' : State} (hholds : ResetHolds s) (h : step s = .next s')
    (hbusy : s.enc.phase.busy = true) (hbusy' : s'.enc.phase.busy = true) :
    s' = encStep (afterChoice s) ∨ nextAgent s ≠ .enc ∧ s'.enc.phase = s.enc.phase := by
  rcases step_cases h with ⟨hreset, _⟩ | ⟨hnext, h⟩ | ⟨_, _, rfl⟩ | ⟨hnext, _, h⟩
  · rw [(hholds hreset).1] at hbusy; cases hbusy
  · refine .inr ⟨by rw [hnext]; nofun, ?_⟩
    rcases (hostStep_move h).enc_phase with hsame | hidle | ⟨hrest, _⟩
    · simpa using hsame
    · rw [hidle] at hbusy'; cases hbusy'
    · rw [afterChoice_enc, hbusy] at hrest; cases hrest
  · exact .inl rfl
  · exact .inr ⟨by rw [hnext]; nofun, by rw [decStep_same h]; simp⟩

/-- A step that leaves DEC BUSY is DEC's own, or another agent's that leaves its phase. -/
theorem step_dec_busy {s s' : State} (hholds : ResetHolds s) (h : step s = .next s')
    (hbusy : s.dec.phase.busy = true) (hbusy' : s'.dec.phase.busy = true) :
    decStep (afterChoice s) = .next s' ∨ nextAgent s ≠ .dec ∧ s'.dec.phase = s.dec.phase := by
  rcases step_cases h with ⟨hreset, _⟩ | ⟨hnext, h⟩ | ⟨hnext, _, rfl⟩ | ⟨_, _, h⟩
  · rw [(hholds hreset).2.1] at hbusy; cases hbusy
  · refine .inr ⟨by rw [hnext]; nofun, ?_⟩
    rcases (hostStep_move h).dec_phase with hsame | hidle | ⟨hrest, _⟩
    · simpa using hsame
    · rw [hidle] at hbusy'; cases hbusy'
    · rw [afterChoice_dec, hbusy] at hrest; cases hrest
  · exact .inr ⟨by rw [hnext]; nofun, by rw [encStep_same]; simp⟩
  · exact .inl h

/-- Where a step leaves a unit BUSY, it lowers the command's rank or was another agent's and left it. -/
theorem step_commandRank {s s' : State} (u : UnitId) (henc : EncoderOk s) (hdec : DecoderOk s)
    (hholds : ResetHolds s) (h : step s = .next s') (hbusy : unitBusy s u = true)
    (hbusy' : unitBusy s' u = true) :
    commandRank u s' < commandRank u s ∨ nextAgent s ≠ u.agent ∧ commandRank u s' = commandRank u s := by
  cases u with
  | enc =>
    rcases step_enc_busy hholds h hbusy hbusy' with rfl | ⟨hnext, hphase⟩
    · rcases encStep_lowers_rank (encoderOk_afterChoice henc) (by rwa [afterChoice_enc]) with hend | hlt
      · rw [unitBusy, hend] at hbusy'; cases hbusy'
      · exact .inl (by simpa [commandRank] using hlt)
    · exact .inr ⟨hnext, by rw [commandRank, hphase]; rfl⟩
  | dec =>
    rcases step_dec_busy hholds h hbusy hbusy' with hstep | ⟨hnext, hphase⟩
    · rcases decStep_lowers_rank (decoderOk_afterChoice hdec) (by rwa [afterChoice_dec]) hstep with hend | hlt
      · rw [unitBusy, hend] at hbusy'; cases hbusy'
      · exact .inl (by simpa [commandRank] using hlt)
    · exact .inr ⟨hnext, by rw [commandRank, hphase]; rfl⟩

/-- Settles O50. -/
theorem finishedUnitsRestAndBusyUnitsEnd : Obligations.FinishedUnitsRestAndBusyUnitsEnd := by
  refine ⟨fun s => ⟨encStep_of_not_busy, decStep_of_not_busy⟩, fun r hr => ⟨hr.turn, ?_⟩⟩
  intro henc hdec hholds n u _
  have hstep := fun m => step_commandRank (s := r m) u (hr.invariant stepKeepsEncoderRegisters henc m)
    (hr.invariant stepKeepsDecoderRegisters hdec m) (hr.invariant stepKeepsAssertedReset hholds m) (hr m)
  refine hr.ends_of_rank (rank := commandRank u) (fun m hbusy hbusy' => ?_) (fun m hturn hbusy hbusy' => ?_) n
  · rcases hstep m hbusy hbusy' with hlt | ⟨_, heq⟩
    · exact hlt.le
    · exact heq.le
  · rcases hstep m hbusy hbusy' with hlt | ⟨hother, _⟩
    · exact hlt
    · exact absurd hturn hother

end Sys2Proof.Machine
end

section
/-! The units' steps commute where their commands are apart (R121, R128): a unit's step reads its source buffer and
its own memory, and none of these does the other unit's step change. -/

namespace Sys2Proof.Machine

/-! ### What the other unit's step changes, put in -/

/-- The state with what a step of ENC changes put in. -/
def State.putEnc (s : State) (lm : Memory) (e : CodecUnit Args EncWork) : State := { s with lm := lm, enc := e }

/-- The state with what a step of DEC changes put in. -/
def State.putDec (s : State) (pm : Memory) (d : CodecUnit DecLatch DecWork) : State :=
  { s with pm := pm, dec := d }

section
variable (s : State) (m : Memory) (e : CodecUnit Args EncWork) (d : CodecUnit DecLatch DecWork)

@[simp] theorem State.putEnc_pm : (s.putEnc m e).pm = s.pm := rfl
@[simp] theorem State.putEnc_lm : (s.putEnc m e).lm = m := rfl
@[simp] theorem State.putEnc_pmWords : (s.putEnc m e).pmWords = s.pmWords := rfl
@[simp] theorem State.putEnc_lmWords : (s.putEnc m e).lmWords = s.lmWords := rfl
@[simp] theorem State.putDec_pm : (s.putDec m d).pm = m := rfl
@[simp] theorem State.putDec_lm : (s.putDec m d).lm = s.lm := rfl
@[simp] theorem State.putDec_pmWords : (s.putDec m d).pmWords = s.pmWords := rfl
@[simp] theorem State.putDec_lmWords : (s.putDec m d).lmWords = s.lmWords := rfl

end

theorem encStep_eq_putEnc (s : State) : encStep s = s.putEnc (encStep s).lm (encStep s).enc := encStep_same s

theorem decStep_eq_putDec {s s' : State} (h : decStep s = .next s') : s' = s.putDec s'.pm s'.dec :=
  decStep_same h

/-! ### Reads of a source buffer that the other unit's writes miss -/

theorem decSrcRead_of_apart {a b : Args} {lm lm' : Memory}
    (hapart : spansApart a.dstBase a.dstLen b.srcBase b.srcLen) (hout : LmSameOutside a lm lm') :
    decSrcRead b lm' = decSrcRead b lm := by
  funext i
  unfold decSrcRead
  split
  case isTrue hin =>
    obtain ⟨h0, hlt⟩ := (inBuffer_iff _ _).1 hin
    rw [hout _ (by unfold spansApart at hapart; omega)]
  case isFalse => rfl

theorem encSrcRead_of_apart {a b : Args} {pm pm' : Memory}
    (hapart : spansApart b.dstBase b.dstLen a.srcBase a.srcLen) (hout : PmSameOutside b pm pm') :
    encSrcRead a pm' = encSrcRead a pm := by
  funext i
  unfold encSrcRead
  split
  case isTrue hin =>
    obtain ⟨h0, hlt⟩ := (inBuffer_iff _ _).1 hin
    rw [hout _ (by unfold spansApart at hapart; omega)]
  case isFalse => rfl

/-- A step of ENC leaves the reads of DEC's command, where the two are apart. -/
theorem UnitsApart.decSrcRead_encStep {s : State} (h : UnitsApart s) {k : DecLatch}
    (hk : s.dec.phase.latched = some k) : decSrcRead k.args (encStep s).lm = decSrcRead k.args s.lm := by
  rcases encStep_cases s with ⟨_, hsame⟩ | ⟨a, ha, hmove⟩
  · rw [hsame]
  · have hapart := (h a k.args (by rw [encLatched_eq, ha]) (by rw [decLatched_eq, hk]; rfl)).1
    exact decSrcRead_of_apart hapart hmove.lm_frame.1

/-- A step of DEC leaves the reads of ENC's command, where the two are apart. -/
theorem UnitsApart.encSrcRead_decStep {s s' : State} (h : UnitsApart s) (hstep : decStep s = .next s') {a : Args}
    (ha : s.enc.phase.latched = some a) : encSrcRead a s'.pm = encSrcRead a s.pm := by
  rcases decStep_cases hstep with ⟨_, rfl⟩ | ⟨k, hk, hmove⟩
  · rfl
  · have hapart := (h a k.args (by rw [encLatched_eq, ha]) (by rw [decLatched_eq, hk]; rfl)).2
    exact encSrcRead_of_apart hapart hmove.pm_frame.1

/-! ### DEC's step past ENC's -/

section
variable {s : State} {k : DecLatch} (lm : Memory) (e : CodecUnit Args EncWork)

theorem decStartChecked_putEnc (h : Header) :
    decStartChecked k h (s.putEnc lm e) = (decStartChecked k h s).putEnc lm e := by
  unfold decStartChecked
  split
  · rfl
  split
  · rfl
  split
  · rfl
  split <;> rfl

theorem decStart_putEnc (hread : decSrcRead k.args lm = decSrcRead k.args s.lm) :
    decStart k (s.putEnc lm e) = (decStart k s).putEnc lm e := by
  have hheader : readHeader k.args lm = readHeader k.args s.lm := by simp only [readHeader, hread]
  simp only [decStart, State.putEnc_lm, State.putEnc_pmWords, State.putEnc_lmWords, hheader]
  split
  · rfl
  split
  · rfl
  split
  · rfl
  · exact decStartChecked_putEnc lm e _

theorem decFill_putEnc (w : DecWork) : decFill k w (s.putEnc lm e) = (decFill k w s).putEnc lm e := by
  simp only [decFill, State.putEnc_pm]
  split <;> rfl

/-- What ENC's step changes is nothing that an instruction sees. -/
theorem putEnc_instrMap : InstrMap (fun t => t.putEnc lm e) k k s :=
  ⟨rfl, rfl, fun _ _ => rfl, fun _ _ _ => rfl, fun _ _ => rfl⟩

theorem StrictAgrees.refl (k : DecLatch) (w : DecWork) (i : Instr) : StrictAgrees k k w i := by
  cases i with
  | sh => exact Iff.rfl
  | reserved => exact rfl
  | zn | ih | dh | hn | pn | is | ds => trivial

theorem decStep_putEnc {s' : State}
    (hread : ∀ k, s.dec.phase.latched = some k → decSrcRead k.args lm = decSrcRead k.args s.lm)
    (h : decStep s = .next s') : decStep (s.putEnc lm e) = .next (s'.putEnc lm e) := by
  cases hphase : s.dec.phase with
  | idle | done | faulted c =>
    rw [decStep_of_not_busy (by rw [hphase]; rfl)] at h
    cases h
    exact decStep_of_not_busy (by change s.dec.phase.busy = false; rw [hphase]; rfl)
  | accepted k =>
    rw [decStep_of_accepted hphase] at h
    cases h
    rw [decStep_of_accepted (s := s.putEnc lm e) hphase, decStart_putEnc lm e (hread k (by rw [hphase]; rfl))]
  | running k w =>
    have hk := hread k (by rw [hphase]; rfl)
    have hrun' : (s.putEnc lm e).dec.phase = .running k w := hphase
    cases hloop : loopEnded w with
    | true =>
      rw [decStep_of_loopEnded hphase hloop] at h
      cases h
      rw [decStep_of_loopEnded hrun' hloop, decFill_putEnc]
    | false =>
      cases h0 : decSrcRead k.args s.lm w.ip.toInt with
      | none =>
        rw [decStep_of_not_fetched hphase hloop h0] at h
        cases h
        rw [decStep_of_not_fetched hrun' hloop ((congrFun hk _).trans h0)]
        rfl
      | some w0 =>
        rw [decStep_of_fetched hphase hloop h0] at h
        rw [decStep_of_fetched hrun' hloop ((congrFun hk _).trans h0), State.putEnc_lm, hk]
        exact (putEnc_instrMap lm e).exec w hphase hrun' (.refl k w _) h

end

/-! ### ENC's step past DEC's -/

section
variable {s : State} {a : Args} (pm : Memory) (d : CodecUnit DecLatch DecWork)

theorem encEndStep_putDec (r : EncRes Unit) :
    encEndStep a (s.putDec pm d) r = (encEndStep a s r).putDec pm d := by
  cases r <;> rfl

theorem encStart_putDec (hread : encSrcRead a pm = encSrcRead a s.pm) :
    encStart a (s.putDec pm d) = (encStart a s).putDec pm d := by
  simp only [encStart, State.putDec_pm, State.putDec_lm, State.putDec_pmWords, State.putDec_lmWords, hread]
  split
  · rfl
  split
  · rfl
  split
  · rfl
  split
  · rfl
  split
  · rfl
  split <;> rfl

theorem encScan_putDec (w : EncWork) (hread : encSrcRead a pm = encSrcRead a s.pm) :
    encScan a w (s.putDec pm d) = (encScan a w s).putDec pm d := by
  simp only [encScan, State.putDec_pm, State.putDec_lm, hread]
  split
  · split
    · rfl
    split
    · rfl
    split
    · rfl
    · exact encEndStep_putDec pm d _
  · exact encEndStep_putDec pm d _

theorem encFinish_putDec (w : EncWork) : encFinish a w (s.putDec pm d) = (encFinish a w s).putDec pm d := by
  simp only [encFinish, State.putDec_lm]
  split
  · rfl
  split <;> rfl

theorem encStep_putDec (hread : ∀ a, s.enc.phase.latched = some a → encSrcRead a pm = encSrcRead a s.pm) :
    encStep (s.putDec pm d) = (encStep s).putDec pm d := by
  cases hphase : s.enc.phase with
  | idle | done | faulted c =>
    have hrest : s.enc.phase.busy = false := by rw [hphase]; rfl
    rw [encStep_of_not_busy hrest, encStep_of_not_busy (s := s.putDec pm d) hrest]
  | accepted a =>
    rw [encStep_of_accepted hphase, encStep_of_accepted (s := s.putDec pm d) hphase]
    exact encStart_putDec pm d (hread a (by rw [hphase]; rfl))
  | running a w =>
    have hrun' : (s.putDec pm d).enc.phase = .running a w := hphase
    by_cases hscan : w.ip.toNat ≤ w.xe.toNat
    · rw [encStep_of_scanning hphase hscan, encStep_of_scanning hrun' hscan]
      exact encScan_putDec pm d w (hread a (by rw [hphase]; rfl))
    · rw [encStep_of_scanned hphase (Nat.lt_of_not_le hscan), encStep_of_scanned hrun' (Nat.lt_of_not_le hscan)]
      exact encFinish_putDec pm d w

end

/-- Settles O40: each order ends in `s` with ENC's changes and DEC's put in. -/
theorem unitsApartCommute : Obligations.UnitsApartCommute := by
  intro s s' hapart hstep
  have hdec : decStep (encStep s) = .next (s'.putEnc (encStep s).lm (encStep s).enc) := by
    conv_lhs => rw [encStep_eq_putEnc s]
    exact decStep_putEnc _ _ (fun k hk => hapart.decSrcRead_encStep hk) hstep
  have henc : encStep s' = (encStep s).putDec s'.pm s'.dec := by
    conv_lhs => rw [decStep_eq_putDec hstep]
    exact encStep_putDec _ _ fun a ha => hapart.encSrcRead_decStep hstep ha
  rw [hdec, henc, Host.Outcome.next.injEq]
  conv_lhs => rw [decStep_eq_putDec hstep]
  conv_rhs => rw [encStep_eq_putEnc s]
  rfl

end Sys2Proof.Machine
end
